-- ==== Sys2Proof/Word.lean ====
section
/-! DEFINITION. The value types of the block (00_scope.md R8, R12): descriptors, bitmaps, times, levels, input
numbers and directions. -/

namespace Sys2Proof

/-- A 32-bit operation descriptor (30_encoding.md R80, R81). It is never stored in byte memory. -/
abbrev Word := BitVec 32

/-- The unit field of a descriptor, `desc[23:16]` (R80, R82). -/
abbrev UnitIx := BitVec 8

/-- Bit `i` stands for input number `i` (00_scope.md R12, 20_memory.md R60). -/
abbrev InputBitmap := BitVec 64

/-- A `TIME_BITS = 64` bit unsigned time (00_scope.md R6, R12); its unit is open. -/
abbrev Time := BitVec 64

/-- A pin level, 0 or 1 (00_scope.md R12). -/
abbrev Level := BitVec 1

/-- An input number, `0..NUM_INPUTS-1` with `NUM_INPUTS = 64` (00_scope.md R6, R12). -/
abbrev InputNumber := Fin 64

/-- A GPIO pin number or an ADC channel number: the platform's own (10_state.md R45). -/
abbrev PinNumber := Nat

/-- A direction of rotation; one bit, `CW = 1` and `CCW = 0` (00_scope.md R12). -/
inductive Dir where
  | ccw
  | cw
deriving DecidableEq, Repr

/-- `1 << n` at the width of a bitmap (00_scope.md R8). -/
def inputBit (n : InputNumber) : InputBitmap := 1#64 <<< n.val

end Sys2Proof
end

