-- ==== Sys2Proof/Syntax.lean ====
section
/-! DEFINITION. The operations of the block (30_encoding.md R83), one constructor per row of
spec/opcode_table.json. Each carries the unit field of its descriptor (R82), the only operand a descriptor has. -/

namespace Sys2Proof

/-- One operation of R83 with its unit field. -/
inductive Instr where
  /-- 0x01 CFG_DPIN: register a direct-pin source. -/
  | cfgDpin (unit : UnitIx)
  /-- 0x02 CFG_MATRIX: register a button-matrix source. -/
  | cfgMatrix (unit : UnitIx)
  /-- 0x03 CFG_SHIFTREG: register a shift-register source. -/
  | cfgShiftreg (unit : UnitIx)
  /-- 0x04 CFG_ENCODER: register a rotary encoder, prime it, enable its interrupt. -/
  | cfgEncoder (unit : UnitIx)
  /-- 0x05 CFG_EXTSRC: register an opaque source. -/
  | cfgExtsrc (unit : UnitIx)
  /-- 0x06 CFG_AXIS: configure an analog axis. -/
  | cfgAxis (unit : UnitIx)
  /-- 0x0F START: end configuration, start the pipeline. -/
  | start (unit : UnitIx)
  /-- 0x10 DPIN_READ: read one direct-pin source. -/
  | dpinRead (unit : UnitIx)
  /-- 0x11 MTX_SCAN: scan one button matrix. -/
  | mtxScan (unit : UnitIx)
  /-- 0x12 SR_READ: read one shift-register chain. -/
  | srRead (unit : UnitIx)
  /-- 0x13 ENC_READ: read one rotary encoder's virtual buttons. -/
  | encRead (unit : UnitIx)
  /-- 0x14 EXT_READ: read one opaque source. -/
  | extRead (unit : UnitIx)
  /-- 0x18 CHAIN_READ: read every source, OR the results. -/
  | chainRead (unit : UnitIx)
  /-- 0x19 CHAIN_MASK: OR of every source's claimed bits. -/
  | chainMask (unit : UnitIx)
  /-- 0x20 ENC_EDGE: edge interrupt of one encoder. -/
  | encEdge (unit : UnitIx)
  /-- 0x30 AX_READ: sample, autocalibrate and map one axis. -/
  | axRead (unit : UnitIx)
  /-- 0x31 AX_RESET_CAL: collapse one axis's bounds. -/
  | axResetCal (unit : UnitIx)
  /-- 0x32 AX_SET_CAL: restore one axis's bounds. -/
  | axSetCal (unit : UnitIx)
  /-- 0x33 AX_GET_CAL: read one axis's bounds. -/
  | axGetCal (unit : UnitIx)
deriving DecidableEq, Repr

/-- The unit field of an operation (R82). -/
def Instr.unit : Instr → UnitIx
  | .cfgDpin u | .cfgMatrix u | .cfgShiftreg u | .cfgEncoder u | .cfgExtsrc u | .cfgAxis u | .start u
  | .dpinRead u | .mtxScan u | .srRead u | .encRead u | .extRead u | .chainRead u | .chainMask u
  | .encEdge u | .axRead u | .axResetCal u | .axSetCal u | .axGetCal u => u

end Sys2Proof
end

