-- ==== Sys2Proof/WellFormed.lean ====
section
/-! DEFINITION. The part of 30_encoding.md R84 that a descriptor alone decides: which unit values an operation can
ever run with. An ill-formed operation still decodes; its meaning refuses it with BAD_UNIT at R87's place. -/

namespace Sys2Proof

/-- START, CHAIN_READ and CHAIN_MASK take unit 0; the axis operations a unit below `MAX_AXES = 2`; every other
operation any source slot (R84). -/
def Instr.wellFormed : Instr → Bool
  | .start u | .chainRead u | .chainMask u => u == 0#8
  | .cfgAxis u | .axRead u | .axResetCal u | .axSetCal u | .axGetCal u => decide (u.toNat < 2)
  | .cfgDpin _ | .cfgMatrix _ | .cfgShiftreg _ | .cfgEncoder _ | .cfgExtsrc _
  | .dpinRead _ | .mtxScan _ | .srRead _ | .encRead _ | .extRead _ | .encEdge _ => true

end Sys2Proof
end

