-- ==== Sys2Proof/Decode.lean ====
section
/-! DEFINITION. The decoder of 30_encoding.md R80 to R85 and R87, total on any 32-bit value and rejecting by name,
and after it the encoder. -/

namespace Sys2Proof

/-- Why a descriptor spells no operation (30_encoding.md R85). -/
inductive DecodeError where
  /-- ILLEGAL_OPCODE: the opcode is not listed in R83. -/
  | illegalOpcode
  /-- RESERVED_BITS: `desc[15:0]` is not 0. -/
  | reservedBits
deriving DecidableEq, Repr

/-- `op = desc[31:24]` (R80). -/
def opField (d : Word) : BitVec 8 := d.extractLsb' 24 8

/-- `unit = desc[23:16]` (R80, R82). -/
def unitField (d : Word) : UnitIx := d.extractLsb' 16 8

/-- `zero = desc[15:0]` (R80). -/
def zeroField (d : Word) : BitVec 16 := d.extractLsb' 0 16

/-- The operation an opcode value names, by the opcode map of R83. -/
def instrOf (op : BitVec 8) (u : UnitIx) : Option Instr :=
  if op = 0x01#8 then some (.cfgDpin u)
  else if op = 0x02#8 then some (.cfgMatrix u)
  else if op = 0x03#8 then some (.cfgShiftreg u)
  else if op = 0x04#8 then some (.cfgEncoder u)
  else if op = 0x05#8 then some (.cfgExtsrc u)
  else if op = 0x06#8 then some (.cfgAxis u)
  else if op = 0x0F#8 then some (.start u)
  else if op = 0x10#8 then some (.dpinRead u)
  else if op = 0x11#8 then some (.mtxScan u)
  else if op = 0x12#8 then some (.srRead u)
  else if op = 0x13#8 then some (.encRead u)
  else if op = 0x14#8 then some (.extRead u)
  else if op = 0x18#8 then some (.chainRead u)
  else if op = 0x19#8 then some (.chainMask u)
  else if op = 0x20#8 then some (.encEdge u)
  else if op = 0x30#8 then some (.axRead u)
  else if op = 0x31#8 then some (.axResetCal u)
  else if op = 0x32#8 then some (.axSetCal u)
  else if op = 0x33#8 then some (.axGetCal u)
  else none

/-- Decode a descriptor: the opcode is checked before the reserved bits (R87). -/
def decode (d : Word) : Except DecodeError Instr :=
  match instrOf (opField d) (unitField d) with
  | none => .error .illegalOpcode
  | some i => if zeroField d = 0#16 then .ok i else .error .reservedBits

/-- The opcode value of an operation, by R83. -/
def Instr.opcode : Instr → BitVec 8
  | .cfgDpin _ => 0x01#8
  | .cfgMatrix _ => 0x02#8
  | .cfgShiftreg _ => 0x03#8
  | .cfgEncoder _ => 0x04#8
  | .cfgExtsrc _ => 0x05#8
  | .cfgAxis _ => 0x06#8
  | .start _ => 0x0F#8
  | .dpinRead _ => 0x10#8
  | .mtxScan _ => 0x11#8
  | .srRead _ => 0x12#8
  | .encRead _ => 0x13#8
  | .extRead _ => 0x14#8
  | .chainRead _ => 0x18#8
  | .chainMask _ => 0x19#8
  | .encEdge _ => 0x20#8
  | .axRead _ => 0x30#8
  | .axResetCal _ => 0x31#8
  | .axSetCal _ => 0x32#8
  | .axGetCal _ => 0x33#8

/-- The descriptor of an operation: `op`, `unit` and sixteen zeros, from bit 31 down (R80). -/
def encode (i : Instr) : Word := (i.opcode ++ i.unit) ++ 0#16

/-- What the decoder reads from a row of the opcode table whose `nbits` bits are `w`. A descriptor is one 32-bit
value with no byte order (R81), so its bits are used as numbered. -/
def decodeTableWord (nbits w : Nat) : Option Instr := (decode (BitVec.ofNat 32 (w % 2 ^ nbits))).toOption

end Sys2Proof
end

