-- ==== Sys2Proof/Config.lean ====
section
/-! DEFINITION. What an implementation fixes (00_scope.md R6) and the values the spec leaves free. The parameters
that are numbers or tables are plain data, so that a statement about every state is a statement about every
parameter value; the opaque sources' read functions and the free values are constants without a body. -/

namespace Sys2Proof

/-- A predicate on pin and channel numbers as plain data: every pin but those listed, or only those listed.
DESIGN CHOICE (log 8), for the open parameter `pinValid` of R6. -/
inductive PinSet where
  | allBut (pins : List PinNumber)
  | only (pins : List PinNumber)
deriving DecidableEq, Repr

/-- The implementation parameters of 00_scope.md R6 whose value is open. No step writes them (log 6).
`TIME_BITS`, `NUM_INPUTS`, `QUEUE_SLOTS`, `AXIS_MAX` and `MAX_AXES` are fixed by the spec and stand in the types. -/
structure Params where
  /-- `RAW_MAX`: the greatest raw sample (42_analog_axis.md R200). -/
  rawMax : Nat
  /-- `VALID[0..15]` (41_rotary_encoder.md R152). -/
  valid : Vector Bool 16
  /-- `DETENT_CW` (R154). -/
  detentCw : BitVec 8
  /-- `DETENT_CCW` (R154). -/
  detentCcw : BitVec 8
  /-- `ALT_VALID`: the valid keys of the alternate encoding (R155). -/
  altValid : List (BitVec 8)
  /-- `ALT_EMIT`: the emitting keys and what each emits (R155). -/
  altEmit : List (BitVec 8 × Dir)
  /-- `MAX_SOURCES`, 1..256. -/
  maxSources : Nat
  /-- `MAX_SELECTORS`, at least 1. -/
  maxSelectors : Nat
  /-- `MAX_MATRIX_INPUTS`, at least 1. -/
  maxMatrixInputs : Nat
  /-- `MAX_SR_BITS`, at least 1. -/
  maxSrBits : Nat
  /-- `pinValid`. -/
  pins : PinSet
  /-- How many functions the family `EXT_READ_FN` has: `fn` names one when it is below this (log 9). -/
  extFns : Nat
deriving DecidableEq, Repr

/-- The ranges R6 gives the count parameters. -/
abbrev Params.Legal (p : Params) : Prop :=
  1 ≤ p.maxSources ∧ p.maxSources ≤ 256 ∧ 1 ≤ p.maxSelectors ∧ 1 ≤ p.maxMatrixInputs ∧ 1 ≤ p.maxSrBits

/-- The Gray-code single-change table, the default of `VALID` (41_rotary_encoder.md R152). -/
def grayValid : Vector Bool 16 :=
  #v[false, true, true, false, true, false, false, true, true, false, false, true, false, true, true, false]

/-- The defaults the spec suggests: `RAW_MAX`, `VALID`, the detent sequences, `MAX_SOURCES` and `pinValid` from
00_scope.md R6; the alternate tables are the example of 92_eei_decisions.md D15; the other counts are the model's.
DESIGN CHOICE (log 6, log 7): the spec makes no rule depend on them, and no statement of this package rests on them. -/
def Params.default : Params where
  rawMax := 4095
  valid := grayValid
  detentCw := 0x17#8
  detentCcw := 0x2B#8
  altValid := [0xE8#8, 0x81#8, 0x17#8, 0x7E#8, 0xD4#8, 0x42#8, 0x2B#8, 0xBD#8]
  altEmit := [(0xE8#8, .cw), (0x17#8, .cw), (0xD4#8, .ccw), (0x2B#8, .ccw)]
  maxSources := 64
  maxSelectors := 64
  maxMatrixInputs := 64
  maxSrBits := 64
  pins := .allBut []
  extFns := 1

namespace Config

/-- A pin level the environment draws when none is supplied (00_scope.md R10; 93 U4): any value (log 2). -/
opaque freeLevel : Nat → Level

/-- An analog sample the environment draws when none is supplied (R10; 93 U5): any value (log 2). -/
opaque freeRaw : Nat → Nat

/-- The unconstrained input of an opaque source when none is supplied (40_digital_sources.md R140; 93 U6). -/
opaque freeExtDraw : Nat → Nat

/-- The 64 queue slots of a new encoder (10_state.md R36, 93 U3): any value (log 15). -/
opaque freeSlots : Nat → BitVec 64

/-- `EXT_INIT[fn]` (10_state.md R39): the first value of an opaque source's state. -/
opaque extInit : (fn : Nat) → Nat

/-- The bits the parameter function `EXT_READ_FN[fn]` reads, before R141's constraint:
arguments are `fn`, the state `ext`, `prev`, `now` and the draw (40_digital_sources.md R140). -/
opaque extBits : (fn ext : Nat) → InputBitmap → Time → (draw : Nat) → InputBitmap

/-- The inputs of the bus transactions that failed in this read (R141). -/
opaque extFailedInputs : (fn ext : Nat) → InputBitmap → Time → (draw : Nat) → InputBitmap

/-- The next value of the opaque source's state (R140). -/
opaque extNext : (fn ext : Nat) → InputBitmap → Time → (draw : Nat) → Nat

end Config

end Sys2Proof
end

