-- ==== Sys2Proof/Machine/State.lean ====
section
/-! DEFINITION. The state of the block (10_state.md), as plain data, its reset value (70_reset_and_hazards.md R290),
and the reasons a step can stop. -/

namespace Sys2Proof.Machine

/-! ### Agents, errors and outcomes -/

/-- The agents that issue operations (00_scope.md R14). -/
inductive Agent where
  | setup
  | poll
  /-- The edge-interrupt handler of the encoder in source slot `u`. -/
  | isr (u : Nat)
deriving DecidableEq, Repr

/-- The configuration errors of 60_exceptions.md R261. -/
inductive ConfigError where
  | invalidPinCount
  | invalidArrayLength
  | duplicatePin
  | inputNumberOutOfRange
  | duplicateInputNumber
  | afterStart
deriving DecidableEq, Repr

/-- The reasons of a refusal (60_exceptions.md R268). -/
inductive RefuseReason where
  | illegalOpcode
  | reservedBits
  | wrongAgent
  | badPhase
  | notStarted
  | badUnit
  | timeBackwards
  | badPin
  | badParam
deriving DecidableEq, Repr

/-- `phase` (10_state.md R22). -/
inductive Phase where
  | setup
  | running
  | terminated (error : ConfigError)
deriving DecidableEq, Repr

/-- A step that does not exist: 60_exceptions.md R260's outcome "no step". The host's step function has no fourth
outcome, so each case is a fault under its own name (log 4). Every constructor is safe: nothing is proved of a step
the spec says does not exist. -/
inductive Fault where
  /-- Raised by every step and every operation in phase TERMINATED (R262: no agent has a step). Safe. -/
  | processTerminated
  /-- Raised for an operation of `ISR(u)` when slot `u` holds no encoder (R276; 95 V-DE22; log 5). Safe. -/
  | agentAbsent
  /-- Raised by ENC_EDGE when its unit's interrupt is not enabled (30_encoding.md R87, 10_state.md R38). Safe. -/
  | interruptNotEnabled
deriving DecidableEq, Repr

/-- Refusals of the host's kind. The spec's own refusals (60_exceptions.md R268) are next states with the mark
`refused` set, not these (log 3). -/
inductive Refusal where
  /-- An operation without a meaning: raised by no arm of `exec`, since every operation has its meaning. Safe. -/
  | notModelled (mnemonic : String)
deriving DecidableEq, Repr

/-- Why an operation does not run its rule: one of the three abnormal outcomes of 60_exceptions.md R260. -/
inductive Objection where
  | noStep (f : Fault)
  | raise (e : ConfigError)
  | refuse (r : RefuseReason)
deriving DecidableEq, Repr

/-- The rows of the legality table (30_encoding.md R86). -/
inductive OpClass where
  /-- CFG_*. -/
  | config
  /-- START. -/
  | start
  /-- DPIN_READ, MTX_SCAN, SR_READ, ENC_READ, EXT_READ, CHAIN_READ, AX_READ, AX_RESET_CAL. -/
  | live
  /-- CHAIN_MASK, AX_GET_CAL. -/
  | query
  /-- AX_SET_CAL. -/
  | setCal
  /-- ENC_EDGE. -/
  | edge
deriving DecidableEq, Repr

/-! ### The configuration record port -/

/-- The names of the fields of a configuration record (10_state.md R28, R30, R32, R34, R39, R40). -/
inductive FieldName where
  | pin | input | activeLevel | window
  | selPins | inPins | map | selActive | inActive | settle
  | loadPin | clkPin | dataPin | n | loadActive | clkActive | dataActive | pulse
  | dtPin | cw | ccw | alternate
  | mask | fn
  | channel | inverted
deriving DecidableEq, Repr

/-- A value of a record's field: a number, a list of numbers or a Boolean. -/
inductive FieldValue where
  | num (n : Nat)
  | list (ns : List Nat)
  | bool (b : Bool)
deriving DecidableEq, Repr

/-- The configuration record `rec` of a CFG operation as the port gives it: named fields, unchecked
(00_scope.md R11, 43_configuration.md R234; log 12). -/
abbrev Record := List (FieldName × FieldValue)

/-! ### Sources -/

/-- Configuration of a direct-pin source (10_state.md R28). -/
structure DpinCfg where
  pin : PinNumber
  input : InputNumber
  activeLevel : Level
  window : Time
deriving DecidableEq, Repr

/-- State of a direct-pin source (R29). -/
structure DpinSt where
  lastRaw : Bool
  lastChange : Time
deriving DecidableEq, Repr

/-- Configuration of a button matrix (R30). `S` and `I` are the lengths of the pin lists; cell `s*I + j` is
`map[s*I + j]`. -/
structure MatrixCfg where
  selPins : List PinNumber
  inPins : List PinNumber
  map : List InputNumber
  selActive : Level
  inActive : Level
  window : Time
  settle : Time
deriving DecidableEq, Repr

/-- State of a button matrix (R31): one timestamp per cell. -/
structure MatrixSt where
  lastActive : List Time
deriving DecidableEq, Repr

/-- Configuration of a shift-register chain (R32); it has no state (R33). -/
structure ShiftRegCfg where
  loadPin : PinNumber
  clkPin : PinNumber
  dataPin : PinNumber
  n : Nat
  map : List InputNumber
  loadActive : Level
  clkActive : Level
  dataActive : Level
  pulse : Time
deriving DecidableEq, Repr

/-- Configuration of a rotary encoder (R34). -/
structure EncoderCfg where
  clkPin : PinNumber
  dtPin : PinNumber
  cw : InputNumber
  ccw : InputNumber
  alternate : Bool
deriving DecidableEq, Repr

/-- State of a rotary encoder: decoder (R35), queue (R36, slot `k` at bit `k` by 20_memory.md R62), `pending` (R37)
and `irqEnabled` (R38). -/
structure EncoderSt where
  code : BitVec 4
  seq : BitVec 8
  alt : BitVec 4
  slots : BitVec 64
  head : BitVec 6
  tail : BitVec 6
  pending : Bool
  irqEnabled : Bool
deriving DecidableEq, Repr

/-- Configuration of an opaque source (R39). -/
structure ExtCfg where
  mask : InputBitmap
  fn : Nat
deriving DecidableEq, Repr

/-- A non-empty entry of the source table: its kind, configuration and state (10_state.md R24). -/
inductive Source where
  | dpin (cfg : DpinCfg) (st : DpinSt)
  | matrix (cfg : MatrixCfg) (st : MatrixSt)
  | shiftReg (cfg : ShiftRegCfg)
  | encoder (cfg : EncoderCfg) (st : EncoderSt)
  /-- `ext` is a value of `EXT_STATE[fn]`, held as a number (log 9). -/
  | opaqueExt (cfg : ExtCfg) (ext : Nat)
deriving DecidableEq, Repr

/-- The kind of a source (10_state.md R24). -/
inductive SourceKind where
  | dpin | matrix | shiftReg | encoder | ext
deriving DecidableEq, Repr

/-! ### Axes -/

/-- Configuration of an axis (10_state.md R40). -/
structure AxisCfg where
  channel : PinNumber
  inverted : Bool
deriving DecidableEq, Repr

/-- The calibration range of an axis (R41), raw samples in `0..RAW_MAX`. -/
structure AxisSt where
  min : Nat
  max : Nat
deriving DecidableEq, Repr

/-- A configured entry of the axis table (R25). -/
structure Axis where
  cfg : AxisCfg
  st : AxisSt
deriving DecidableEq, Repr

/-! ### Ports, trace and environment -/

/-- An event of the trace (00_scope.md R10, 10_state.md R27). -/
inductive PinEvent where
  | write (pin : PinNumber) (level : Level)
  | delay (t : Time)
deriving DecidableEq, Repr

/-- The input ports of an operation (00_scope.md R11) and the agent that issues it (R14). -/
structure Ports where
  agent : Agent
  prev : InputBitmap
  now : Time
  cal : Nat × Nat
  record : Record
deriving DecidableEq, Repr

/-- The result port (00_scope.md R11): nothing, a bitmap, AX_READ's pair or AX_GET_CAL's pair. -/
inductive Result where
  | none
  | bitmap (b : InputBitmap)
  | axisValue (value : Nat) (autocalibrated : Bool)
  | bounds (min max : Nat)
deriving DecidableEq, Repr

/-- Which outcome of 60_exceptions.md R260 the last operation had: the model's own record (log 3). -/
inductive OpOutcome where
  /-- No operation has been issued yet. -/
  | idle
  | completed
  /-- A CHAIN_READ has done a sub-read and has more to do (40_digital_sources.md R105). -/
  | reading
  | terminated (e : ConfigError)
  | refused (r : RefuseReason)
deriving DecidableEq, Repr

/-- A CHAIN_READ in progress (40_digital_sources.md R105): the slot the next sub-read takes, `acc`, and the `prev` and
`now` every sub-read sees. -/
structure ChainRead where
  next : Nat
  acc : InputBitmap
  prev : InputBitmap
  now : Time
deriving DecidableEq, Repr

/-- The environment's coming draws (00_scope.md R10), taken from the front in the order the operations draw them.
Where a list is used up, the value is free: a bodiless constant of Config at `count`, which then advances (log 2). -/
structure Draws where
  pins : List Level
  raws : List Nat
  exts : List Nat
  count : Nat
deriving DecidableEq, Repr

/-- An operation an agent issues: its descriptor and its ports. -/
structure Request where
  desc : Word
  ports : Ports
deriving DecidableEq, Repr

/-- One turn of the environment's schedule (log 1): an agent issues an operation, or POLL goes on with the CHAIN_READ
it is in. -/
inductive Turn where
  | op (r : Request)
  | advance
deriving DecidableEq, Repr

/-! ### State -/

/-- The block's state. `src` lists exactly the non-empty entries of the source table in chain order, so `nsrc` is its
length (10_state.md R24; log 14); `axisLeft` and `axisRight` are `axis[0]` and `axis[1]` (R25). -/
structure State where
  /-- The implementation's parameters: the model's field, written by no step (log 6). -/
  params : Params
  phase : Phase
  refused : Bool
  src : List Source
  axisLeft : Option Axis
  axisRight : Option Axis
  lastNow : Time
  trace : List PinEvent
  ports : Ports
  result : Result
  chain : Option ChainRead
  /-- The model's field: the environment's draws (log 2). -/
  draws : Draws
  /-- The model's field: the environment's schedule (log 1). -/
  inbox : List Turn
  /-- The model's field: the last operation's outcome (log 3). -/
  outcome : OpOutcome
deriving DecidableEq, Repr

/-- Ports before any operation. DESIGN CHOICE (log 22): the spec gives them no reset value. -/
def Ports.initial : Ports where
  agent := .setup
  prev := 0#64
  now := 0#64
  cal := (0, 0)
  record := []

/-- The reset state of a block with the given parameters (70_reset_and_hazards.md R290). -/
def State.resetWith (p : Params) : State where
  params := p
  phase := .setup
  refused := false
  src := []
  axisLeft := none
  axisRight := none
  lastNow := 0#64
  trace := []
  ports := Ports.initial
  result := .none
  chain := none
  draws := { pins := [], raws := [], exts := [], count := 0 }
  inbox := []
  outcome := .idle

/-- The machine right after power-on (R290), with the parameters' default values (log 6, log 7). -/
def State.reset : State := State.resetWith Params.default

end Sys2Proof.Machine
end

