-- ==== Sys2Proof/Machine/Ops.lean ====
section
/-! DEFINITION. The named operations every meaning is built from: reads and writes of the tables, the draws, the
three abnormal outcomes of 60_exceptions.md R260, and the check sequence of 30_encoding.md R87. -/

namespace Sys2Proof.Machine

/-! ### Tables -/

/-- `nsrc` (10_state.md R24). -/
abbrev State.nsrc (s : State) : Nat := s.src.length

/-- The kind of a source (R24). -/
def Source.kind : Source → SourceKind
  | .dpin _ _ => .dpin
  | .matrix _ _ => .matrix
  | .shiftReg _ => .shiftReg
  | .encoder _ _ => .encoder
  | .opaqueExt _ _ => .ext

/-- `src[u].kind`, none for an EMPTY slot. -/
def State.kindAt (s : State) (u : Nat) : Option SourceKind := (s.src[u]?).map Source.kind

/-- `src[u].st.irqEnabled` of an encoder (10_state.md R38); false for every other slot. -/
def State.irqEnabledAt (s : State) (u : Nat) : Bool :=
  match s.src[u]? with
  | some (.encoder _ st) => st.irqEnabled
  | _ => false

/-- `axis[a]` (10_state.md R25): none where it is UNCONFIGURED or `a` is not below `MAX_AXES = 2`. -/
def State.axisAt (s : State) (a : Nat) : Option Axis :=
  match a with
  | 0 => s.axisLeft
  | 1 => s.axisRight
  | _ => none

/-- `axis[a] <- x`. -/
def State.setAxis (s : State) (a : Nat) (x : Axis) : State :=
  match a with
  | 0 => { s with axisLeft := some x }
  | 1 => { s with axisRight := some x }
  | _ => s

/-- `src[u] <- x` for an existing slot. -/
def State.setSource (s : State) (u : Nat) (x : Source) : State := { s with src := s.src.set u x }

/-- `src[nsrc] <- x; nsrc <- nsrc + 1`. -/
def State.addSource (s : State) (x : Source) : State := { s with src := s.src ++ [x] }

/-- Record pin events at the end of the trace (10_state.md R27). -/
def State.record (s : State) (es : List PinEvent) : State := { s with trace := s.trace ++ es }

/-! ### Draws (00_scope.md R10; log 2) -/

/-- `PinRead(p)`: a level, and what is left to draw. Any value is possible, whatever the pin. -/
def Draws.pinRead (d : Draws) : Level × Draws :=
  match d.pins with
  | l :: ls => (l, { d with pins := ls })
  | [] => (Config.freeLevel d.count, { d with count := d.count + 1 })

/-- `AnalogRead(ch)`: a sample in `0..RAW_MAX` (42_analog_axis.md R200; log 18). -/
def Draws.analogRead (d : Draws) (rawMax : Nat) : Nat × Draws :=
  match d.raws with
  | v :: vs => (Nat.min v rawMax, { d with raws := vs })
  | [] => (Nat.min (Config.freeRaw d.count) rawMax, { d with count := d.count + 1 })

/-- The unconstrained input of an opaque source (40_digital_sources.md R140). -/
def Draws.extInput (d : Draws) : Nat × Draws :=
  match d.exts with
  | v :: vs => (v, { d with exts := vs })
  | [] => (Config.freeExtDraw d.count, { d with count := d.count + 1 })

/-- The unspecified slots of a new encoder (10_state.md R36; log 15). -/
def Draws.newSlots (d : Draws) : BitVec 64 × Draws :=
  (Config.freeSlots d.count, { d with count := d.count + 1 })

/-! ### Outcomes (60_exceptions.md R260) -/

/-- The codes of 60_exceptions.md R261. -/
def ConfigError.code : ConfigError → BitVec 8
  | .invalidPinCount => 0x01#8
  | .invalidArrayLength => 0x02#8
  | .duplicatePin => 0x03#8
  | .inputNumberOutOfRange => 0x04#8
  | .duplicateInputNumber => 0x05#8
  | .afterStart => 0x06#8

/-- An operation completes: its result is on the result port and `lastNow <- now` (30_encoding.md R87). -/
def complete (r : Result) (s : State) : State :=
  { s with lastNow := s.ports.now, result := r, outcome := .completed }

/-- `raise ConfigError(code)`: the block's one exception (60_exceptions.md R262, R269). It saves nothing, goes
nowhere and changes nothing but `phase`; there is no return from it. -/
def raiseConfigError (e : ConfigError) (s : State) : State :=
  { s with phase := .terminated e, result := .none, outcome := .terminated e }

/-- `refuse(reason)` (60_exceptions.md R268): the mark is set and nothing else happens. -/
def refuse (r : RefuseReason) (s : State) : State :=
  { s with refused := true, result := .none, outcome := .refused r }

/-- What the machine answers to an objection: no step, a terminated state or a refused state. -/
def answer (o : Objection) (s : State) : Host.Outcome State Fault Refusal :=
  match o with
  | .noStep f => .fault f
  | .raise e => .next (raiseConfigError e s)
  | .refuse r => .next (refuse r s)

/-! ### The checks before a rule runs (30_encoding.md R86, R87) -/

/-- The steps that do not exist whatever the descriptor: in TERMINATED (R262), and of an `ISR(u)` that has not joined
(60_exceptions.md R276, 95_test_vectors.md V-DE22; DEDUCED, log 5). -/
def agentNoStep (s : State) : Option Fault :=
  match s.phase with
  | .terminated _ => some .processTerminated
  | _ =>
    match s.ports.agent with
    | .isr u => if s.kindAt u = some .encoder then none else some .agentAbsent
    | _ => none

/-- The agent column of R86. AX_SET_CAL's depends on the phase (DEDUCED, log 16); ENC_EDGE's agent is the unit's own
handler (95_test_vectors.md V-DE10, V-DE11). -/
def agentAllowed (k : OpClass) (u : UnitIx) (ph : Phase) (a : Agent) : Bool :=
  match k with
  | .config | .start => a == .setup
  | .live => a == .poll
  | .query => a == .setup || a == .poll
  | .setCal =>
    match ph with
    | .setup => a == .setup
    | .running => a == .poll
    | .terminated _ => false
  | .edge => a == .isr u.toNat

/-- The phase columns of R86, in R87's order. -/
def phaseObjection (k : OpClass) (ph : Phase) : Option Objection :=
  match k, ph with
  | .config, .running => some (.raise .afterStart)
  | .start, .running => some (.refuse .badPhase)
  | .live, .setup => some (.refuse .notStarted)
  | _, _ => none

/-- R87's checks after decoding, the first that fails deciding; `unitLegal` is R84's condition for the operation. -/
def precheck (k : OpClass) (u : UnitIx) (unitLegal : Bool) (s : State) : Option Objection :=
  match agentNoStep s with
  | some f => some (.noStep f)
  | none =>
    if agentAllowed k u s.phase s.ports.agent = false then some (.refuse .wrongAgent)
    else
      match phaseObjection k s.phase with
      | some o => some o
      | none =>
        if unitLegal = false then some (.refuse .badUnit)
        else if k = .edge ∧ s.irqEnabledAt u.toNat = false then some (.noStep .interruptNotEnabled)
        else if s.ports.now < s.lastNow then some (.refuse .timeBackwards)
        else none

/-- Run an operation's rule if no check of R87 objects. -/
def checked (k : OpClass) (u : UnitIx) (unitLegal : Bool) (rule : State → Host.Outcome State Fault Refusal)
    (s : State) : Host.Outcome State Fault Refusal :=
  match precheck k u unitLegal s with
  | some o => answer o s
  | none => rule s

/-- The frame of a CFG rule: a record that fails validation answers its objection and changes nothing else, one that
passes is created and the operation completes with no result (43_configuration.md R230). -/
def registered {α : Type} (validated : Except Objection α) (create : α → State → State) (s : State) :
    Host.Outcome State Fault Refusal :=
  match validated with
  | .error o => answer o s
  | .ok c => .next (complete .none (create c s))

end Sys2Proof.Machine
end

