-- ==== Sys2Proof/Machine/Flags.lean ====
section
/-! DEFINITION. The flag-like values (10_state.md R42) and the comparisons the debouncers make. The block has no
carry, zero or overflow flag. -/

namespace Sys2Proof.Machine

/-- `pressed(level, active)` (40_digital_sources.md R107). -/
def pressed (level active : Level) : Bool := level == active

/-- `(now - since) mod 2^TIME_BITS < window` (00_scope.md R9). -/
def insideWindow (now since window : Time) : Bool := decide (now - since < window)

/-- The autocalibrated flag: the sample widens a bound (42_analog_axis.md R204). It is an output, not stored. -/
def autocalibrated (raw min max : Nat) : Bool := decide (raw < min) || decide (raw > max)

/-- Whether ENC_READ emits a press: a detent is queued and no release is pending (41_rotary_encoder.md R160). -/
def EncoderSt.emits (st : EncoderSt) : Bool := !st.pending && st.head != st.tail

end Sys2Proof.Machine
end

