-- ==== Sys2Proof/Machine/Operands.lean ====
section
/-! DEFINITION. The operand forms: the unit field against the tables (30_encoding.md R84), the fields of a
configuration record (30_encoding.md R82, 43_configuration.md R234) and the calibration port. -/

namespace Sys2Proof.Machine

/-! ### The unit field (30_encoding.md R84) -/

/-- Legal for CFG_DPIN, CFG_MATRIX, CFG_SHIFTREG, CFG_ENCODER and CFG_EXTSRC. -/
def unitIsNextSlot (s : State) (u : UnitIx) : Bool :=
  decide (u.toNat = s.nsrc) && decide (s.nsrc < s.params.maxSources)

/-- Legal for CFG_AXIS. -/
def unitIsFreeAxis (s : State) (u : UnitIx) : Bool := decide (u.toNat < 2) && (s.axisAt u.toNat).isNone

/-- Legal for START, CHAIN_READ and CHAIN_MASK. -/
def unitIsZero (u : UnitIx) : Bool := u == 0#8

/-- Legal for the operations on a source of the given kind; it implies that the unit is below `nsrc`. -/
def unitIsSource (s : State) (k : SourceKind) (u : UnitIx) : Bool := s.kindAt u.toNat == some k

/-- Legal for the operations on a configured axis. -/
def unitIsAxis (s : State) (u : UnitIx) : Bool := (s.axisAt u.toNat).isSome

/-! ### Record fields -/

/-- `pinValid(p)` (00_scope.md R6). -/
def pinAllowed (ps : PinSet) (p : PinNumber) : Bool :=
  match ps with
  | .allBut l => !l.contains p
  | .only l => l.contains p

/-- The field of that name, if the record has it. -/
def Record.get? (r : Record) (f : FieldName) : Option FieldValue := (r.find? (fun e => e.1 == f)).map Prod.snd

/-- A field that holds a number: a pin, a channel, an input number, a count or an index. -/
def Record.num? (r : Record) (f : FieldName) : Option Nat :=
  match r.get? f with
  | some (.num n) => some n
  | _ => none

/-- A field that holds a list of numbers. -/
def Record.list? (r : Record) (f : FieldName) : Option (List Nat) :=
  match r.get? f with
  | some (.list l) => some l
  | _ => none

/-- A Boolean field. -/
def Record.bool? (r : Record) (f : FieldName) : Option Bool :=
  match r.get? f with
  | some (.bool b) => some b
  | _ => none

/-- A Level field: 0 or 1, any other number being of the wrong type (10_state.md R28). -/
def Record.level? (r : Record) (f : FieldName) : Option Level :=
  match r.num? f with
  | some n => if n < 2 then some (BitVec.ofNat 1 n) else none
  | none => none

/-- A 64-bit field: a Time or an InputBitmap. -/
def Record.word? (r : Record) (f : FieldName) : Option (BitVec 64) :=
  match r.num? f with
  | some n => if n < 2 ^ 64 then some (BitVec.ofNat 64 n) else none
  | none => none

/-- `alternate`: false where the record leaves it out, as the records of 95_test_vectors.md V-CF16 and Program 1 do
(DEDUCED, log 13); none where it is of the wrong type. -/
def Record.alternate? (r : Record) : Option Bool :=
  match r.get? .alternate with
  | none => some false
  | some (.bool b) => some b
  | some _ => none

/-- `ccw`: the inner none where the record leaves it out (43_configuration.md R239); the outer none where it is of the
wrong type. -/
def Record.ccw? (r : Record) : Option (Option Nat) :=
  match r.get? .ccw with
  | none => some none
  | some (.num n) => some (some n)
  | some _ => none

/-- An input number in `0..63` (43_configuration.md R231). -/
def toInput (n : Nat) : Option InputNumber := if h : n < 64 then some ⟨n, h⟩ else none

/-- A map whose every entry is an input number in `0..63` (R231). -/
def toInputs : List Nat → Option (List InputNumber)
  | [] => some []
  | n :: ns =>
    match toInput n, toInputs ns with
    | some i, some is => some (i :: is)
    | _, _ => none

/-! ### Ranges -/

/-- `clamp(v, lo, hi)` (00_scope.md R9): of a sample in AX_READ's map, of the calibration port in AX_SET_CAL. -/
def clamp (v lo hi : Nat) : Nat := if v < lo then lo else if hi < v then hi else v

end Sys2Proof.Machine
end

