-- ==== Sys2Proof/Machine/Axis.lean ====
section
/-! DEFINITION. The analog axis unit (42_analog_axis.md). -/

namespace Sys2Proof.Machine

/-- `AXIS_MAX` (00_scope.md R6). -/
def axisMax : Nat := 254

/-- The sentinel extremes of R202. -/
def sentinels (p : Params) : AxisSt := { min := p.rawMax, max := 0 }

/-- Autocalibration: each bound widened to the sample if the sample lies outside it (R204). -/
def AxisSt.widen (st : AxisSt) (raw : Nat) : AxisSt :=
  { min := if raw < st.min then raw else st.min, max := if raw > st.max then raw else st.max }

/-- `MAP(raw, min, max, inverted)` (R203); a degenerate window gives 0 before inversion (the spec's decision D21;
log 21). -/
def axisMap (raw min max : Nat) (inverted : Bool) : Nat :=
  let v := if max > min then ((clamp raw min max - min) * axisMax) / (max - min) else 0
  if inverted then axisMax - v else v

/-- The rule of an operation on a configured axis. -/
def onAxis (u : UnitIx) (rule : Axis → State → Host.Outcome State Fault Refusal) (s : State) :
    Host.Outcome State Fault Refusal :=
  match s.axisAt u.toNat with
  | some x => rule x s
  | none => answer (.refuse .badUnit) s

/-- AX_READ (R204): the result is the mapped value and the autocalibrated flag. -/
def execAxRead (u : UnitIx) (s : State) : Host.Outcome State Fault Refusal :=
  checked .live u (unitIsAxis s u)
    (onAxis u fun x s =>
      let raw := s.draws.analogRead s.params.rawMax
      let st := x.st.widen raw.1
      .next (complete
        (.axisValue (axisMap raw.1 st.min st.max x.cfg.inverted) (autocalibrated raw.1 x.st.min x.st.max))
        { s.setAxis u.toNat { x with st := st } with draws := raw.2 }))
    s

/-- AX_RESET_CAL (R208): the bounds go back to the sentinels. -/
def execAxResetCal (u : UnitIx) (s : State) : Host.Outcome State Fault Refusal :=
  checked .live u (unitIsAxis s u)
    (onAxis u fun x s => .next (complete .none (s.setAxis u.toNat { x with st := sentinels s.params }))) s

/-- AX_SET_CAL (R210): the bounds of the calibration port, each clamped to `0..RAW_MAX`. -/
def execAxSetCal (u : UnitIx) (s : State) : Host.Outcome State Fault Refusal :=
  checked .setCal u (unitIsAxis s u)
    (onAxis u fun x s =>
      .next (complete .none
        (s.setAxis u.toNat
          { x with st := { min := clamp s.ports.cal.1 0 s.params.rawMax, max := clamp s.ports.cal.2 0 s.params.rawMax } })))
    s

/-- AX_GET_CAL (R212): the bounds on the result port. -/
def execAxGetCal (u : UnitIx) (s : State) : Host.Outcome State Fault Refusal :=
  checked .query u (unitIsAxis s u)
    (onAxis u fun x s => .next (complete (.bounds x.st.min x.st.max) s)) s

end Sys2Proof.Machine
end

