-- ==== Sys2Proof/Machine/Encoder.lean ====
section
/-! DEFINITION. The rotary encoder (41_rotary_encoder.md): sampling, the two decoders, the queue, ENC_EDGE's rule and
the read ENC_READ performs. -/

namespace Sys2Proof.Machine

/-! ### The queue -/

/-- The bit a slot stores for a direction: `CW = 1`, `CCW = 0` (10_state.md R36). -/
def dirBit (d : Dir) : Bool :=
  match d with
  | .cw => true
  | .ccw => false

/-- The direction in slot `k`, kept at bit `k` of the slots' word (20_memory.md R62). -/
def slotAt (slots : BitVec 64) (k : BitVec 6) : Dir := if slots.getLsbD k.toNat then .cw else .ccw

/-- `slots[k] <- d`. -/
def slotWrite (slots : BitVec 64) (k : BitVec 6) (d : Dir) : BitVec 64 :=
  if dirBit d then slots ||| (1#64 <<< k.toNat) else slots &&& ~~~(1#64 <<< k.toNat)

/-- `Push(d)` (R157): a full queue drops the new detent. The six-bit index wraps modulo 64. -/
def push (d : Dir) (st : EncoderSt) : EncoderSt :=
  if st.tail + 1#6 = st.head then st
  else { st with slots := slotWrite st.slots st.tail d, tail := st.tail + 1#6 }

/-- `Pop()` (R158): the slot at `head`, and the state with `head` advanced. -/
def pop (st : EncoderSt) : Dir × EncoderSt := (slotAt st.slots st.head, { st with head := st.head + 1#6 })

/-! ### Sampling and decoding -/

/-- `SAMPLE(u)` (R151): line A (clk) is drawn first and is bit 0, line B (dt) is bit 1. -/
def sample (d : Draws) : BitVec 2 × Draws := (d.pinRead.2.pinRead.1 ++ d.pinRead.1, d.pinRead.2.pinRead.2)

/-- `VALID[code]` (R152). -/
def validCode (p : Params) (code : BitVec 4) : Bool := p.valid[code.toNat]'(code.isLt)

/-- `DECODE_STD(u, ab)` (R154). -/
def decodeStd (p : Params) (ab : BitVec 2) (st : EncoderSt) : EncoderSt :=
  let code := (st.code <<< 2) ||| ab.setWidth 4
  if validCode p code then
    let seq := (st.seq <<< 4) ||| code.setWidth 8
    let st' := { st with code := code, seq := seq }
    if seq = p.detentCw then push .cw st'
    else if seq = p.detentCcw then push .ccw st'
    else st'
  else { st with code := code }

/-- `ALT_EMIT(key)` (R155), none where it is not defined. -/
def altEmits (p : Params) (key : BitVec 8) : Option Dir := (p.altEmit.find? (fun e => e.1 == key)).map Prod.snd

/-- `DECODE_ALT(u, ab)` (R155). -/
def decodeAlt (p : Params) (ab : BitVec 2) (st : EncoderSt) : EncoderSt :=
  let nxt := (st.alt <<< 2) ||| ab.setWidth 4
  let key := st.alt ++ nxt
  let st' :=
    if key ∈ p.altValid then
      match altEmits p key with
      | some d => push d st
      | none => st
    else st
  { st' with alt := nxt }

/-- One decode pass in the encoder's encoding (R150, R153). -/
def decodeSample (p : Params) (cfg : EncoderCfg) (ab : BitVec 2) (st : EncoderSt) : EncoderSt :=
  if cfg.alternate then decodeAlt p ab st else decodeStd p ab st

/-- The alternate tables are well formed: exactly eight valid keys, exactly four emitting ones, all of them valid
(R155). -/
abbrev AltWellFormed (p : Params) : Prop :=
  p.altValid.Nodup ∧ p.altValid.length = 8 ∧ (p.altEmit.map Prod.fst).Nodup ∧ p.altEmit.length = 4 ∧
    ∀ e ∈ p.altEmit, e.1 ∈ p.altValid

/-! ### Operations -/

/-- ENC_EDGE (R153): sample, decode, push; no result. -/
def execEncEdge (u : UnitIx) (s : State) : Host.Outcome State Fault Refusal :=
  checked .edge u (unitIsSource s .encoder u)
    (fun s =>
      match s.src[u.toNat]? with
      | some (.encoder cfg st) =>
        let ab := sample s.draws
        .next (complete .none
          { s.setSource u.toNat (.encoder cfg (decodeSample s.params cfg ab.1 st)) with draws := ab.2 })
      | _ => answer (.refuse .badUnit) s)
    s

/-- The press bit of a direction (R160). -/
def pressBit (cfg : EncoderCfg) (d : Dir) : InputBitmap :=
  match d with
  | .cw => inputBit cfg.cw
  | .ccw => inputBit cfg.ccw

/-- ENC_READ's rule (R160): emit a queued detent and set `pending`; else clear `pending`. -/
def readEncoder (cfg : EncoderCfg) (st : EncoderSt) : InputBitmap × EncoderSt :=
  if st.emits then (pressBit cfg (pop st).1, { (pop st).2 with pending := true })
  else if st.pending then (0#64, { st with pending := false })
  else (0#64, st)

end Sys2Proof.Machine
end

