-- ==== Sys2Proof/Machine/DigitalSources.lean ====
section
/-! DEFINITION. The source contract and the reads of the digital sources (40_digital_sources.md): direct pin, button
matrix, shift register, opaque source, and with them the encoder's read. -/

namespace Sys2Proof.Machine

/-- What one atomic read of a source does: the source after it, the bits it returns, the pin events it records and
what is left to draw. -/
structure UnitRead where
  source : Source
  bits : InputBitmap
  events : List PinEvent
  draws : Draws
deriving DecidableEq, Repr

/-! ### Direct pin (R108) -/

/-- The state after a sample `raw` at `now` (R108's first branch). -/
def dpinSampled (st : DpinSt) (raw : Bool) (now : Time) : DpinSt :=
  if raw = st.lastRaw then st else { lastRaw := raw, lastChange := now }

/-- The reported bit: the sample once it has been stable for a full window, else the bit of `prev` (R108). -/
def dpinReported (cfg : DpinCfg) (st : DpinSt) (raw : Bool) (prev : InputBitmap) (now : Time) : Bool :=
  if insideWindow now (dpinSampled st raw now).lastChange cfg.window then prev.getLsbD cfg.input else raw

/-- DPIN_READ's rule (R108). -/
def readDpin (cfg : DpinCfg) (st : DpinSt) (prev : InputBitmap) (now : Time) (d : Draws) : UnitRead :=
  let raw := pressed d.pinRead.1 cfg.activeLevel
  { source := .dpin cfg (dpinSampled st raw now)
    bits := if dpinReported cfg st raw prev now then inputBit cfg.input else 0#64
    events := []
    draws := d.pinRead.2 }

/-! ### Button matrix (R115) -/

/-- `S`, the number of selector lines (10_state.md R30). -/
def MatrixCfg.selectors (cfg : MatrixCfg) : Nat := cfg.selPins.length

/-- `I`, the number of input lines (R30). -/
def MatrixCfg.inputs (cfg : MatrixCfg) : Nat := cfg.inPins.length

/-- What a scan carries from cell to cell. -/
structure Scan where
  out : InputBitmap
  lastActive : List Time
  draws : Draws
deriving DecidableEq, Repr

/-- One cell of the scan (R115): closed, it is stamped and reported; open, it is held while `prev` has its bit and its
stamp is inside the window. A cell that `map` does not cover does not exist (43_configuration.md R237). -/
def scanCell (cfg : MatrixCfg) (prev : InputBitmap) (now : Time) (c : Nat) (a : Scan) : Scan :=
  match cfg.map[c]? with
  | none => a
  | some n =>
    if pressed a.draws.pinRead.1 cfg.inActive then
      { out := a.out ||| inputBit n, lastActive := a.lastActive.set c now, draws := a.draws.pinRead.2 }
    else if prev.getLsbD n && insideWindow now (a.lastActive.getD c 0#64) cfg.window then
      { a with out := a.out ||| inputBit n, draws := a.draws.pinRead.2 }
    else { a with draws := a.draws.pinRead.2 }

/-- The input lines of selector `s`, in increasing index (20_memory.md R61). -/
def scanSelector (cfg : MatrixCfg) (prev : InputBitmap) (now : Time) (a : Scan) (s : Nat) : Scan :=
  (List.range cfg.inputs).foldl (fun a j => scanCell cfg prev now (s * cfg.inputs + j) a) a

/-- All selectors, in increasing index (R61). -/
def scanMatrix (cfg : MatrixCfg) (prev : InputBitmap) (now : Time) (a : Scan) : Scan :=
  (List.range cfg.selectors).foldl (scanSelector cfg prev now) a

/-- The events of one selector: driven active, settle, driven inactive, settle (R115). The samples between them are
not recorded (10_state.md R27). -/
def selectorEvents (cfg : MatrixCfg) (pin : PinNumber) : List PinEvent :=
  [.write pin cfg.selActive, .delay cfg.settle, .write pin (~~~cfg.selActive), .delay cfg.settle]

/-- MTX_SCAN's rule (R115). -/
def readMatrix (cfg : MatrixCfg) (st : MatrixSt) (prev : InputBitmap) (now : Time) (d : Draws) : UnitRead :=
  let a := scanMatrix cfg prev now { out := 0#64, lastActive := st.lastActive, draws := d }
  { source := .matrix cfg { lastActive := a.lastActive }
    bits := a.out
    events := cfg.selPins.flatMap (selectorEvents cfg)
    draws := a.draws }

/-! ### Shift register (R125) -/

/-- A pulse on an output: active, wait, inactive, wait (R125). -/
def pulseEvents (pin : PinNumber) (active : Level) (width : Time) : List PinEvent :=
  [.write pin active, .delay width, .write pin (~~~active), .delay width]

/-- One serial position: the data line is sampled before the position's clock pulse (R125, 20_memory.md R61). -/
def shiftPosition (cfg : ShiftRegCfg) (a : InputBitmap × Draws) (i : Nat) : InputBitmap × Draws :=
  match cfg.map[i]? with
  | none => a
  | some n =>
    (if pressed a.2.pinRead.1 cfg.dataActive then a.1 ||| inputBit n else a.1, a.2.pinRead.2)

/-- SR_READ's rule (R125); a shift register has no state (10_state.md R33). -/
def readShiftReg (cfg : ShiftRegCfg) (d : Draws) : UnitRead :=
  let a := (List.range cfg.n).foldl (shiftPosition cfg) (0#64, d)
  { source := .shiftReg cfg
    bits := a.1
    events := pulseEvents cfg.loadPin cfg.loadActive cfg.pulse ++
      (List.range cfg.n).flatMap (fun _ => pulseEvents cfg.clkPin cfg.clkActive cfg.pulse)
    draws := a.2 }

/-! ### Opaque source (R140, R141) -/

/-- `EXT_READ_FN[fn](ext, prev, now, draw)` (R140): a parameter, with zeros for the inputs of failed bus transactions
(R141; log 9). -/
def extReadFn (fn ext : Nat) (prev : InputBitmap) (now : Time) (draw : Nat) : InputBitmap × Nat :=
  (Config.extBits fn ext prev now draw &&& ~~~Config.extFailedInputs fn ext prev now draw,
    Config.extNext fn ext prev now draw)

/-- EXT_READ's rule (R140). -/
def readExt (cfg : ExtCfg) (ext : Nat) (prev : InputBitmap) (now : Time) (d : Draws) : UnitRead :=
  let r := extReadFn cfg.fn ext prev now d.extInput.1
  { source := .opaqueExt cfg r.2
    bits := r.1 &&& cfg.mask
    events := []
    draws := d.extInput.2 }

/-! ### One atomic read of any source (R100, R105) -/

/-- `READ(k, prev, now)` (R105): the read rule of the source's kind. -/
def readSource (x : Source) (prev : InputBitmap) (now : Time) (d : Draws) : UnitRead :=
  match x with
  | .dpin cfg st => readDpin cfg st prev now d
  | .matrix cfg st => readMatrix cfg st prev now d
  | .shiftReg cfg => readShiftReg cfg d
  | .encoder cfg st =>
    { source := .encoder cfg (readEncoder cfg st).2, bits := (readEncoder cfg st).1, events := [], draws := d }
  | .opaqueExt cfg ext => readExt cfg ext prev now d

/-- The effect of one read of source `u` on the state. -/
def State.commitRead (s : State) (u : Nat) (r : UnitRead) : State :=
  { (s.setSource u r.source).record r.events with draws := r.draws }

/-- The rule of a single-source read: read source `u`, give its bits on the result port. -/
def runRead (u : UnitIx) (s : State) : Host.Outcome State Fault Refusal :=
  match s.src[u.toNat]? with
  | some x =>
    let r := readSource x s.ports.prev s.ports.now s.draws
    .next (complete (.bitmap r.bits) (s.commitRead u.toNat r))
  | none => answer (.refuse .badUnit) s

/-- DPIN_READ (R108). -/
def execDpinRead (u : UnitIx) (s : State) : Host.Outcome State Fault Refusal :=
  checked .live u (unitIsSource s .dpin u) (runRead u) s

/-- MTX_SCAN (R115). -/
def execMtxScan (u : UnitIx) (s : State) : Host.Outcome State Fault Refusal :=
  checked .live u (unitIsSource s .matrix u) (runRead u) s

/-- SR_READ (R125). -/
def execSrRead (u : UnitIx) (s : State) : Host.Outcome State Fault Refusal :=
  checked .live u (unitIsSource s .shiftReg u) (runRead u) s

/-- ENC_READ (41_rotary_encoder.md R160). -/
def execEncRead (u : UnitIx) (s : State) : Host.Outcome State Fault Refusal :=
  checked .live u (unitIsSource s .encoder u) (runRead u) s

/-- EXT_READ (R140). -/
def execExtRead (u : UnitIx) (s : State) : Host.Outcome State Fault Refusal :=
  checked .live u (unitIsSource s .ext u) (runRead u) s

end Sys2Proof.Machine
end

