-- ==== Sys2Proof/Machine/Chain.lean ====
section
/-! DEFINITION. The chain (40_digital_sources.md R101 to R106): claims, CHAIN_MASK, and CHAIN_READ as a sequence of
atomic sub-reads (20_memory.md R68). -/

namespace Sys2Proof.Machine

/-- The OR of the bits of a list of input numbers. -/
def inputBits (ns : List InputNumber) : InputBitmap := ns.foldr (fun n b => inputBit n ||| b) 0#64

/-- `claim(k)` (R101). -/
def Source.claim : Source → InputBitmap
  | .dpin cfg _ => inputBit cfg.input
  | .matrix cfg _ => inputBits cfg.map
  | .shiftReg cfg => inputBits cfg.map
  | .encoder cfg _ => inputBit cfg.cw ||| inputBit cfg.ccw
  | .opaqueExt cfg _ => cfg.mask

/-- The chain mask: the OR of every source's claim (R106). -/
def State.chainMask (s : State) : InputBitmap := s.src.foldr (fun x b => x.claim ||| b) 0#64

/-- CHAIN_MASK (R106). -/
def execChainMask (u : UnitIx) (s : State) : Host.Outcome State Fault Refusal :=
  checked .query u (unitIsZero u) (fun s => .next (complete (.bitmap s.chainMask) s)) s

/-- CHAIN_READ returns `acc`. An interrupt between its sub-reads may have moved `lastNow` past its own `now`;
`lastNow` stays the largest (10_state.md R26; DEDUCED, log 11). -/
def chainFinish (c : ChainRead) (s : State) : State :=
  { s with
    chain := none
    lastNow := if s.lastNow < c.now then c.now else s.lastNow
    result := .bitmap c.acc
    outcome := .completed }

/-- POLL's next atomic step in a CHAIN_READ (R105): one sub-read; after the last one the operation returns. -/
def chainAdvance (c : ChainRead) (s : State) : State :=
  match s.src[c.next]? with
  | none => chainFinish c s
  | some x =>
    let r := readSource x c.prev c.now s.draws
    let s' := s.commitRead c.next r
    let c' := { c with next := c.next + 1, acc := c.acc ||| r.bits }
    if c.next + 1 < s.nsrc then { s' with chain := some c', result := .none, outcome := .reading }
    else chainFinish c' s'

/-- CHAIN_READ (R105): the checks and the first sub-read are one step; `step` runs the other sub-reads (log 10). -/
def execChainRead (u : UnitIx) (s : State) : Host.Outcome State Fault Refusal :=
  checked .live u (unitIsZero u)
    (fun s => .next (chainAdvance { next := 0, acc := 0#64, prev := s.ports.prev, now := s.ports.now } s)) s

end Sys2Proof.Machine
end

