-- ==== Sys2Proof/Machine/Configuration.lean ====
section
/-! DEFINITION. Configuration and start (43_configuration.md): the validation of each record in the order of R235, the
six registration operations and START. -/

namespace Sys2Proof.Machine

/-! ### Validation steps (R230 to R235) -/

/-- A validation either objects or gives the checked configuration. -/
abbrev Validated (α : Type) := Except Objection α

/-- Object unless the condition holds. -/
def demand (ok : Bool) (o : Objection) : Validated Unit := if ok then .ok () else .error o

/-- The value, or the objection where there is none. -/
def present {α : Type} (v : Option α) (o : Objection) : Validated α :=
  match v with
  | some a => .ok a
  | none => .error o

/-- R234, first check: every pin or channel the record names is valid. -/
def pinsValid (p : Params) (pins : List PinNumber) : Validated Unit :=
  demand (pins.all (pinAllowed p.pins)) (.refuse .badPin)

/-- R234, second check: the record has every field its kind requires, each of its type. -/
def fieldsPresent {α : Type} (v : Option α) : Validated α := present v (.refuse .badParam)

/-- R231 for one number. -/
def inRange (n : Nat) : Validated InputNumber := present (toInput n) (.raise .inputNumberOutOfRange)

/-- R231 for a map. -/
def allInRange (ns : List Nat) : Validated (List InputNumber) := present (toInputs ns) (.raise .inputNumberOutOfRange)

/-- R232: the numbers one record maps to are pairwise distinct. -/
def allDistinct (ns : List InputNumber) : Validated Unit := demand (decide ns.Nodup) (.raise .duplicateInputNumber)

/-- R233: a pin list's length is within its range. -/
def pinCount (ok : Bool) : Validated Unit := demand ok (.raise .invalidPinCount)

/-- R233: a map's length matches and a bit count is within its range. -/
def arrayLength (ok : Bool) : Validated Unit := demand ok (.raise .invalidArrayLength)

/-! ### CFG_DPIN (R236) -/

/-- The record of a direct pin, its input number not yet checked. -/
structure DpinRec where
  pin : PinNumber
  input : Nat
  activeLevel : Level
  window : Time
deriving DecidableEq, Repr

/-- The fields of R28. -/
def dpinRecord (r : Record) : Option DpinRec := do
  let pin ← r.num? .pin
  let input ← r.num? .input
  let activeLevel ← r.level? .activeLevel
  let window ← r.word? .window
  return { pin, input, activeLevel, window }

/-- R236's checks. -/
def validateDpin (p : Params) (r : Record) : Validated DpinCfg := do
  pinsValid p (r.num? .pin).toList
  let c ← fieldsPresent (dpinRecord r)
  let input ← inRange c.input
  return { pin := c.pin, input := input, activeLevel := c.activeLevel, window := c.window }

/-- A new direct-pin source (R236, R291). -/
def newDpin (cfg : DpinCfg) : Source := .dpin cfg { lastRaw := false, lastChange := 0#64 }

/-- CFG_DPIN (R236). -/
def execCfgDpin (u : UnitIx) (s : State) : Host.Outcome State Fault Refusal :=
  checked .config u (unitIsNextSlot s u)
    (fun s => registered (validateDpin s.params s.ports.record) (fun cfg s => s.addSource (newDpin cfg)) s) s

/-! ### CFG_MATRIX (R237) -/

/-- The record of a matrix, its lengths and numbers not yet checked. -/
structure MatrixRec where
  selPins : List PinNumber
  inPins : List PinNumber
  map : List Nat
  selActive : Level
  inActive : Level
  window : Time
  settle : Time
deriving DecidableEq, Repr

/-- The fields of R30. -/
def matrixRecord (r : Record) : Option MatrixRec := do
  let selPins ← r.list? .selPins
  let inPins ← r.list? .inPins
  let map ← r.list? .map
  let selActive ← r.level? .selActive
  let inActive ← r.level? .inActive
  let window ← r.word? .window
  let settle ← r.word? .settle
  return { selPins, inPins, map, selActive, inActive, window, settle }

/-- R237's checks. -/
def validateMatrix (p : Params) (r : Record) : Validated MatrixCfg := do
  pinsValid p ((r.list? .selPins).getD [] ++ (r.list? .inPins).getD [])
  let c ← fieldsPresent (matrixRecord r)
  pinCount (decide (1 ≤ c.selPins.length ∧ c.selPins.length ≤ p.maxSelectors ∧
    1 ≤ c.inPins.length ∧ c.inPins.length ≤ p.maxMatrixInputs))
  arrayLength (decide (c.map.length = c.selPins.length * c.inPins.length))
  let map ← allInRange c.map
  allDistinct map
  return {
    selPins := c.selPins, inPins := c.inPins, map := map, selActive := c.selActive, inActive := c.inActive,
    window := c.window, settle := c.settle }

/-- A new matrix source: every timestamp 0 (R237, R291). -/
def newMatrix (cfg : MatrixCfg) : Source :=
  .matrix cfg { lastActive := List.replicate (cfg.selectors * cfg.inputs) 0#64 }

/-- Every selector starts inactive (R237). -/
def matrixIdleEvents (cfg : MatrixCfg) : List PinEvent := cfg.selPins.map (fun p => .write p (~~~cfg.selActive))

/-- CFG_MATRIX (R237). -/
def execCfgMatrix (u : UnitIx) (s : State) : Host.Outcome State Fault Refusal :=
  checked .config u (unitIsNextSlot s u)
    (fun s => registered (validateMatrix s.params s.ports.record)
      (fun cfg s => (s.addSource (newMatrix cfg)).record (matrixIdleEvents cfg)) s) s

/-! ### CFG_SHIFTREG (R238) -/

/-- The record of a shift register, its lengths and numbers not yet checked. -/
structure ShiftRegRec where
  loadPin : PinNumber
  clkPin : PinNumber
  dataPin : PinNumber
  n : Nat
  map : List Nat
  loadActive : Level
  clkActive : Level
  dataActive : Level
  pulse : Time
deriving DecidableEq, Repr

/-- The fields of R32. -/
def shiftRegRecord (r : Record) : Option ShiftRegRec := do
  let loadPin ← r.num? .loadPin
  let clkPin ← r.num? .clkPin
  let dataPin ← r.num? .dataPin
  let n ← r.num? .n
  let map ← r.list? .map
  let loadActive ← r.level? .loadActive
  let clkActive ← r.level? .clkActive
  let dataActive ← r.level? .dataActive
  let pulse ← r.word? .pulse
  return { loadPin, clkPin, dataPin, n, map, loadActive, clkActive, dataActive, pulse }

/-- R238's checks. -/
def validateShiftReg (p : Params) (r : Record) : Validated ShiftRegCfg := do
  pinsValid p ((r.num? .loadPin).toList ++ (r.num? .clkPin).toList ++ (r.num? .dataPin).toList)
  let c ← fieldsPresent (shiftRegRecord r)
  arrayLength (decide (1 ≤ c.n ∧ c.n ≤ p.maxSrBits ∧ c.map.length = c.n))
  let map ← allInRange c.map
  allDistinct map
  return {
    loadPin := c.loadPin, clkPin := c.clkPin, dataPin := c.dataPin, n := c.n, map := map,
    loadActive := c.loadActive, clkActive := c.clkActive, dataActive := c.dataActive, pulse := c.pulse }

/-- The load and clock pins start at their idle levels (R238). -/
def shiftRegIdleEvents (cfg : ShiftRegCfg) : List PinEvent :=
  [.write cfg.loadPin (~~~cfg.loadActive), .write cfg.clkPin (~~~cfg.clkActive)]

/-- CFG_SHIFTREG (R238). -/
def execCfgShiftreg (u : UnitIx) (s : State) : Host.Outcome State Fault Refusal :=
  checked .config u (unitIsNextSlot s u)
    (fun s => registered (validateShiftReg s.params s.ports.record)
      (fun cfg s => (s.addSource (.shiftReg cfg)).record (shiftRegIdleEvents cfg)) s) s

/-! ### CFG_ENCODER (R239) -/

/-- The record of an encoder, its pins and numbers not yet checked; `ccw` may be absent. -/
structure EncoderRec where
  clkPin : PinNumber
  dtPin : PinNumber
  cw : Nat
  ccw : Option Nat
  alternate : Bool
deriving DecidableEq, Repr

/-- The fields of R34. -/
def encoderRecord (r : Record) : Option EncoderRec := do
  let clkPin ← r.num? .clkPin
  let dtPin ← r.num? .dtPin
  let cw ← r.num? .cw
  let ccw ← r.ccw?
  let alternate ← r.alternate?
  return { clkPin, dtPin, cw, ccw, alternate }

/-- R239's checks, an absent `ccw` standing for `cw + 1`. -/
def validateEncoder (p : Params) (r : Record) : Validated EncoderCfg := do
  pinsValid p ((r.num? .clkPin).toList ++ (r.num? .dtPin).toList)
  let c ← fieldsPresent (encoderRecord r)
  demand (!c.alternate || decide (AltWellFormed p)) (.refuse .badParam)
  demand (c.clkPin != c.dtPin) (.raise .duplicatePin)
  let cw ← inRange c.cw
  let ccw ← inRange (c.ccw.getD (c.cw + 1))
  allDistinct [cw, ccw]
  return { clkPin := c.clkPin, dtPin := c.dtPin, cw := cw, ccw := ccw, alternate := c.alternate }

/-- An encoder's state before the priming pass (R239, R291); the slots are unspecified. -/
def newEncoderSt (slots : BitVec 64) : EncoderSt where
  code := 0#4
  seq := 0#8
  alt := 0#4
  slots := slots
  head := 0#6
  tail := 0#6
  pending := false
  irqEnabled := false

/-- The encoder's state after the priming pass, a full decode of one sample, and with its interrupt enabled
(41_rotary_encoder.md R163). -/
def primedEncoderSt (p : Params) (cfg : EncoderCfg) (slots : BitVec 64) (ab : BitVec 2) : EncoderSt :=
  { decodeSample p cfg ab (newEncoderSt slots) with irqEnabled := true }

/-- The effect of a registration that passed: create, prime, enable (R239). -/
def createEncoder (cfg : EncoderCfg) (s : State) : State :=
  let slots := s.draws.newSlots
  let ab := sample slots.2
  { s.addSource (.encoder cfg (primedEncoderSt s.params cfg slots.1 ab.1)) with draws := ab.2 }

/-- CFG_ENCODER (R239). -/
def execCfgEncoder (u : UnitIx) (s : State) : Host.Outcome State Fault Refusal :=
  checked .config u (unitIsNextSlot s u)
    (fun s => registered (validateEncoder s.params s.ports.record) createEncoder s) s

/-! ### CFG_EXTSRC (R240) -/

/-- The fields of R39. -/
def extRecord (r : Record) : Option ExtCfg := do
  let mask ← r.word? .mask
  let fn ← r.num? .fn
  return { mask, fn }

/-- R240's check: `fn` names a function of the family. -/
def validateExt (p : Params) (r : Record) : Validated ExtCfg := do
  let c ← fieldsPresent (extRecord r)
  demand (decide (c.fn < p.extFns)) (.refuse .badParam)
  return c

/-- CFG_EXTSRC (R240). -/
def execCfgExtsrc (u : UnitIx) (s : State) : Host.Outcome State Fault Refusal :=
  checked .config u (unitIsNextSlot s u)
    (fun s => registered (validateExt s.params s.ports.record)
      (fun cfg s => s.addSource (.opaqueExt cfg (Config.extInit cfg.fn))) s) s

/-! ### CFG_AXIS (R241) -/

/-- The fields of R40. -/
def axisRecord (r : Record) : Option AxisCfg := do
  let channel ← r.num? .channel
  let inverted ← r.bool? .inverted
  return { channel, inverted }

/-- R241's check. -/
def validateAxis (p : Params) (r : Record) : Validated AxisCfg := do
  pinsValid p (r.num? .channel).toList
  fieldsPresent (axisRecord r)

/-- CFG_AXIS (R241): the new axis has the sentinel extremes. -/
def execCfgAxis (u : UnitIx) (s : State) : Host.Outcome State Fault Refusal :=
  checked .config u (unitIsFreeAxis s u)
    (fun s => registered (validateAxis s.params s.ports.record)
      (fun cfg s => s.setAxis u.toNat { cfg := cfg, st := sentinels s.params }) s) s

/-! ### START (R245) -/

/-- START: the phase becomes RUNNING. -/
def execStart (u : UnitIx) (s : State) : Host.Outcome State Fault Refusal :=
  checked .start u (unitIsZero u) (fun s => .next (complete .none { s with phase := .running })) s

end Sys2Proof.Machine
end

