-- ==== Sys2Proof/Machine/Dispatch.lean ====
section
/-! DEFINITION. Every operation of the table and its meaning. -/

namespace Sys2Proof.Machine

def exec (i : Instr) (s : State) : Host.Outcome State Fault Refusal :=
  match i with
  | .cfgDpin u => Sys2Proof.Machine.execCfgDpin u s
  | .cfgMatrix u => Sys2Proof.Machine.execCfgMatrix u s
  | .cfgShiftreg u => Sys2Proof.Machine.execCfgShiftreg u s
  | .cfgEncoder u => Sys2Proof.Machine.execCfgEncoder u s
  | .cfgExtsrc u => Sys2Proof.Machine.execCfgExtsrc u s
  | .cfgAxis u => Sys2Proof.Machine.execCfgAxis u s
  | .start u => Sys2Proof.Machine.execStart u s
  | .dpinRead u => Sys2Proof.Machine.execDpinRead u s
  | .mtxScan u => Sys2Proof.Machine.execMtxScan u s
  | .srRead u => Sys2Proof.Machine.execSrRead u s
  | .encRead u => Sys2Proof.Machine.execEncRead u s
  | .extRead u => Sys2Proof.Machine.execExtRead u s
  | .chainRead u => Sys2Proof.Machine.execChainRead u s
  | .chainMask u => Sys2Proof.Machine.execChainMask u s
  | .encEdge u => Sys2Proof.Machine.execEncEdge u s
  | .axRead u => Sys2Proof.Machine.execAxRead u s
  | .axResetCal u => Sys2Proof.Machine.execAxResetCal u s
  | .axSetCal u => Sys2Proof.Machine.execAxSetCal u s
  | .axGetCal u => Sys2Proof.Machine.execAxGetCal u s

end Sys2Proof.Machine
end

