-- ==== Sys2Proof/Machine/Fetch.lean ====
section
/-! DEFINITION. How the next operation is found: the environment's schedule (10_state.md R20, 20_memory.md R68; log 1,
log 10), decoding, and the request that stands for a table word. -/

namespace Sys2Proof.Machine

/-- The refusal of a descriptor that spells no operation (30_encoding.md R85). -/
def decodeRefusal : DecodeError → RefuseReason
  | .illegalOpcode => .illegalOpcode
  | .reservedBits => .reservedBits

/-- An agent issues an operation (30_encoding.md R87): its ports are presented, a step that does not exist is none
whatever the descriptor, and a descriptor that spells no operation is refused. -/
def issue (r : Request) (s : State) : Host.Outcome State Fault Refusal :=
  let s := { s with ports := r.ports }
  match agentNoStep s with
  | some f => .fault f
  | none =>
    match decode r.desc with
    | .error e => .next (refuse (decodeRefusal e) s)
    | .ok i => exec i s

/-- The next turn. In TERMINATED there is none (60_exceptions.md R262). While POLL is in a CHAIN_READ, `advance`, an
operation of POLL's own and an empty schedule all mean POLL's next sub-read; an operation of another agent comes
between the sub-reads (40_digital_sources.md R105, 60_exceptions.md R272). Where nobody has a turn the block idles
(log 23). -/
def nextTurn (s : State) : Host.Outcome State Fault Refusal :=
  match s.phase with
  | .terminated _ => .fault .processTerminated
  | _ =>
    match s.chain, s.inbox with
    | none, [] => .next s
    | none, .advance :: rest => .next { s with inbox := rest }
    | none, .op r :: rest => issue r { s with inbox := rest }
    | some c, [] => .next (chainAdvance c s)
    | some c, .advance :: rest => .next (chainAdvance c { s with inbox := rest })
    | some c, .op r :: rest =>
      if r.ports.agent = .poll then .next (chainAdvance c s) else issue r { s with inbox := rest }

/-! ### The request that stands for a table word -/

/-- An agent the legality table lists for the operation in the present phase (30_encoding.md R86). -/
def issuerOf (ph : Phase) : Instr → Agent
  | .cfgDpin _ | .cfgMatrix _ | .cfgShiftreg _ | .cfgEncoder _ | .cfgExtsrc _ | .cfgAxis _ | .start _
  | .chainMask _ | .axGetCal _ => .setup
  | .dpinRead _ | .mtxScan _ | .srRead _ | .encRead _ | .extRead _ | .chainRead _ | .axRead _ | .axResetCal _ => .poll
  | .axSetCal _ => if ph = .running then .poll else .setup
  | .encEdge u => .isr u.toNat

/-- A record of the kind a CFG operation takes: the examples of 43_configuration.md R236 to R241. -/
def exampleRecord : Instr → Record
  | .cfgDpin _ => [(.pin, .num 13), (.input, .num 3), (.activeLevel, .num 0), (.window, .num 5)]
  | .cfgMatrix _ =>
    [(.selPins, .list [1, 2]), (.inPins, .list [3, 4]), (.map, .list [0, 1, 2, 3]), (.selActive, .num 0),
      (.inActive, .num 0), (.window, .num 4), (.settle, .num 1)]
  | .cfgShiftreg _ =>
    [(.loadPin, .num 20), (.clkPin, .num 21), (.dataPin, .num 22), (.n, .num 8),
      (.map, .list [8, 9, 10, 11, 12, 13, 14, 15]), (.loadActive, .num 0), (.clkActive, .num 1),
      (.dataActive, .num 1), (.pulse, .num 1)]
  | .cfgEncoder _ => [(.clkPin, .num 4), (.dtPin, .num 5), (.cw, .num 10), (.alternate, .bool false)]
  | .cfgExtsrc _ => [(.mask, .num 0xFF0000), (.fn, .num 0)]
  | .cfgAxis _ => [(.channel, .num 34), (.inverted, .bool true)]
  | .start _ | .dpinRead _ | .mtxScan _ | .srRead _ | .encRead _ | .extRead _ | .chainRead _ | .chainMask _
  | .encEdge _ | .axRead _ | .axResetCal _ | .axSetCal _ | .axGetCal _ => []

/-- The ports that accompany a table word: an agent that may issue it, the latest time, a record of its kind (log 1). -/
def portsFor (s : State) (i : Option Instr) : Ports :=
  { agent := (i.map (issuerOf s.phase)).getD .setup
    prev := 0#64
    now := s.lastNow
    cal := (0, 0)
    record := (i.map exampleRecord).getD [] }

/-- The request whose descriptor has the bits `w` of a table row (30_encoding.md R80). -/
def requestFor (s : State) (nbits w : Nat) : Request :=
  { desc := BitVec.ofNat 32 (w % 2 ^ nbits), ports := portsFor s (decodeTableWord nbits w) }

end Sys2Proof.Machine
end

