-- ==== Sys2Proof/Machine/Step.lean ====
section
/-! DEFINITION. One step of the machine, and the placing of a word where the next step fetches it. -/

namespace Sys2Proof.Machine

/-- One step: the environment's next turn, or POLL's next sub-read of a CHAIN_READ in progress. -/
def step (s : State) : Host.Outcome State Fault Refusal := nextTurn s

/-- `s` with the operation of the descriptor bits `w` as the environment's next turn, and no CHAIN_READ in the way. -/
def State.withFetchWord (s : State) (nbits w : Nat) : State :=
  { s with chain := none, inbox := .op (requestFor s nbits w) :: s.inbox }

end Sys2Proof.Machine
end

