-- ==== Sys2Proof/Safety.lean ====
section
/-! DEFINITION. The terms claims about the block are stated in: what a good run is, the legality tables in the spec's
own words, the invariant, the queue as a list, and the sequences of reads the debounce properties speak of. -/

namespace Sys2Proof.Machine

/-! ### Runs -/

/-- A state of a good run: neither terminated nor marked refused (60_exceptions.md R262, R268, R279). -/
abbrev State.Good (s : State) : Prop := s.refused = false ∧ ∀ e, s.phase ≠ .terminated e

/-- Each operation's row of the legality table (30_encoding.md R86). -/
def rowOf : Instr → OpClass
  | .cfgDpin _ | .cfgMatrix _ | .cfgShiftreg _ | .cfgEncoder _ | .cfgExtsrc _ | .cfgAxis _ => .config
  | .start _ => .start
  | .dpinRead _ | .mtxScan _ | .srRead _ | .encRead _ | .extRead _ | .chainRead _ | .axRead _ | .axResetCal _ => .live
  | .chainMask _ | .axGetCal _ => .query
  | .axSetCal _ => .setCal
  | .encEdge _ => .edge

/-- The agents R86 lists for an operation in a phase. -/
def Listed (i : Instr) (ph : Phase) (a : Agent) : Prop :=
  match rowOf i with
  | .config | .start => a = .setup
  | .live => a = .poll
  | .query => a = .setup ∨ a = .poll
  | .setCal => (ph = .setup ∧ a = .setup) ∨ (ph = .running ∧ a = .poll)
  | .edge => a = .isr i.unit.toNat

/-- The unit values R84 allows an operation. -/
def UnitLegal (i : Instr) (s : State) : Prop :=
  match i with
  | .cfgDpin u | .cfgMatrix u | .cfgShiftreg u | .cfgEncoder u | .cfgExtsrc u =>
    u.toNat = s.src.length ∧ s.src.length < s.params.maxSources
  | .cfgAxis u => u.toNat < 2 ∧ s.axisAt u.toNat = none
  | .start u | .chainRead u | .chainMask u => u = 0#8
  | .dpinRead u => ∃ cfg st, s.src[u.toNat]? = some (.dpin cfg st)
  | .mtxScan u => ∃ cfg st, s.src[u.toNat]? = some (.matrix cfg st)
  | .srRead u => ∃ cfg, s.src[u.toNat]? = some (.shiftReg cfg)
  | .encRead u | .encEdge u => ∃ cfg st, s.src[u.toNat]? = some (.encoder cfg st)
  | .extRead u => ∃ cfg ext, s.src[u.toNat]? = some (.opaqueExt cfg ext)
  | .axRead u | .axResetCal u | .axSetCal u | .axGetCal u => u.toNat < 2 ∧ ∃ x, s.axisAt u.toNat = some x

/-- The presented agent can take a step at all: the process runs, and an `ISR(u)` has its encoder
(60_exceptions.md R262, R276; log 5). -/
def AgentSteps (s : State) : Prop :=
  (∀ e, s.phase ≠ .terminated e) ∧ ∀ u, s.ports.agent = .isr u → ∃ cfg st, s.src[u]? = some (.encoder cfg st)

/-- The phase and agent in which an operation's rule runs (R86). -/
def Permitted (i : Instr) (s : State) : Prop :=
  Listed i s.phase s.ports.agent ∧ ¬(rowOf i = .config ∧ s.phase = .running) ∧
    ¬(rowOf i = .start ∧ s.phase = .running) ∧ ¬(rowOf i = .live ∧ s.phase = .setup)

/-- SETUP's turn to configure. -/
abbrev ConfigTurn (s : State) : Prop :=
  s.phase = .setup ∧ s.ports.agent = .setup ∧ s.lastNow ≤ s.ports.now

/-- POLL's turn after START. -/
abbrev PollTurn (s : State) : Prop :=
  s.phase = .running ∧ s.ports.agent = .poll ∧ s.lastNow ≤ s.ports.now

/-- A turn of SETUP or POLL, before or after START. -/
abbrev QueryTurn (s : State) : Prop :=
  (s.phase = .setup ∨ s.phase = .running) ∧ (s.ports.agent = .setup ∨ s.ports.agent = .poll) ∧
    s.lastNow ≤ s.ports.now

/-- A turn in which AX_SET_CAL may be issued. -/
abbrev RestoreTurn (s : State) : Prop :=
  ((s.phase = .setup ∧ s.ports.agent = .setup) ∨ (s.phase = .running ∧ s.ports.agent = .poll)) ∧
    s.lastNow ≤ s.ports.now

/-- A turn of the edge-interrupt handler of slot `u`. -/
abbrev EdgeTurn (u : UnitIx) (s : State) : Prop :=
  (s.phase = .setup ∨ s.phase = .running) ∧ s.ports.agent = .isr u.toNat ∧ s.lastNow ≤ s.ports.now

/-! ### The invariant -/

/-- What a created source keeps true: the legal values of 10_state.md R28, R30, R32, R34 and R39, one timestamp per
cell (R31), and an enabled interrupt (R38). -/
def Source.WellFormed (p : Params) : Source → Prop
  | .dpin cfg _ => pinAllowed p.pins cfg.pin = true
  | .matrix cfg st =>
    1 ≤ cfg.selPins.length ∧ cfg.selPins.length ≤ p.maxSelectors ∧ 1 ≤ cfg.inPins.length ∧
      cfg.inPins.length ≤ p.maxMatrixInputs ∧ cfg.map.length = cfg.selPins.length * cfg.inPins.length ∧
      cfg.map.Nodup ∧ st.lastActive.length = cfg.selPins.length * cfg.inPins.length ∧
      ∀ pin ∈ cfg.selPins ++ cfg.inPins, pinAllowed p.pins pin = true
  | .shiftReg cfg =>
    1 ≤ cfg.n ∧ cfg.n ≤ p.maxSrBits ∧ cfg.map.length = cfg.n ∧ cfg.map.Nodup ∧
      ∀ pin ∈ [cfg.loadPin, cfg.clkPin, cfg.dataPin], pinAllowed p.pins pin = true
  | .encoder cfg st =>
    cfg.clkPin ≠ cfg.dtPin ∧ cfg.cw ≠ cfg.ccw ∧ st.irqEnabled = true ∧
      (cfg.alternate = true → AltWellFormed p) ∧
      ∀ pin ∈ [cfg.clkPin, cfg.dtPin], pinAllowed p.pins pin = true
  | .opaqueExt cfg _ => cfg.fn < p.extFns

/-- What a configured axis keeps true: bounds in `0..RAW_MAX` and a valid channel (R40, R41). -/
def Axis.WellFormed (p : Params) (x : Axis) : Prop :=
  pinAllowed p.pins x.cfg.channel = true ∧ x.st.min ≤ p.rawMax ∧ x.st.max ≤ p.rawMax

/-- What a CHAIN_READ in progress keeps true: START has happened, its next slot exists, and its bits so far lie in
the chain mask (40_digital_sources.md R102, R105). -/
def State.ChainWellFormed (s : State) (c : ChainRead) : Prop :=
  s.phase ≠ .setup ∧ c.next < s.src.length ∧ c.acc &&& ~~~s.chainMask = 0#64

/-- The invariant of the block. -/
def State.Inv (s : State) : Prop :=
  s.src.length ≤ s.params.maxSources ∧ (∀ x ∈ s.src, x.WellFormed s.params) ∧
    (∀ a x, s.axisAt a = some x → x.WellFormed s.params) ∧ ∀ c, s.chain = some c → s.ChainWellFormed c

/-! ### The queue as a list -/

/-- The queued detents, oldest first: the slots from `head` up to `tail` (10_state.md R36). -/
def EncoderSt.entries (st : EncoderSt) : List Dir :=
  (List.range (st.tail - st.head).toNat).map (fun k => slotAt st.slots (st.head + BitVec.ofNat 6 k))

/-! ### Sequences -/

/-- The next `k` pin levels in drawing order, and what is left. -/
def Draws.levels : Nat → Draws → List Level × Draws
  | 0, d => ([], d)
  | k + 1, d => (d.pinRead.1 :: (Draws.levels k d.pinRead.2).1, (Draws.levels k d.pinRead.2).2)

/-- All the sources of a list read in order: the sources after it, the OR of the bits, the pin events and what is left
to draw (40_digital_sources.md R105). -/
def readAll (prev : InputBitmap) (now : Time) : List Source → Draws → List Source × InputBitmap × List PinEvent × Draws
  | [], d => ([], 0#64, [], d)
  | x :: xs, d =>
    let r := readSource x prev now d
    let rest := readAll prev now xs r.draws
    (r.source :: rest.1, r.bits ||| rest.2.1, r.events ++ rest.2.2.1, rest.2.2.2)

/-- A source with its state put back to a fixed value: what is left is its configuration. -/
def Source.configOnly : Source → Source
  | .dpin cfg _ => .dpin cfg { lastRaw := false, lastChange := 0#64 }
  | .matrix cfg _ => .matrix cfg { lastActive := [] }
  | .shiftReg cfg => .shiftReg cfg
  | .encoder cfg _ => .encoder cfg (newEncoderSt 0#64)
  | .opaqueExt cfg _ => .opaqueExt cfg 0

/-- One read of a direct pin whose previous report is fed back as `prev`: the state and the reported bit after a
sample `raw` at a time (40_digital_sources.md R109). -/
def dpinFeed (cfg : DpinCfg) (a : DpinSt × Bool) (sampleAt : Bool × Time) : DpinSt × Bool :=
  (dpinSampled a.1 sampleAt.1 sampleAt.2,
    dpinReported cfg a.1 sampleAt.1 (if a.2 then inputBit cfg.input else 0#64) sampleAt.2)

/-- One scan of a matrix whose previous result is fed back as `prev` (R116): the state and the result after a scan at
a time with the given draws. -/
def matrixFeed (cfg : MatrixCfg) (a : MatrixSt × InputBitmap) (scanAt : Time × Draws) : MatrixSt × InputBitmap :=
  let r := readMatrix cfg a.1 a.2 scanAt.1 scanAt.2
  (match r.source with
    | .matrix _ st => st
    | _ => a.1, r.bits)

/-- A sequence of samples through a decoder (41_rotary_encoder.md R156). -/
def decodeAll (p : Params) (cfg : EncoderCfg) (samples : List (BitVec 2)) (st : EncoderSt) : EncoderSt :=
  samples.foldl (fun st ab => decodeSample p cfg ab st) st

end Sys2Proof.Machine
end

