-- ==== Sys2Proof/Certificates/Slice0/Obligations.lean ====
section
/-! DEFINITION. Statements about the block, for the provers. They are about every state and every parameter value
unless a hypothesis says otherwise; none rests on a value the model chose. Each docstring names the rule of spec/.
Where a next state is written out, its fields `result` and `outcome` are the model's record of the spec's result and
outcome: an operation without a result leaves the result port empty (log 3, log 17). -/

open Sys2Proof Sys2Proof.Machine

/-! ### Encoding (30_encoding.md) -/

/-- R80, R83: the decoder reads back every operation, at every unit value, from its descriptor. -/
def Obligations.DecodeOfEncodeIsTheOperation : Prop :=
  ∀ i : Instr, decode (encode i) = .ok i

/-- R80: a descriptor that decodes has exactly one spelling, so no bit of it is dropped. -/
def Obligations.EncodeOfDecodeIsTheDescriptor : Prop :=
  ∀ (d : Word) (i : Instr), decode d = .ok i → encode i = d

/-- R83: words written out bit by bit from the opcode map decode to the operations they stand for. -/
def Obligations.OpcodeMapWordsDecode : Prop :=
  decode 0b00000001_00000000_0000000000000000#32 = .ok (.cfgDpin 0#8) ∧
  decode 0b00001111_00000000_0000000000000000#32 = .ok (.start 0#8) ∧
  decode 0b00010011_00000010_0000000000000000#32 = .ok (.encRead 2#8) ∧
  decode 0b00100000_11111111_0000000000000000#32 = .ok (.encEdge 255#8) ∧
  decode 0b00110010_00000001_0000000000000000#32 = .ok (.axSetCal 1#8) ∧
  decode 0b00000111_00000000_0000000000000000#32 = .error .illegalOpcode ∧
  decode 0b00010000_00000001_0000000000000001#32 = .error .reservedBits

/-- R85 with R83 and R268: an issued descriptor whose opcode R83 does not list is refused ILLEGAL_OPCODE, one with a
listed opcode and nonzero low bits RESERVED_BITS, and nothing else of the block changes. The schedule is the model's
(log 1), the refusal as a next state is log 3 and its empty result port log 17. -/
def Obligations.UndecodableDescriptorIsRefused : Prop :=
  ∀ (s : State) (r : Request) (rest : List Turn),
    s.inbox = .op r :: rest → (s.chain = none ∨ r.ports.agent ≠ .poll) → AgentSteps { s with ports := r.ports } →
    let listed : List (BitVec 8) := [0x01, 0x02, 0x03, 0x04, 0x05, 0x06, 0x0F, 0x10, 0x11, 0x12, 0x13, 0x14, 0x18,
      0x19, 0x20, 0x30, 0x31, 0x32, 0x33]
    let refusedFor (w : RefuseReason) : State :=
      { s with inbox := rest, ports := r.ports, refused := true, result := .none, outcome := .refused w }
    (r.desc.extractLsb' 24 8 ∉ listed → step s = .next (refusedFor .illegalOpcode)) ∧
    (r.desc.extractLsb' 24 8 ∈ listed → r.desc.extractLsb' 0 16 ≠ 0#16 →
      step s = .next (refusedFor .reservedBits)) ∧
    (r.desc.extractLsb' 24 8 ∈ listed → r.desc.extractLsb' 0 16 = 0#16 →
      ∃ i, decode r.desc = .ok i ∧ i.unit = r.desc.extractLsb' 16 8)

/-- A step runs the decoded operation: where the schedule's next turn is an operation that may come now, `step` takes
it off the schedule, presents its ports and runs `exec` (R87; log 1, log 10). -/
def Obligations.StepRunsTheDecodedOperation : Prop :=
  ∀ (s : State) (r : Request) (rest : List Turn) (i : Instr),
    s.inbox = .op r :: rest → (s.chain = none ∨ r.ports.agent ≠ .poll) → (∀ e, s.phase ≠ .terminated e) →
    decode r.desc = .ok i →
    step s = exec i { s with inbox := rest, ports := r.ports }

/-! ### The checks before a rule runs -/

/-- R86: an operation of an agent the table does not list is refused WRONG_AGENT; a CFG operation in RUNNING
terminates the block with CFG_AFTER_START; a second START is refused BAD_PHASE; a read or axis command before START is
refused NOT_STARTED. The table's permitted cells are the completion statements below. -/
def Obligations.LegalityTableIsEnforced : Prop :=
  ∀ (i : Instr) (s : State), AgentSteps s →
    (¬Listed i s.phase s.ports.agent →
      exec i s = .next { s with refused := true, result := .none, outcome := .refused .wrongAgent }) ∧
    (Listed i s.phase s.ports.agent → rowOf i = .config → s.phase = .running →
      exec i s = .next { s with phase := .terminated .afterStart, result := .none, outcome := .terminated .afterStart }) ∧
    (Listed i s.phase s.ports.agent → rowOf i = .start → s.phase = .running →
      exec i s = .next { s with refused := true, result := .none, outcome := .refused .badPhase }) ∧
    (Listed i s.phase s.ports.agent → rowOf i = .live → s.phase = .setup →
      exec i s = .next { s with refused := true, result := .none, outcome := .refused .notStarted })

/-- R84: an operation that its agent and phase permit, with a unit value the table does not allow it, is refused
BAD_UNIT. -/
def Obligations.IllegalUnitIsRefused : Prop :=
  ∀ (i : Instr) (s : State), AgentSteps s → Permitted i s → ¬UnitLegal i s →
    exec i s = .next { s with refused := true, result := .none, outcome := .refused .badUnit }

/-- R302 with R87: an operation that passes the earlier checks is refused TIME_BACKWARDS when `now` is before
`lastNow`; ENC_EDGE passes them only with its interrupt enabled. -/
def Obligations.DecreasingTimeIsRefused : Prop :=
  ∀ (i : Instr) (s : State), AgentSteps s → Permitted i s → UnitLegal i s →
    (rowOf i = .edge → s.irqEnabledAt i.unit.toNat = true) → s.ports.now < s.lastNow →
    exec i s = .next { s with refused := true, result := .none, outcome := .refused .timeBackwards }

/-- R87: the checks are complete: an operation that completes, or begins a CHAIN_READ, passed every one of them. -/
def Obligations.OnlyCheckedOperationsRun : Prop :=
  ∀ (i : Instr) (s t : State), exec i s = .next t → (t.outcome = .completed ∨ t.outcome = .reading) →
    AgentSteps s ∧ Permitted i s ∧ UnitLegal i s ∧ (rowOf i = .edge → s.irqEnabledAt i.unit.toNat = true) ∧
      s.lastNow ≤ s.ports.now

/-- R244: any CFG operation in phase RUNNING raises CFG_AFTER_START, whatever its record, its unit and its time. The
empty result port is the model's choice (log 17). -/
def Obligations.RegistrationAfterStartTerminates : Prop :=
  ∀ (u : UnitIx) (s : State), s.phase = .running → s.ports.agent = .setup →
    ∀ i ∈ [Instr.cfgDpin u, .cfgMatrix u, .cfgShiftreg u, .cfgEncoder u, .cfgExtsrc u, .cfgAxis u],
      exec i s = .next { s with phase := .terminated .afterStart, result := .none, outcome := .terminated .afterStart }

/-- R262: raising a ConfigError changes nothing but the phase (and the model's outcome and result ports), and in
TERMINATED no agent has a step, whatever the schedule and the operation. The absent step as a named fault is the model's
(log 4), and so is the empty result port (log 17). -/
def Obligations.ConfigErrorTerminatesAndNothingElse : Prop :=
  (∀ (i : Instr) (s t : State) (e : ConfigError), exec i s = .next t → t.outcome = .terminated e →
    t = { s with phase := .terminated e, result := .none, outcome := .terminated e }) ∧
  (∀ (s : State) (e : ConfigError), s.phase = .terminated e →
    step s = .fault .processTerminated ∧ ∀ i, exec i s = .fault .processTerminated)

/-- R268, R23: a refused operation sets the mark and changes nothing else (but the model's outcome and result ports),
and no step clears the mark. -/
def Obligations.RefusalSetsOnlyTheMark : Prop :=
  State.reset.refused = false ∧
  (∀ (i : Instr) (s t : State) (w : RefuseReason), exec i s = .next t → t.outcome = .refused w →
    t = { s with refused := true, result := .none, outcome := .refused w }) ∧
  (∀ s t : State, step s = .next t → s.refused = true → t.refused = true)

/-- R38, R276 (log 5): an ENC_EDGE whose unit's interrupt is not enabled has no step, and an `ISR(u)` without an
encoder in slot `u` has no step whatever it issues. -/
def Obligations.DisabledInterruptHasNoStep : Prop :=
  (∀ (u : UnitIx) (s : State) (cfg : EncoderCfg) (st : EncoderSt), (∀ e, s.phase ≠ .terminated e) →
    s.ports.agent = .isr u.toNat → s.src[u.toNat]? = some (.encoder cfg st) → st.irqEnabled = false →
    exec (.encEdge u) s = .fault .interruptNotEnabled) ∧
  (∀ (i : Instr) (u : Nat) (s : State), (∀ e, s.phase ≠ .terminated e) → s.ports.agent = .isr u →
    (∀ cfg st, s.src[u]? ≠ some (.encoder cfg st)) → exec i s = .fault .agentAbsent)

/-- R264: no read, edge, query or axis command changes the phase, and none raises a ConfigError. -/
def Obligations.RunTimeRaisesNoError : Prop :=
  ∀ (i : Instr) (s t : State), rowOf i ≠ .config → rowOf i ≠ .start → exec i s = .next t →
    t.phase = s.phase ∧ ∀ e, t.outcome ≠ .terminated e

/-- R22: a step leaves the phase, moves SETUP to RUNNING, or terminates. -/
def Obligations.PhaseMovesOnlyForward : Prop :=
  State.reset.phase = .setup ∧ ∀ s t : State, step s = .next t →
    (∀ e, s.phase ≠ .terminated e) ∧
    (t.phase = s.phase ∨ (s.phase = .setup ∧ t.phase = .running) ∨ ∃ e, t.phase = .terminated e ∧ t.outcome = .terminated e)

/-- R261: the numbers of the configuration errors. -/
def Obligations.ConfigErrorCodes : Prop :=
  ConfigError.invalidPinCount.code = 0x01#8 ∧ ConfigError.invalidArrayLength.code = 0x02#8 ∧
  ConfigError.duplicatePin.code = 0x03#8 ∧ ConfigError.inputNumberOutOfRange.code = 0x04#8 ∧
  ConfigError.duplicateInputNumber.code = 0x05#8 ∧ ConfigError.afterStart.code = 0x06#8

/-! ### Registration (43_configuration.md) -/

/-- R236 with R231: CFG_DPIN creates a direct pin in the next slot, or raises CFG_INPUT_NUMBER_OUT_OF_RANGE. -/
def Obligations.CfgDpinRegistersOrRaises : Prop :=
  ∀ (u : UnitIx) (s : State) (pin input : Nat) (active : Level) (window : Time), ConfigTurn s →
    u.toNat = s.src.length → s.src.length < s.params.maxSources →
    s.ports.record.num? .pin = some pin → s.ports.record.num? .input = some input →
    s.ports.record.level? .activeLevel = some active → s.ports.record.word? .window = some window →
    pinAllowed s.params.pins pin = true →
    decode (0x01#8 ++ u ++ 0#16) = .ok (.cfgDpin u) ∧
    exec (.cfgDpin u) s = .next (
      if 64 ≤ input then
        { s with phase := .terminated .inputNumberOutOfRange, result := .none,
                 outcome := .terminated .inputNumberOutOfRange }
      else
        { s with
          src := s.src ++ [.dpin { pin := pin, input := Fin.ofNat 64 input, activeLevel := active, window := window }
            { lastRaw := false, lastChange := 0#64 }]
          lastNow := s.ports.now, result := .none, outcome := .completed })

/-- R237 with R231 to R233 and R235's order: CFG_MATRIX raises the first error of its record, or creates the matrix
with every timestamp 0 and drives every selector inactive. -/
def Obligations.CfgMatrixRegistersOrRaises : Prop :=
  ∀ (u : UnitIx) (s : State) (selPins inPins map : List Nat) (selActive inActive : Level) (window settle : Time),
    ConfigTurn s → u.toNat = s.src.length → s.src.length < s.params.maxSources →
    s.ports.record.list? .selPins = some selPins → s.ports.record.list? .inPins = some inPins →
    s.ports.record.list? .map = some map → s.ports.record.level? .selActive = some selActive →
    s.ports.record.level? .inActive = some inActive → s.ports.record.word? .window = some window →
    s.ports.record.word? .settle = some settle →
    (∀ p ∈ selPins ++ inPins, pinAllowed s.params.pins p = true) →
    let raised (e : ConfigError) : State :=
      { s with phase := .terminated e, result := .none, outcome := .terminated e }
    decode (0x02#8 ++ u ++ 0#16) = .ok (.cfgMatrix u) ∧
    exec (.cfgMatrix u) s = .next (
      if selPins.length < 1 ∨ s.params.maxSelectors < selPins.length ∨ inPins.length < 1 ∨
          s.params.maxMatrixInputs < inPins.length then raised .invalidPinCount
      else if map.length ≠ selPins.length * inPins.length then raised .invalidArrayLength
      else if ∃ n ∈ map, 64 ≤ n then raised .inputNumberOutOfRange
      else if ¬map.Nodup then raised .duplicateInputNumber
      else
        { s with
          src := s.src ++ [.matrix
            { selPins := selPins, inPins := inPins, map := map.map (Fin.ofNat 64), selActive := selActive,
              inActive := inActive, window := window, settle := settle }
            { lastActive := List.replicate (selPins.length * inPins.length) 0#64 }]
          trace := s.trace ++ selPins.map (fun p => .write p (1#1 - selActive))
          lastNow := s.ports.now, result := .none, outcome := .completed })

/-- R238 with R231 to R233 and R235's order: CFG_SHIFTREG raises the first error of its record, or creates the chain
and drives the load and clock pins to their idle levels. -/
def Obligations.CfgShiftregRegistersOrRaises : Prop :=
  ∀ (u : UnitIx) (s : State) (loadPin clkPin dataPin n : Nat) (map : List Nat)
    (loadActive clkActive dataActive : Level) (pulse : Time),
    ConfigTurn s → u.toNat = s.src.length → s.src.length < s.params.maxSources →
    s.ports.record.num? .loadPin = some loadPin → s.ports.record.num? .clkPin = some clkPin →
    s.ports.record.num? .dataPin = some dataPin → s.ports.record.num? .n = some n →
    s.ports.record.list? .map = some map → s.ports.record.level? .loadActive = some loadActive →
    s.ports.record.level? .clkActive = some clkActive → s.ports.record.level? .dataActive = some dataActive →
    s.ports.record.word? .pulse = some pulse →
    (∀ p ∈ [loadPin, clkPin, dataPin], pinAllowed s.params.pins p = true) →
    let raised (e : ConfigError) : State :=
      { s with phase := .terminated e, result := .none, outcome := .terminated e }
    decode (0x03#8 ++ u ++ 0#16) = .ok (.cfgShiftreg u) ∧
    exec (.cfgShiftreg u) s = .next (
      if n < 1 ∨ s.params.maxSrBits < n ∨ map.length ≠ n then raised .invalidArrayLength
      else if ∃ k ∈ map, 64 ≤ k then raised .inputNumberOutOfRange
      else if ¬map.Nodup then raised .duplicateInputNumber
      else
        { s with
          src := s.src ++ [.shiftReg
            { loadPin := loadPin, clkPin := clkPin, dataPin := dataPin, n := n, map := map.map (Fin.ofNat 64),
              loadActive := loadActive, clkActive := clkActive, dataActive := dataActive, pulse := pulse }]
          trace := s.trace ++ [.write loadPin (1#1 - loadActive), .write clkPin (1#1 - clkActive)]
          lastNow := s.ports.now, result := .none, outcome := .completed })

/-- R239 with R231, R232 and R235's order: CFG_ENCODER raises the first error of its record, an absent `ccw` standing
for `cw + 1`, or creates the encoder with an empty queue and unspecified slots, primes it with one decode pass and
enables its interrupt. -/
def Obligations.CfgEncoderRegistersOrRaises : Prop :=
  ∀ (u : UnitIx) (s : State) (clkPin dtPin cw : Nat) (ccw : Option Nat) (alternate : Bool),
    ConfigTurn s → u.toNat = s.src.length → s.src.length < s.params.maxSources →
    s.ports.record.num? .clkPin = some clkPin → s.ports.record.num? .dtPin = some dtPin →
    s.ports.record.num? .cw = some cw → s.ports.record.ccw? = some ccw →
    s.ports.record.alternate? = some alternate → (alternate = true → AltWellFormed s.params) →
    pinAllowed s.params.pins clkPin = true → pinAllowed s.params.pins dtPin = true →
    let raised (e : ConfigError) : State :=
      { s with phase := .terminated e, result := .none, outcome := .terminated e }
    let ccw' : Nat := match ccw with
      | some n => n
      | none => cw + 1
    let cfg : EncoderCfg :=
      { clkPin := clkPin, dtPin := dtPin, cw := Fin.ofNat 64 cw, ccw := Fin.ofNat 64 ccw', alternate := alternate }
    let created : EncoderSt :=
      { code := 0#4, seq := 0#8, alt := 0#4, slots := Config.freeSlots s.draws.count, head := 0#6, tail := 0#6,
        pending := false, irqEnabled := false }
    let a := Draws.pinRead { s.draws with count := s.draws.count + 1 }
    let b := a.2.pinRead
    decode (0x04#8 ++ u ++ 0#16) = .ok (.cfgEncoder u) ∧
    exec (.cfgEncoder u) s = .next (
      if clkPin = dtPin then raised .duplicatePin
      else if 64 ≤ cw ∨ 64 ≤ ccw' then raised .inputNumberOutOfRange
      else if cw = ccw' then raised .duplicateInputNumber
      else
        { s with
          src := s.src ++ [.encoder cfg
            { decodeSample s.params cfg (b.1 ++ a.1) created with irqEnabled := true }]
          draws := b.2
          lastNow := s.ports.now, result := .none, outcome := .completed })

/-- R163: under the default standard tables the priming pass cannot push, whatever is sampled. -/
def Obligations.PrimingPushesNothingByDefault : Prop :=
  ∀ (p : Params) (cfg : EncoderCfg) (slots : BitVec 64) (ab : BitVec 2), cfg.alternate = false →
    p.valid = grayValid → p.detentCw = 0x17#8 → p.detentCcw = 0x2B#8 →
    (primedEncoderSt p cfg slots ab).head = 0#6 ∧ (primedEncoderSt p cfg slots ab).tail = 0#6 ∧
      (primedEncoderSt p cfg slots ab).slots = slots ∧ (primedEncoderSt p cfg slots ab).irqEnabled = true ∧
      (primedEncoderSt p cfg slots ab).code = 0#2 ++ ab

/-- R240: CFG_EXTSRC creates an opaque source with `EXT_INIT[fn]`. -/
def Obligations.CfgExtsrcRegisters : Prop :=
  ∀ (u : UnitIx) (s : State) (mask : InputBitmap) (fn : Nat), ConfigTurn s →
    u.toNat = s.src.length → s.src.length < s.params.maxSources →
    s.ports.record.word? .mask = some mask → s.ports.record.num? .fn = some fn → fn < s.params.extFns →
    decode (0x05#8 ++ u ++ 0#16) = .ok (.cfgExtsrc u) ∧
    exec (.cfgExtsrc u) s = .next
      { s with
        src := s.src ++ [.opaqueExt { mask := mask, fn := fn } (Config.extInit fn)]
        lastNow := s.ports.now, result := .none, outcome := .completed }

/-- R241: CFG_AXIS configures an unconfigured axis with the sentinel extremes; the other axis is untouched. -/
def Obligations.CfgAxisConfigures : Prop :=
  ∀ (u : UnitIx) (s : State) (channel : Nat) (inverted : Bool), ConfigTurn s →
    s.ports.record.num? .channel = some channel → s.ports.record.bool? .inverted = some inverted →
    pinAllowed s.params.pins channel = true →
    let x : Axis := { cfg := { channel := channel, inverted := inverted }, st := { min := s.params.rawMax, max := 0 } }
    decode (0x06#8 ++ u ++ 0#16) = .ok (.cfgAxis u) ∧
    (u = 0#8 → s.axisLeft = none →
      exec (.cfgAxis u) s = .next
        { s with axisLeft := some x, lastNow := s.ports.now, result := .none, outcome := .completed }) ∧
    (u = 1#8 → s.axisRight = none →
      exec (.cfgAxis u) s = .next
        { s with axisRight := some x, lastNow := s.ports.now, result := .none, outcome := .completed })

/-- R234 with R235's order: a record that names an invalid pin is refused BAD_PIN before anything else is looked at; one
whose named pins are all valid but in which some field its kind requires is missing or of the wrong type (`ccw` and
`alternate` may be missing, log 13) is refused BAD_PARAM; so is an encoder whose alternate tables are ill formed, and
an `fn` that names no function. The record's form is the model's (log 12), the refusal as a next state is log 3 and its
empty result port log 17. -/
def Obligations.UnmodelledRecordsAreRefused : Prop :=
  ∀ (u : UnitIx) (s : State), ConfigTurn s →
    let refusedFor (w : RefuseReason) : State :=
      { s with refused := true, result := .none, outcome := .refused w }
    let r := s.ports.record
    let bad (pins : List Nat) : Prop := ∃ p ∈ pins, pinAllowed s.params.pins p = false
    let good (pins : List Nat) : Prop := ∀ p ∈ pins, pinAllowed s.params.pins p = true
    let matrixPins := (r.list? .selPins).getD [] ++ (r.list? .inPins).getD []
    let shiftPins := (r.num? .loadPin).toList ++ (r.num? .clkPin).toList ++ (r.num? .dataPin).toList
    let encoderPins := (r.num? .clkPin).toList ++ (r.num? .dtPin).toList
    (u.toNat = s.src.length → s.src.length < s.params.maxSources →
      (bad (r.num? .pin).toList → exec (.cfgDpin u) s = .next (refusedFor .badPin)) ∧
      (good (r.num? .pin).toList →
        (r.num? .pin = none ∨ r.num? .input = none ∨ r.level? .activeLevel = none ∨ r.word? .window = none) →
        exec (.cfgDpin u) s = .next (refusedFor .badParam)) ∧
      (bad matrixPins → exec (.cfgMatrix u) s = .next (refusedFor .badPin)) ∧
      (good matrixPins →
        (r.list? .selPins = none ∨ r.list? .inPins = none ∨ r.list? .map = none ∨ r.level? .selActive = none ∨
          r.level? .inActive = none ∨ r.word? .window = none ∨ r.word? .settle = none) →
        exec (.cfgMatrix u) s = .next (refusedFor .badParam)) ∧
      (bad shiftPins → exec (.cfgShiftreg u) s = .next (refusedFor .badPin)) ∧
      (good shiftPins →
        (r.num? .loadPin = none ∨ r.num? .clkPin = none ∨ r.num? .dataPin = none ∨ r.num? .n = none ∨
          r.list? .map = none ∨ r.level? .loadActive = none ∨ r.level? .clkActive = none ∨
          r.level? .dataActive = none ∨ r.word? .pulse = none) →
        exec (.cfgShiftreg u) s = .next (refusedFor .badParam)) ∧
      (bad encoderPins → exec (.cfgEncoder u) s = .next (refusedFor .badPin)) ∧
      (good encoderPins →
        (r.num? .clkPin = none ∨ r.num? .dtPin = none ∨ r.num? .cw = none ∨
          (∃ v, r.get? .ccw = some v ∧ ∀ n, v ≠ .num n) ∨ (∃ v, r.get? .alternate = some v ∧ ∀ b, v ≠ .bool b) ∨
          (r.bool? .alternate = some true ∧ ¬AltWellFormed s.params)) →
        exec (.cfgEncoder u) s = .next (refusedFor .badParam)) ∧
      ((r.word? .mask = none ∨ r.num? .fn = none ∨ ∃ fn, r.num? .fn = some fn ∧ s.params.extFns ≤ fn) →
        exec (.cfgExtsrc u) s = .next (refusedFor .badParam))) ∧
    (u.toNat < 2 → s.axisAt u.toNat = none →
      (bad (r.num? .channel).toList → exec (.cfgAxis u) s = .next (refusedFor .badPin)) ∧
      (good (r.num? .channel).toList → (r.num? .channel = none ∨ r.bool? .inverted = none) →
        exec (.cfgAxis u) s = .next (refusedFor .badParam)))

/-- R245: START moves SETUP to RUNNING and changes nothing else; a second START is refused BAD_PHASE. The refusal as a
next state is log 3, the empty result port the model's choice (log 17). -/
def Obligations.StartBeginsRunning : Prop :=
  ∀ s : State,
    decode 0x0F000000#32 = .ok (.start 0#8) ∧
    (ConfigTurn s →
      exec (.start 0#8) s = .next
        { s with phase := .running, lastNow := s.ports.now, result := .none, outcome := .completed }) ∧
    (s.phase = .running → s.ports.agent = .setup →
      exec (.start 0#8) s = .next { s with refused := true, result := .none, outcome := .refused .badPhase })

/-! ### Digital reads (40_digital_sources.md) -/

/-- R108 with R107: DPIN_READ reports the sample once it has been unchanged for a full window, and otherwise holds the
bit of `prev`; it writes `lastRaw` and `lastChange` of its own source and nothing else of the block. -/
def Obligations.DpinReadReportsStableSamples : Prop :=
  ∀ (u : UnitIx) (s : State) (cfg : DpinCfg) (st : DpinSt), PollTurn s → s.src[u.toNat]? = some (.dpin cfg st) →
    let raw : Bool := decide (s.draws.pinRead.1 = cfg.activeLevel)
    let st' : DpinSt := if raw ≠ st.lastRaw then { lastRaw := raw, lastChange := s.ports.now } else st
    let b : Bool := if cfg.window ≤ s.ports.now - st'.lastChange then raw else s.ports.prev.getLsbD cfg.input
    decode (0x10#8 ++ u ++ 0#16) = .ok (.dpinRead u) ∧
    exec (.dpinRead u) s = .next
      { s with
        src := s.src.set u.toNat (.dpin cfg st')
        draws := s.draws.pinRead.2
        lastNow := s.ports.now
        result := .bitmap (if b then 1#64 <<< cfg.input.val else 0#64)
        outcome := .completed }

/-- R115 with R61: MTX_SCAN samples its cells in increasing index, one draw each; an input number is reported exactly
when one of its cells is closed, or is open with the bit of `prev` set and its stamp inside the window; every closed
cell is stamped with `now`; the trace gets four events for each selector in order. -/
def Obligations.MtxScanReportsClosedAndHeldCells : Prop :=
  ∀ (u : UnitIx) (s : State) (cfg : MatrixCfg) (st : MatrixSt), PollTurn s →
    s.src[u.toNat]? = some (.matrix cfg st) → (Source.matrix cfg st).WellFormed s.params →
    let cells := cfg.selPins.length * cfg.inPins.length
    let levels := Draws.levels cells s.draws
    decode (0x11#8 ++ u ++ 0#16) = .ok (.mtxScan u) ∧
    ∃ (out : InputBitmap) (stamps : List Time),
      exec (.mtxScan u) s = .next
        { s with
          src := s.src.set u.toNat (.matrix cfg { lastActive := stamps })
          trace := s.trace ++ cfg.selPins.flatMap (fun p =>
            [.write p cfg.selActive, .delay cfg.settle, .write p (1#1 - cfg.selActive), .delay cfg.settle])
          draws := levels.2
          lastNow := s.ports.now
          result := .bitmap out
          outcome := .completed } ∧
      stamps.length = cells ∧
      (∀ c, c < cells → stamps[c]? =
        some (if levels.1[c]? = some cfg.inActive then s.ports.now else st.lastActive.getD c 0#64)) ∧
      ∀ n : InputNumber, out.getLsbD n = true ↔ ∃ c, c < cells ∧ cfg.map[c]? = some n ∧
        (levels.1[c]? = some cfg.inActive ∨
          (s.ports.prev.getLsbD n = true ∧ s.ports.now - st.lastActive.getD c 0#64 < cfg.window))

/-- R125 with R61, R33, R126: SR_READ records the load pulse and one clock pulse for each serial position, draws the
positions in increasing index, maps position `i` to `map[i]` with no debounce, and changes nothing of its source. -/
def Obligations.SrReadMapsSerialPositions : Prop :=
  ∀ (u : UnitIx) (s : State) (cfg : ShiftRegCfg), PollTurn s → s.src[u.toNat]? = some (.shiftReg cfg) →
    cfg.map.length = cfg.n →
    let levels := Draws.levels cfg.n s.draws
    decode (0x12#8 ++ u ++ 0#16) = .ok (.srRead u) ∧
    ∃ out : InputBitmap,
      exec (.srRead u) s = .next
        { s with
          trace := s.trace ++
            [.write cfg.loadPin cfg.loadActive, .delay cfg.pulse, .write cfg.loadPin (1#1 - cfg.loadActive),
              .delay cfg.pulse] ++
            (List.replicate cfg.n
              [.write cfg.clkPin cfg.clkActive, .delay cfg.pulse, .write cfg.clkPin (1#1 - cfg.clkActive),
                .delay cfg.pulse]).flatten
          draws := levels.2
          lastNow := s.ports.now
          result := .bitmap out
          outcome := .completed } ∧
      ∀ k : InputNumber, out.getLsbD k = true ↔
        ∃ i, i < cfg.n ∧ cfg.map[i]? = some k ∧ levels.1[i]? = some cfg.dataActive

/-- R160: ENC_READ emits a queued detent when no release is pending and sets `pending`; else it clears `pending` and
gives 0. It writes only `head` and `pending` of its own source, and ignores `prev`. -/
def Obligations.EncReadEmitsThenReleases : Prop :=
  ∀ (u : UnitIx) (s : State) (cfg : EncoderCfg) (st : EncoderSt), PollTurn s →
    s.src[u.toNat]? = some (.encoder cfg st) →
    decode (0x13#8 ++ u ++ 0#16) = .ok (.encRead u) ∧
    exec (.encRead u) s = .next (
      if st.pending = false ∧ st.head ≠ st.tail then
        { s with
          src := s.src.set u.toNat (.encoder cfg { st with head := st.head + 1#6, pending := true })
          lastNow := s.ports.now
          result := .bitmap (if st.slots.getLsbD st.head.toNat then 1#64 <<< cfg.cw.val else 1#64 <<< cfg.ccw.val)
          outcome := .completed }
      else
        { s with
          src := s.src.set u.toNat (.encoder cfg { st with pending := false })
          lastNow := s.ports.now
          result := .bitmap 0#64
          outcome := .completed })

/-- R140 with R141: EXT_READ runs the source's read function on its state, `prev`, `now` and a draw, keeps the next
state and returns the bits masked to the claim; the inputs of a failed bus transaction read 0. -/
def Obligations.ExtReadMasksItsFunction : Prop :=
  ∀ (u : UnitIx) (s : State) (cfg : ExtCfg) (ext : Nat), PollTurn s → s.src[u.toNat]? = some (.opaqueExt cfg ext) →
    let draw := s.draws.extInput.1
    let r := extReadFn cfg.fn ext s.ports.prev s.ports.now draw
    decode (0x14#8 ++ u ++ 0#16) = .ok (.extRead u) ∧
    exec (.extRead u) s = .next
      { s with
        src := s.src.set u.toNat (.opaqueExt cfg r.2)
        draws := s.draws.extInput.2
        lastNow := s.ports.now
        result := .bitmap (r.1 &&& cfg.mask)
        outcome := .completed } ∧
    r.1 &&& cfg.mask &&& Config.extFailedInputs cfg.fn ext s.ports.prev s.ports.now draw = 0#64

/-- R100: a read's result is a subset of the source's claimed mask, whatever the draws, `prev` and `now` are. -/
def Obligations.ReadsStayInTheirClaim : Prop :=
  ∀ (x : Source) (prev : InputBitmap) (now : Time) (d : Draws),
    (readSource x prev now d).bits &&& ~~~x.claim = 0#64

/-- R106 with R101 (property P1): CHAIN_MASK is the OR of every source's claimed bits, and changes nothing but
`lastNow`. -/
def Obligations.ChainMaskIsTheOrOfTheClaims : Prop :=
  ∀ s : State, QueryTurn s →
    decode 0x19000000#32 = .ok (.chainMask 0#8) ∧
    ∃ m : InputBitmap,
      exec (.chainMask 0#8) s = .next
        { s with lastNow := s.ports.now, result := .bitmap m, outcome := .completed } ∧
      ∀ n : InputNumber, m.getLsbD n = true ↔
        ((∃ cfg st, .dpin cfg st ∈ s.src ∧ cfg.input = n) ∨
          (∃ cfg st, .matrix cfg st ∈ s.src ∧ n ∈ cfg.map) ∨
          (∃ cfg, .shiftReg cfg ∈ s.src ∧ n ∈ cfg.map) ∨
          (∃ cfg st, .encoder cfg st ∈ s.src ∧ (cfg.cw = n ∨ cfg.ccw = n)) ∨
          ∃ cfg ext, .opaqueExt cfg ext ∈ s.src ∧ cfg.mask.getLsbD n = true)

/-- R105: CHAIN_READ begins with its checks and its first sub-read as one atomic step. With no source it completes at
once with 0, and with one source that read is the whole of it; with more, it is in progress with the first source's
bits. -/
def Obligations.ChainReadBeginsWithOneSubRead : Prop :=
  ∀ s : State, PollTurn s →
    decode 0x18000000#32 = .ok (.chainRead 0#8) ∧
    (s.src = [] →
      exec (.chainRead 0#8) s = .next
        { s with chain := none, lastNow := s.ports.now, result := .bitmap 0#64, outcome := .completed }) ∧
    (∀ x, s.src = [x] →
      let r := readSource x s.ports.prev s.ports.now s.draws
      exec (.chainRead 0#8) s = .next
        { s with
          src := [r.source], trace := s.trace ++ r.events, draws := r.draws, chain := none
          lastNow := s.ports.now, result := .bitmap r.bits, outcome := .completed }) ∧
    ∀ x y xs, s.src = x :: y :: xs →
      let r := readSource x s.ports.prev s.ports.now s.draws
      exec (.chainRead 0#8) s = .next
        { s with
          src := r.source :: y :: xs, trace := s.trace ++ r.events, draws := r.draws
          chain := some { next := 1, acc := r.bits, prev := s.ports.prev, now := s.ports.now }
          result := .none, outcome := .reading }

/-- R105, R103: a CHAIN_READ that no other agent's step interrupts reads every source once, in slot order, each
sub-read with the same `prev` and `now`, and returns the OR of their bits after as many steps as there are sources: the
checks and the first sub-read are one step and an empty schedule gives POLL the next one (log 10). -/
def Obligations.ChainReadOrsEveryRead : Prop :=
  ∀ (s : State) (r : Request), (∀ e, s.phase ≠ .terminated e) → s.chain = none → s.inbox = [.op r] →
    r.desc = 0x18000000#32 → PollTurn { s with ports := r.ports } → s.src ≠ [] →
    let all := readAll r.ports.prev r.ports.now s.src s.draws
    Host.Core.run core s.src.length s = .next
      { s with
        inbox := [], ports := r.ports, src := all.1, trace := s.trace ++ all.2.2.1, draws := all.2.2.2
        lastNow := r.ports.now, result := .bitmap all.2.1, outcome := .completed }

/-- R68, R105, R272: an operation of another agent that comes between two sub-reads of a CHAIN_READ leaves it as it is.
POLL's next sub-read is the same at each schedule that gives POLL the turn (log 10): an empty one, a turn to go on, and
an operation of POLL's own, which waits on the schedule. It reads the next source with the CHAIN_READ's own `prev` and
`now`, ORs its bits into `acc` and goes on, or returns after the last source, `lastNow` keeping the larger time
(log 11). The empty result port in mid CHAIN_READ is log 17. -/
def Obligations.OtherAgentsComeBetweenSubReads : Prop :=
  (∀ (i : Instr) (s t : State), s.ports.agent ≠ .poll → exec i s = .next t → t.chain = s.chain) ∧
  (∀ (s : State) (c : ChainRead) (x : Source) (left : List Turn), (∀ e, s.phase ≠ .terminated e) →
    s.chain = some c → s.src[c.next]? = some x →
    ((s.inbox = [] ∧ left = []) ∨ s.inbox = .advance :: left ∨
      ∃ r rest, s.inbox = .op r :: rest ∧ r.ports.agent = .poll ∧ left = s.inbox) →
    let read := readSource x c.prev c.now s.draws
    let src := s.src.set c.next read.source
    let trace := s.trace ++ read.events
    let acc := c.acc ||| read.bits
    step s = .next (
      if c.next + 1 < s.src.length then
        { s with
          inbox := left, src := src, trace := trace, draws := read.draws
          chain := some { next := c.next + 1, acc := acc, prev := c.prev, now := c.now }
          result := .none, outcome := .reading }
      else
        { s with
          inbox := left, src := src, trace := trace, draws := read.draws, chain := none
          lastNow := if s.lastNow < c.now then c.now else s.lastNow
          result := .bitmap acc, outcome := .completed }))

/-- R102: the bits a CHAIN_READ returns lie in the chain mask, so bits of unconfigured input numbers stay 0: at its
first sub-read from every state, and at its later ones from every state of the invariant. -/
def Obligations.ChainReadStaysInTheChainMask : Prop :=
  (∀ (u : UnitIx) (s t : State) (b : InputBitmap), exec (.chainRead u) s = .next t → t.result = .bitmap b →
    b &&& ~~~s.chainMask = 0#64) ∧
  (∀ (s t : State) (c : ChainRead) (b : InputBitmap), s.Inv → s.chain = some c → t.chain = none →
    step s = .next t → t.result = .bitmap b → b &&& ~~~s.chainMask = 0#64)

/-- R109 (property P2): with each report fed back as the next `prev`, a new pressed or released value seen from `t0` on
does not change the reported bit at reads less than a window after `t0`, and is reported by a read a window or more
after it. -/
def Obligations.DirectPinDebounce : Prop :=
  ∀ (cfg : DpinCfg) (st : DpinSt) (reported v : Bool) (t0 : Time) (later : List Time), st.lastRaw = !v →
    let final := ((v, t0) :: later.map (fun t => (v, t))).foldl (dpinFeed cfg) (st, reported)
    ((∀ t ∈ t0 :: later, t - t0 < cfg.window) → final.2 = reported) ∧
    (∀ t, (t0 :: later).getLast? = some t → cfg.window ≤ t - t0 → final.2 = v)

/-- R116: with each result fed back as the next `prev`, a matrix cell sampled closed at `ta` is reported by that scan,
and as long as its later samples are open it stays reported at scans less than a window after `ta` and is released at
the first scan a window or more after it. -/
def Obligations.MatrixReleaseHold : Prop :=
  ∀ (p : Params) (cfg : MatrixCfg) (st : MatrixSt) (prev : InputBitmap) (c : Nat) (n : InputNumber) (ta : Time)
    (d : Draws) (later : List (Time × Draws)),
    (Source.matrix cfg st).WellFormed p → cfg.map[c]? = some n →
    (Draws.levels cfg.map.length d).1[c]? = some cfg.inActive →
    (∀ scan ∈ later, (Draws.levels cfg.map.length scan.2).1[c]? ≠ some cfg.inActive) →
    let first := matrixFeed cfg (st, prev) (ta, d)
    let final := later.foldl (matrixFeed cfg) first
    first.2.getLsbD n = true ∧
    ((∀ scan ∈ later, scan.1 - ta < cfg.window) → final.2.getLsbD n = true) ∧
    ((∃ scan ∈ later, cfg.window ≤ scan.1 - ta) → final.2.getLsbD n = false)

/-! ### The rotary encoder (41_rotary_encoder.md) -/

/-- R153 with R151, R154: in the standard encoding ENC_EDGE draws line A then line B, keeps the previous and this
sample in `code`, keeps the last two valid codes in `seq`, and pushes the direction whose detent sequence `seq` is. The
empty result port is the model's choice (log 17). -/
def Obligations.EncEdgeDecodesStandard : Prop :=
  ∀ (u : UnitIx) (s : State) (cfg : EncoderCfg) (st : EncoderSt), EdgeTurn u s →
    s.src[u.toNat]? = some (.encoder cfg st) → st.irqEnabled = true → cfg.alternate = false →
    let a := s.draws.pinRead
    let b := a.2.pinRead
    let code : BitVec 4 := st.code.extractLsb' 0 2 ++ (b.1 ++ a.1)
    let seq : BitVec 8 := st.seq.extractLsb' 0 4 ++ code
    let st' : EncoderSt := { st with code := code, seq := seq }
    decode (0x20#8 ++ u ++ 0#16) = .ok (.encEdge u) ∧
    exec (.encEdge u) s = .next
      { s with
        src := s.src.set u.toNat (.encoder cfg (
          if validCode s.params code = false then { st with code := code }
          else if seq = s.params.detentCw then push .cw st'
          else if seq = s.params.detentCcw then push .ccw st'
          else st'))
        draws := b.2
        lastNow := s.ports.now, result := .none, outcome := .completed }

/-- R155: in the alternate encoding ENC_EDGE pushes what the transition key emits, if the key is valid and emits, and
`alt` advances at every sample. -/
def Obligations.EncEdgeDecodesAlternate : Prop :=
  ∀ (u : UnitIx) (s : State) (cfg : EncoderCfg) (st : EncoderSt), EdgeTurn u s →
    s.src[u.toNat]? = some (.encoder cfg st) → st.irqEnabled = true → cfg.alternate = true → AltWellFormed s.params →
    let a := s.draws.pinRead
    let b := a.2.pinRead
    let nxt : BitVec 4 := st.alt.extractLsb' 0 2 ++ (b.1 ++ a.1)
    let key : BitVec 8 := st.alt ++ nxt
    let after (x : EncoderSt) : State :=
      { s with
        src := s.src.set u.toNat (.encoder cfg { x with alt := nxt }), draws := b.2
        lastNow := s.ports.now, result := .none, outcome := .completed }
    (∀ dir, key ∈ s.params.altValid → (key, dir) ∈ s.params.altEmit →
      exec (.encEdge u) s = .next (after (push dir st))) ∧
    ((key ∉ s.params.altValid ∨ ∀ dir, (key, dir) ∉ s.params.altEmit) →
      exec (.encEdge u) s = .next (after st))

/-- R157, R158: Push writes the slot at `tail` and advances `tail` modulo 64 unless the queue is full; Pop gives the
slot at `head` and advances `head` modulo 64; a written slot reads as written and the others as before. -/
def Obligations.QueuePushAndPop : Prop :=
  ∀ (d : Dir) (st : EncoderSt),
    ((st.tail.toNat + 1) % 64 = st.head.toNat → push d st = st) ∧
    ((st.tail.toNat + 1) % 64 ≠ st.head.toNat →
      push d st = { st with slots := (push d st).slots, tail := BitVec.ofNat 6 ((st.tail.toNat + 1) % 64) } ∧
      ∀ k, slotAt (push d st).slots k = if k = st.tail then d else slotAt st.slots k) ∧
    pop st = (slotAt st.slots st.head, { st with head := BitVec.ofNat 6 ((st.head.toNat + 1) % 64) })

/-- R157 to R159: the ring of 64 slots is a first-in first-out queue of at most 63 detents: Push appends unless 63 are
queued, when it changes nothing; Pop removes the oldest; `head = tail` exactly when the queue is empty. -/
def Obligations.QueueRefinesABoundedFifo : Prop :=
  ∀ (d : Dir) (st : EncoderSt),
    st.entries.length ≤ 63 ∧ (st.entries = [] ↔ st.head = st.tail) ∧
    (st.entries.length < 63 → (push d st).entries = st.entries ++ [d]) ∧
    (st.entries.length = 63 → push d st = st) ∧
    (st.head ≠ st.tail → st.entries = (pop st).1 :: (pop st).2.entries)

/-- R159 (property P9): an ENC_EDGE that meets a full queue completes and leaves the queued entries, `head` and `tail`
as they were; so does ENC_EDGE in either encoding. -/
def Obligations.FullQueueDropsTheNewDetent : Prop :=
  ∀ (u : UnitIx) (s : State) (cfg : EncoderCfg) (st : EncoderSt), EdgeTurn u s →
    s.src[u.toNat]? = some (.encoder cfg st) → st.irqEnabled = true → st.tail + 1#6 = st.head →
    ∃ t st', exec (.encEdge u) s = .next t ∧ t.outcome = .completed ∧
      t.src = s.src.set u.toNat (.encoder cfg st') ∧
      st'.head = st.head ∧ st'.tail = st.tail ∧ st'.slots = st.slots ∧ st'.pending = st.pending ∧
      st'.entries = st.entries ∧ st.entries.length = 63

/-- R161: a read of an encoder with a queued detent and no pending release gives exactly that detent's bit, and the next
read gives 0 and leaves the queue as the first left it, so two reads drain one detent. -/
def Obligations.PressThenRelease : Prop :=
  ∀ (cfg : EncoderCfg) (st : EncoderSt) (d : Dir) (rest : List Dir), st.pending = false → st.entries = d :: rest →
    let first := readEncoder cfg st
    let second := readEncoder cfg first.2
    first.1 = (match d with | .cw => 1#64 <<< cfg.cw.val | .ccw => 1#64 <<< cfg.ccw.val) ∧
      first.2.pending = true ∧ first.2.entries = rest ∧
      second.1 = 0#64 ∧ second.2.pending = false ∧ second.2.entries = rest

/-- R162 (property P3): with the default tables, an empty queue, no pending release and the encoder at rest at `11`,
the clockwise detent's four samples queue exactly one CW detent and the mirrored ones exactly one CCW detent, and two
reads then give its bit and 0. -/
def Obligations.OneDetentQueuesOneEvent : Prop :=
  ∀ (p : Params) (cfg : EncoderCfg) (st : EncoderSt), cfg.alternate = false → p.valid = grayValid →
    p.detentCw = 0x17#8 → p.detentCcw = 0x2B#8 → st.head = st.tail → st.pending = false →
    st.code.extractLsb' 0 2 = 0b11#2 →
    let turned := decodeAll p cfg [0b10#2, 0b00#2, 0b01#2, 0b11#2] st
    let mirrored := decodeAll p cfg [0b01#2, 0b00#2, 0b10#2, 0b11#2] st
    turned.entries = [.cw] ∧ mirrored.entries = [.ccw] ∧
      (readEncoder cfg turned).1 = 1#64 <<< cfg.cw.val ∧
      (readEncoder cfg (readEncoder cfg turned).2).1 = 0#64 ∧
      (readEncoder cfg mirrored).1 = 1#64 <<< cfg.ccw.val ∧
      (readEncoder cfg (readEncoder cfg mirrored).2).1 = 0#64

/-- R36: no rule reads a slot that has not been written: two encoders that differ only in slots outside the queue read
the same bits and keep the same queue through reads and pushes. -/
def Obligations.UnwrittenSlotsAreNeverObserved : Prop :=
  ∀ (cfg : EncoderCfg) (st : EncoderSt) (slots : BitVec 64) (d : Dir),
    let st' : EncoderSt := { st with slots := slots }
    st'.entries = st.entries →
    (readEncoder cfg st').1 = (readEncoder cfg st).1 ∧
      (readEncoder cfg st').2.entries = (readEncoder cfg st).2.entries ∧
      (readEncoder cfg st').2.pending = (readEncoder cfg st).2.pending ∧
      (push d st').entries = (push d st).entries

/-- R69, R70: the producer, ENC_EDGE, writes only its own unit's decoder state, slots and `tail`; every other operation
leaves the decoder state, the slots and `tail` of every existing encoder as they are. -/
def Obligations.QueueSidesHaveOneWriter : Prop :=
  (∀ (u : UnitIx) (s t : State), exec (.encEdge u) s = .next t → t.outcome = .completed →
    ∃ cfg st st', s.src[u.toNat]? = some (.encoder cfg st) ∧ t.src = s.src.set u.toNat (.encoder cfg st') ∧
      st'.head = st.head ∧ st'.pending = st.pending ∧ st'.irqEnabled = st.irqEnabled ∧
      t.trace = s.trace ∧ t.axisLeft = s.axisLeft ∧ t.axisRight = s.axisRight) ∧
  (∀ (i : Instr) (s t : State) (k : Nat) (cfg : EncoderCfg) (st : EncoderSt), rowOf i ≠ .edge → exec i s = .next t →
    s.src[k]? = some (.encoder cfg st) →
    ∃ st', t.src[k]? = some (.encoder cfg st') ∧ st'.code = st.code ∧ st'.seq = st.seq ∧ st'.alt = st.alt ∧
      st'.slots = st.slots ∧ st'.tail = st.tail ∧ st'.irqEnabled = st.irqEnabled)

/-- R164, R270: ENC_EDGE steps of different units touch disjoint state: with each unit seeing the same levels, either
order leaves the same sources. -/
def Obligations.EdgesOfDifferentUnitsCommute : Prop :=
  ∀ (u v : UnitIx) (s : State) (cu cv : EncoderCfg) (su sv : EncoderSt) (a b c d : Level) (pins : List Level),
    u ≠ v → (s.phase = .setup ∨ s.phase = .running) → s.lastNow ≤ s.ports.now →
    s.src[u.toNat]? = some (.encoder cu su) → s.src[v.toNat]? = some (.encoder cv sv) →
    su.irqEnabled = true → sv.irqEnabled = true →
    let at_ (w : UnitIx) (x : State) : State := { x with ports := { s.ports with agent := .isr w.toNat } }
    let drawn (x : State) (ls : List Level) : State := { x with draws := { x.draws with pins := ls } }
    ∃ t₁ t₂ r₁ r₂,
      exec (.encEdge u) (at_ u (drawn s (a :: b :: c :: d :: pins))) = .next t₁ ∧
      exec (.encEdge v) (at_ v t₁) = .next t₂ ∧
      exec (.encEdge v) (at_ v (drawn s (c :: d :: a :: b :: pins))) = .next r₁ ∧
      exec (.encEdge u) (at_ u r₁) = .next r₂ ∧
      t₂.src = r₂.src ∧ t₂.draws = r₂.draws ∧ t₂.lastNow = r₂.lastNow

/-! ### The analog axis (42_analog_axis.md) -/

/-- R204 with R203: AX_READ draws a sample in `0..RAW_MAX`, widens the bounds it exceeds, maps it into `0..254` against
the widened bounds with the floor of the quotient (0 for a window of no width), inverts if configured, and flags a
widening; the other axis and the sources are untouched. The value of a window of no width is the spec's own choice
(R203, D21), which the model follows (log 21). -/
def Obligations.AxReadCalibratesAndMaps : Prop :=
  ∀ (u : UnitIx) (s : State) (x : Axis), PollTurn s → s.axisAt u.toNat = some x →
    let raw := (s.draws.analogRead s.params.rawMax).1
    let lo := if raw < x.st.min then raw else x.st.min
    let hi := if x.st.max < raw then raw else x.st.max
    let v := if lo < hi then (raw - lo) * 254 / (hi - lo) else 0
    decode (0x30#8 ++ u ++ 0#16) = .ok (.axRead u) ∧ raw ≤ s.params.rawMax ∧
    ∃ t, exec (.axRead u) s = .next t ∧
      t = { s with
            axisLeft := t.axisLeft, axisRight := t.axisRight
            draws := (s.draws.analogRead s.params.rawMax).2
            lastNow := s.ports.now
            result := .axisValue (if x.cfg.inverted then 254 - v else v) (decide (raw < x.st.min ∨ x.st.max < raw))
            outcome := .completed } ∧
      ∀ a, t.axisAt a = if a = u.toNat then some { x with st := { min := lo, max := hi } } else s.axisAt a

/-- R208 with R202: AX_RESET_CAL puts the bounds of its axis back to the sentinels and changes nothing else. The empty
result port is the model's choice (log 17). -/
def Obligations.AxResetCalRestoresTheSentinels : Prop :=
  ∀ (u : UnitIx) (s : State) (x : Axis), PollTurn s → s.axisAt u.toNat = some x →
    decode (0x31#8 ++ u ++ 0#16) = .ok (.axResetCal u) ∧
    ∃ t, exec (.axResetCal u) s = .next t ∧
      t = { s with
            axisLeft := t.axisLeft, axisRight := t.axisRight
            lastNow := s.ports.now, result := .none, outcome := .completed } ∧
      ∀ a, t.axisAt a = if a = u.toNat then some { x with st := { min := s.params.rawMax, max := 0 } } else s.axisAt a

/-- R210: AX_SET_CAL restores the bounds of its axis from the calibration port, each clamped to `0..RAW_MAX` and never
refused, and changes nothing else. The empty result port is the model's choice (log 17). -/
def Obligations.AxSetCalClampsTheBounds : Prop :=
  ∀ (u : UnitIx) (s : State) (x : Axis), RestoreTurn s → s.axisAt u.toNat = some x →
    decode (0x32#8 ++ u ++ 0#16) = .ok (.axSetCal u) ∧
    ∃ t, exec (.axSetCal u) s = .next t ∧
      t = { s with
            axisLeft := t.axisLeft, axisRight := t.axisRight
            lastNow := s.ports.now, result := .none, outcome := .completed } ∧
      ∀ a, t.axisAt a =
        if a = u.toNat then
          some { x with st := { min := min s.ports.cal.1 s.params.rawMax, max := min s.ports.cal.2 s.params.rawMax } }
        else s.axisAt a

/-- R212: AX_GET_CAL gives the bounds of its axis on the result port and writes no state. -/
def Obligations.AxGetCalReadsTheBounds : Prop :=
  ∀ (u : UnitIx) (s : State) (x : Axis), QueryTurn s → s.axisAt u.toNat = some x →
    decode (0x33#8 ++ u ++ 0#16) = .ok (.axGetCal u) ∧
    exec (.axGetCal u) s = .next
      { s with lastNow := s.ports.now, result := .bounds x.st.min x.st.max, outcome := .completed }

/-- R206: every value AX_READ returns is in `0..254`, so 255 is never produced, and inversion maps `v` to `254 - v`. -/
def Obligations.AxisValuesStayInRange : Prop :=
  (∀ (u : UnitIx) (s t : State) (v : Nat) (f : Bool), exec (.axRead u) s = .next t → t.result = .axisValue v f →
    v ≤ 254 ∧ v ≠ 255) ∧
  (∀ raw lo hi : Nat, axisMap raw lo hi false ≤ 254 ∧ axisMap raw lo hi true = 254 - axisMap raw lo hi false)

/-- R205: after AX_READ the bounds contain the sample; and no operation but AX_RESET_CAL and AX_SET_CAL raises a lower
bound or lowers an upper one. -/
def Obligations.BoundsWidenMonotonically : Prop :=
  (∀ (u : UnitIx) (s t : State), exec (.axRead u) s = .next t → t.outcome = .completed →
    ∃ y, t.axisAt u.toNat = some y ∧ y.st.min ≤ (s.draws.analogRead s.params.rawMax).1 ∧
      (s.draws.analogRead s.params.rawMax).1 ≤ y.st.max) ∧
  (∀ (i : Instr) (s t : State) (a : Nat) (x : Axis), (∀ u, i ≠ .axResetCal u) → (∀ u, i ≠ .axSetCal u) →
    exec i s = .next t → s.axisAt a = some x →
    ∃ y, t.axisAt a = some y ∧ y.cfg = x.cfg ∧ y.st.min ≤ x.st.min ∧ x.st.max ≤ y.st.max)

/-! ### The whole block -/

/-- R290: the power-on reset state, whatever the parameters. -/
def Obligations.ResetStateHoldsTheResetValues : Prop :=
  ∀ p : Params,
    (State.resetWith p).phase = .setup ∧ (State.resetWith p).refused = false ∧ (State.resetWith p).nsrc = 0 ∧
    (∀ u, (State.resetWith p).kindAt u = none) ∧ (∀ a, (State.resetWith p).axisAt a = none) ∧
    (State.resetWith p).lastNow = 0#64 ∧ (State.resetWith p).trace = [] ∧ (State.resetWith p).chain = none

/-- The reset state meets the invariant, whatever the parameters. -/
def Obligations.ResetMeetsTheInvariant : Prop :=
  ∀ p : Params, (State.resetWith p).Inv

/-- Every step keeps the invariant: at most MAX_SOURCES sources, each with legal configuration and matching state
sizes, every encoder's interrupt enabled, axis bounds in `0..RAW_MAX`, and a CHAIN_READ in progress within the chain. -/
def Obligations.StepKeepsTheInvariant : Prop :=
  ∀ s t : State, s.Inv → step s = .next t → t.Inv

/-- R73, R24: a source, once created, keeps its slot and its configuration for ever; sources are only added, at the
end, in phase SETUP; and the parameters never change. -/
def Obligations.ConfigurationIsImmutable : Prop :=
  ∀ s t : State, step s = .next t →
    t.params = s.params ∧
    (∃ added, t.src.map Source.configOnly = s.src.map Source.configOnly ++ added ∧
      (s.phase ≠ .setup → added = []) ∧ added.length ≤ 1) ∧
    ∀ a x, s.axisAt a = some x → ∃ y, t.axisAt a = some y ∧ y.cfg = x.cfg

/-- R26: `lastNow` never decreases, and only an operation that completes moves it. -/
def Obligations.LastNowNeverDecreases : Prop :=
  ∀ s t : State, step s = .next t → s.lastNow ≤ t.lastNow ∧ (t.lastNow ≠ s.lastNow → t.outcome = .completed)

/-- R27: the trace only grows, at its end, and only by the matrix and shift-register operations and the CHAIN_READ
that runs them. -/
def Obligations.TraceOnlyGrows : Prop :=
  (∀ s t : State, step s = .next t → ∃ es, t.trace = s.trace ++ es) ∧
  ∀ (i : Instr) (s t : State), (∀ u, i ≠ .cfgMatrix u) → (∀ u, i ≠ .cfgShiftreg u) → (∀ u, i ≠ .mtxScan u) →
    (∀ u, i ≠ .srRead u) → (∀ u, i ≠ .chainRead u) → exec i s = .next t → t.trace = s.trace
end

