-- ==== Sys2Proof/Laws/Bits.lean ====
section
/-! SUPPORT. The bits of claims and of the chain mask, one input number at a time. -/

namespace Sys2Proof

/-- The bit of an input number is set at that number only. -/
@[simp] theorem inputBit_getLsbD (m n : InputNumber) : (inputBit m).getLsbD n.val = decide (m = n) := by
  unfold inputBit
  rw [BitVec.getLsbD_shiftLeft, BitVec.getLsbD_one]
  have hm := m.isLt
  have hn := n.isLt
  by_cases h : m = n
  · subst h; simp
  · have : m.val ≠ n.val := fun e => h (Fin.ext e)
    rw [decide_eq_false h]
    rcases Nat.lt_or_gt_of_ne this with h' | h'
    · simp [show ¬(n.val - m.val = 0) by omega]
    · simp [h']

/-- The same, as an element of the bit vector. -/
@[simp] theorem inputBit_getElem (m n : InputNumber) : (inputBit m)[n.val] = decide (m = n) := by
  rw [← inputBit_getLsbD, BitVec.getLsbD_eq_getElem]

namespace Machine

/-- Two bitmaps that agree at every input number are equal. -/
theorem bitmap_ext {a b : InputBitmap} (h : ∀ n : InputNumber, a.getLsbD n.val = b.getLsbD n.val) : a = b :=
  BitVec.eq_of_getLsbD_eq fun i hi => h ⟨i, hi⟩

/-- A bitmap lies in a mask exactly when each of its bits does. -/
theorem subset_iff {a m : InputBitmap} :
    a &&& ~~~m = 0#64 ↔ ∀ n : InputNumber, a.getLsbD n.val = true → m.getLsbD n.val = true := by
  constructor
  · intro h n ha
    have := congrArg (fun x => BitVec.getLsbD x n.val) h
    simpa only [BitVec.getLsbD_and, BitVec.getLsbD_not, ha, n.isLt, decide_true, Bool.true_and, BitVec.getLsbD_zero,
      Bool.not_eq_false'] using this
  · intro h
    refine bitmap_ext fun n => ?_
    have := h n
    rw [BitVec.getLsbD_and, BitVec.getLsbD_not, BitVec.getLsbD_zero]
    cases ha : a.getLsbD n.val <;> simp_all

/-- The bits of a list of input numbers. -/
theorem inputBits_getLsbD (ns : List InputNumber) (n : InputNumber) :
    (inputBits ns).getLsbD n.val = true ↔ n ∈ ns := by
  induction ns with
  | nil => simp [inputBits]
  | cons m ns ih =>
    rw [show inputBits (m :: ns) = inputBit m ||| inputBits ns from rfl, BitVec.getLsbD_or, Bool.or_eq_true, ih,
      inputBit_getLsbD, List.mem_cons, decide_eq_true_iff, eq_comm]

/-- The bits of the chain mask (40_digital_sources.md R106). -/
theorem chainMask_getLsbD (s : State) (n : InputNumber) :
    s.chainMask.getLsbD n.val = true ↔ ∃ x ∈ s.src, x.claim.getLsbD n.val = true := by
  unfold State.chainMask
  induction s.src with
  | nil => simp
  | cons x xs ih =>
    rw [List.foldr_cons, BitVec.getLsbD_or, Bool.or_eq_true, ih, List.exists_mem_cons_iff]

end Machine

end Sys2Proof
end

