-- ==== Sys2Proof/Laws/State.lean ====
section
/-! SUPPORT. What each named update of the state does to each field, so that no proof unfolds a record update. -/

namespace Sys2Proof.Machine

/-! ### `setSource` -/

@[simp] theorem State.setSource_params (s : State) (u : Nat) (x : Source) : (s.setSource u x).params = s.params := rfl
@[simp] theorem State.setSource_phase (s : State) (u : Nat) (x : Source) : (s.setSource u x).phase = s.phase := rfl
@[simp] theorem State.setSource_refused (s : State) (u : Nat) (x : Source) : (s.setSource u x).refused = s.refused := rfl
@[simp] theorem State.setSource_src (s : State) (u : Nat) (x : Source) : (s.setSource u x).src = s.src.set u x := rfl
@[simp] theorem State.setSource_axisLeft (s : State) (u : Nat) (x : Source) : (s.setSource u x).axisLeft = s.axisLeft := rfl
@[simp] theorem State.setSource_axisRight (s : State) (u : Nat) (x : Source) : (s.setSource u x).axisRight = s.axisRight := rfl
@[simp] theorem State.setSource_lastNow (s : State) (u : Nat) (x : Source) : (s.setSource u x).lastNow = s.lastNow := rfl
@[simp] theorem State.setSource_trace (s : State) (u : Nat) (x : Source) : (s.setSource u x).trace = s.trace := rfl
@[simp] theorem State.setSource_ports (s : State) (u : Nat) (x : Source) : (s.setSource u x).ports = s.ports := rfl
@[simp] theorem State.setSource_result (s : State) (u : Nat) (x : Source) : (s.setSource u x).result = s.result := rfl
@[simp] theorem State.setSource_chain (s : State) (u : Nat) (x : Source) : (s.setSource u x).chain = s.chain := rfl
@[simp] theorem State.setSource_draws (s : State) (u : Nat) (x : Source) : (s.setSource u x).draws = s.draws := rfl
@[simp] theorem State.setSource_inbox (s : State) (u : Nat) (x : Source) : (s.setSource u x).inbox = s.inbox := rfl
@[simp] theorem State.setSource_outcome (s : State) (u : Nat) (x : Source) : (s.setSource u x).outcome = s.outcome := rfl

/-! ### `addSource` -/

@[simp] theorem State.addSource_params (s : State) (x : Source) : (s.addSource x).params = s.params := rfl
@[simp] theorem State.addSource_phase (s : State) (x : Source) : (s.addSource x).phase = s.phase := rfl
@[simp] theorem State.addSource_refused (s : State) (x : Source) : (s.addSource x).refused = s.refused := rfl
@[simp] theorem State.addSource_src (s : State) (x : Source) : (s.addSource x).src = s.src ++ [x] := rfl
@[simp] theorem State.addSource_axisLeft (s : State) (x : Source) : (s.addSource x).axisLeft = s.axisLeft := rfl
@[simp] theorem State.addSource_axisRight (s : State) (x : Source) : (s.addSource x).axisRight = s.axisRight := rfl
@[simp] theorem State.addSource_lastNow (s : State) (x : Source) : (s.addSource x).lastNow = s.lastNow := rfl
@[simp] theorem State.addSource_trace (s : State) (x : Source) : (s.addSource x).trace = s.trace := rfl
@[simp] theorem State.addSource_ports (s : State) (x : Source) : (s.addSource x).ports = s.ports := rfl
@[simp] theorem State.addSource_result (s : State) (x : Source) : (s.addSource x).result = s.result := rfl
@[simp] theorem State.addSource_chain (s : State) (x : Source) : (s.addSource x).chain = s.chain := rfl
@[simp] theorem State.addSource_draws (s : State) (x : Source) : (s.addSource x).draws = s.draws := rfl
@[simp] theorem State.addSource_inbox (s : State) (x : Source) : (s.addSource x).inbox = s.inbox := rfl
@[simp] theorem State.addSource_outcome (s : State) (x : Source) : (s.addSource x).outcome = s.outcome := rfl

/-! ### `record` -/

@[simp] theorem State.record_params (s : State) (es : List PinEvent) : (s.record es).params = s.params := rfl
@[simp] theorem State.record_phase (s : State) (es : List PinEvent) : (s.record es).phase = s.phase := rfl
@[simp] theorem State.record_refused (s : State) (es : List PinEvent) : (s.record es).refused = s.refused := rfl
@[simp] theorem State.record_src (s : State) (es : List PinEvent) : (s.record es).src = s.src := rfl
@[simp] theorem State.record_axisLeft (s : State) (es : List PinEvent) : (s.record es).axisLeft = s.axisLeft := rfl
@[simp] theorem State.record_axisRight (s : State) (es : List PinEvent) : (s.record es).axisRight = s.axisRight := rfl
@[simp] theorem State.record_lastNow (s : State) (es : List PinEvent) : (s.record es).lastNow = s.lastNow := rfl
@[simp] theorem State.record_trace (s : State) (es : List PinEvent) : (s.record es).trace = s.trace ++ es := rfl
@[simp] theorem State.record_ports (s : State) (es : List PinEvent) : (s.record es).ports = s.ports := rfl
@[simp] theorem State.record_result (s : State) (es : List PinEvent) : (s.record es).result = s.result := rfl
@[simp] theorem State.record_chain (s : State) (es : List PinEvent) : (s.record es).chain = s.chain := rfl
@[simp] theorem State.record_draws (s : State) (es : List PinEvent) : (s.record es).draws = s.draws := rfl
@[simp] theorem State.record_inbox (s : State) (es : List PinEvent) : (s.record es).inbox = s.inbox := rfl
@[simp] theorem State.record_outcome (s : State) (es : List PinEvent) : (s.record es).outcome = s.outcome := rfl

/-! ### `commitRead` -/

@[simp] theorem State.commitRead_params (s : State) (u : Nat) (r : UnitRead) : (s.commitRead u r).params = s.params := rfl
@[simp] theorem State.commitRead_phase (s : State) (u : Nat) (r : UnitRead) : (s.commitRead u r).phase = s.phase := rfl
@[simp] theorem State.commitRead_refused (s : State) (u : Nat) (r : UnitRead) : (s.commitRead u r).refused = s.refused := rfl
@[simp] theorem State.commitRead_src (s : State) (u : Nat) (r : UnitRead) : (s.commitRead u r).src = s.src.set u r.source := rfl
@[simp] theorem State.commitRead_axisLeft (s : State) (u : Nat) (r : UnitRead) : (s.commitRead u r).axisLeft = s.axisLeft := rfl
@[simp] theorem State.commitRead_axisRight (s : State) (u : Nat) (r : UnitRead) : (s.commitRead u r).axisRight = s.axisRight := rfl
@[simp] theorem State.commitRead_lastNow (s : State) (u : Nat) (r : UnitRead) : (s.commitRead u r).lastNow = s.lastNow := rfl
@[simp] theorem State.commitRead_trace (s : State) (u : Nat) (r : UnitRead) : (s.commitRead u r).trace = s.trace ++ r.events := rfl
@[simp] theorem State.commitRead_ports (s : State) (u : Nat) (r : UnitRead) : (s.commitRead u r).ports = s.ports := rfl
@[simp] theorem State.commitRead_result (s : State) (u : Nat) (r : UnitRead) : (s.commitRead u r).result = s.result := rfl
@[simp] theorem State.commitRead_chain (s : State) (u : Nat) (r : UnitRead) : (s.commitRead u r).chain = s.chain := rfl
@[simp] theorem State.commitRead_draws (s : State) (u : Nat) (r : UnitRead) : (s.commitRead u r).draws = r.draws := rfl
@[simp] theorem State.commitRead_inbox (s : State) (u : Nat) (r : UnitRead) : (s.commitRead u r).inbox = s.inbox := rfl
@[simp] theorem State.commitRead_outcome (s : State) (u : Nat) (r : UnitRead) : (s.commitRead u r).outcome = s.outcome := rfl

/-! ### `complete` -/

@[simp] theorem complete_params (s : State) (r : Result) : (complete r s).params = s.params := rfl
@[simp] theorem complete_phase (s : State) (r : Result) : (complete r s).phase = s.phase := rfl
@[simp] theorem complete_refused (s : State) (r : Result) : (complete r s).refused = s.refused := rfl
@[simp] theorem complete_src (s : State) (r : Result) : (complete r s).src = s.src := rfl
@[simp] theorem complete_axisLeft (s : State) (r : Result) : (complete r s).axisLeft = s.axisLeft := rfl
@[simp] theorem complete_axisRight (s : State) (r : Result) : (complete r s).axisRight = s.axisRight := rfl
@[simp] theorem complete_lastNow (s : State) (r : Result) : (complete r s).lastNow = s.ports.now := rfl
@[simp] theorem complete_trace (s : State) (r : Result) : (complete r s).trace = s.trace := rfl
@[simp] theorem complete_ports (s : State) (r : Result) : (complete r s).ports = s.ports := rfl
@[simp] theorem complete_result (s : State) (r : Result) : (complete r s).result = r := rfl
@[simp] theorem complete_chain (s : State) (r : Result) : (complete r s).chain = s.chain := rfl
@[simp] theorem complete_draws (s : State) (r : Result) : (complete r s).draws = s.draws := rfl
@[simp] theorem complete_inbox (s : State) (r : Result) : (complete r s).inbox = s.inbox := rfl
@[simp] theorem complete_outcome (s : State) (r : Result) : (complete r s).outcome = .completed := rfl

/-! ### `raiseConfigError` -/

@[simp] theorem raiseConfigError_params (s : State) (e : ConfigError) : (raiseConfigError e s).params = s.params := rfl
@[simp] theorem raiseConfigError_phase (s : State) (e : ConfigError) : (raiseConfigError e s).phase = .terminated e := rfl
@[simp] theorem raiseConfigError_refused (s : State) (e : ConfigError) : (raiseConfigError e s).refused = s.refused := rfl
@[simp] theorem raiseConfigError_src (s : State) (e : ConfigError) : (raiseConfigError e s).src = s.src := rfl
@[simp] theorem raiseConfigError_axisLeft (s : State) (e : ConfigError) : (raiseConfigError e s).axisLeft = s.axisLeft := rfl
@[simp] theorem raiseConfigError_axisRight (s : State) (e : ConfigError) : (raiseConfigError e s).axisRight = s.axisRight := rfl
@[simp] theorem raiseConfigError_lastNow (s : State) (e : ConfigError) : (raiseConfigError e s).lastNow = s.lastNow := rfl
@[simp] theorem raiseConfigError_trace (s : State) (e : ConfigError) : (raiseConfigError e s).trace = s.trace := rfl
@[simp] theorem raiseConfigError_ports (s : State) (e : ConfigError) : (raiseConfigError e s).ports = s.ports := rfl
@[simp] theorem raiseConfigError_result (s : State) (e : ConfigError) : (raiseConfigError e s).result = .none := rfl
@[simp] theorem raiseConfigError_chain (s : State) (e : ConfigError) : (raiseConfigError e s).chain = s.chain := rfl
@[simp] theorem raiseConfigError_draws (s : State) (e : ConfigError) : (raiseConfigError e s).draws = s.draws := rfl
@[simp] theorem raiseConfigError_inbox (s : State) (e : ConfigError) : (raiseConfigError e s).inbox = s.inbox := rfl
@[simp] theorem raiseConfigError_outcome (s : State) (e : ConfigError) : (raiseConfigError e s).outcome = .terminated e := rfl

/-! ### `refuse` -/

@[simp] theorem refuse_params (s : State) (r : RefuseReason) : (refuse r s).params = s.params := rfl
@[simp] theorem refuse_phase (s : State) (r : RefuseReason) : (refuse r s).phase = s.phase := rfl
@[simp] theorem refuse_refused (s : State) (r : RefuseReason) : (refuse r s).refused = true := rfl
@[simp] theorem refuse_src (s : State) (r : RefuseReason) : (refuse r s).src = s.src := rfl
@[simp] theorem refuse_axisLeft (s : State) (r : RefuseReason) : (refuse r s).axisLeft = s.axisLeft := rfl
@[simp] theorem refuse_axisRight (s : State) (r : RefuseReason) : (refuse r s).axisRight = s.axisRight := rfl
@[simp] theorem refuse_lastNow (s : State) (r : RefuseReason) : (refuse r s).lastNow = s.lastNow := rfl
@[simp] theorem refuse_trace (s : State) (r : RefuseReason) : (refuse r s).trace = s.trace := rfl
@[simp] theorem refuse_ports (s : State) (r : RefuseReason) : (refuse r s).ports = s.ports := rfl
@[simp] theorem refuse_result (s : State) (r : RefuseReason) : (refuse r s).result = .none := rfl
@[simp] theorem refuse_chain (s : State) (r : RefuseReason) : (refuse r s).chain = s.chain := rfl
@[simp] theorem refuse_draws (s : State) (r : RefuseReason) : (refuse r s).draws = s.draws := rfl
@[simp] theorem refuse_inbox (s : State) (r : RefuseReason) : (refuse r s).inbox = s.inbox := rfl
@[simp] theorem refuse_outcome (s : State) (r : RefuseReason) : (refuse r s).outcome = .refused r := rfl

/-! ### `chainFinish` -/

@[simp] theorem chainFinish_params (s : State) (c : ChainRead) : (chainFinish c s).params = s.params := rfl
@[simp] theorem chainFinish_phase (s : State) (c : ChainRead) : (chainFinish c s).phase = s.phase := rfl
@[simp] theorem chainFinish_refused (s : State) (c : ChainRead) : (chainFinish c s).refused = s.refused := rfl
@[simp] theorem chainFinish_src (s : State) (c : ChainRead) : (chainFinish c s).src = s.src := rfl
@[simp] theorem chainFinish_axisLeft (s : State) (c : ChainRead) : (chainFinish c s).axisLeft = s.axisLeft := rfl
@[simp] theorem chainFinish_axisRight (s : State) (c : ChainRead) : (chainFinish c s).axisRight = s.axisRight := rfl
@[simp] theorem chainFinish_lastNow (s : State) (c : ChainRead) : (chainFinish c s).lastNow = if s.lastNow < c.now then c.now else s.lastNow := rfl
@[simp] theorem chainFinish_trace (s : State) (c : ChainRead) : (chainFinish c s).trace = s.trace := rfl
@[simp] theorem chainFinish_ports (s : State) (c : ChainRead) : (chainFinish c s).ports = s.ports := rfl
@[simp] theorem chainFinish_result (s : State) (c : ChainRead) : (chainFinish c s).result = .bitmap c.acc := rfl
@[simp] theorem chainFinish_chain (s : State) (c : ChainRead) : (chainFinish c s).chain = none := rfl
@[simp] theorem chainFinish_draws (s : State) (c : ChainRead) : (chainFinish c s).draws = s.draws := rfl
@[simp] theorem chainFinish_inbox (s : State) (c : ChainRead) : (chainFinish c s).inbox = s.inbox := rfl
@[simp] theorem chainFinish_outcome (s : State) (c : ChainRead) : (chainFinish c s).outcome = .completed := rfl

/-! ### `setAxis` -/

@[simp] theorem State.setAxis_params (s : State) (a : Nat) (x : Axis) : (s.setAxis a x).params = s.params := by
  unfold State.setAxis; split <;> rfl
@[simp] theorem State.setAxis_phase (s : State) (a : Nat) (x : Axis) : (s.setAxis a x).phase = s.phase := by
  unfold State.setAxis; split <;> rfl
@[simp] theorem State.setAxis_refused (s : State) (a : Nat) (x : Axis) : (s.setAxis a x).refused = s.refused := by
  unfold State.setAxis; split <;> rfl
@[simp] theorem State.setAxis_src (s : State) (a : Nat) (x : Axis) : (s.setAxis a x).src = s.src := by
  unfold State.setAxis; split <;> rfl
@[simp] theorem State.setAxis_lastNow (s : State) (a : Nat) (x : Axis) : (s.setAxis a x).lastNow = s.lastNow := by
  unfold State.setAxis; split <;> rfl
@[simp] theorem State.setAxis_trace (s : State) (a : Nat) (x : Axis) : (s.setAxis a x).trace = s.trace := by
  unfold State.setAxis; split <;> rfl
@[simp] theorem State.setAxis_ports (s : State) (a : Nat) (x : Axis) : (s.setAxis a x).ports = s.ports := by
  unfold State.setAxis; split <;> rfl
@[simp] theorem State.setAxis_result (s : State) (a : Nat) (x : Axis) : (s.setAxis a x).result = s.result := by
  unfold State.setAxis; split <;> rfl
@[simp] theorem State.setAxis_chain (s : State) (a : Nat) (x : Axis) : (s.setAxis a x).chain = s.chain := by
  unfold State.setAxis; split <;> rfl
@[simp] theorem State.setAxis_draws (s : State) (a : Nat) (x : Axis) : (s.setAxis a x).draws = s.draws := by
  unfold State.setAxis; split <;> rfl
@[simp] theorem State.setAxis_inbox (s : State) (a : Nat) (x : Axis) : (s.setAxis a x).inbox = s.inbox := by
  unfold State.setAxis; split <;> rfl
@[simp] theorem State.setAxis_outcome (s : State) (a : Nat) (x : Axis) : (s.setAxis a x).outcome = s.outcome := by
  unfold State.setAxis; split <;> rfl

/-- An axis written is read back; any other axis is unchanged. -/
theorem State.axisAt_setAxis (s : State) (a b : Nat) (x : Axis) (ha : a < 2) :
    (s.setAxis a x).axisAt b = if b = a then some x else s.axisAt b := by
  have : a = 0 ∨ a = 1 := by omega
  rcases this with rfl | rfl <;> rcases b with _ | _ | b <;> simp [State.setAxis, State.axisAt]

/-- Only the two axes of `MAX_AXES` exist. -/
theorem State.axisAt_lt (s : State) (a : Nat) (x : Axis) (h : s.axisAt a = some x) : a < 2 := by
  rcases a with _ | _ | a <;> simp_all [State.axisAt]

end Sys2Proof.Machine
end

