-- ==== Sys2Proof/Laws/Ops.lean ====
section
/-! SUPPORT. One lemma per shared operation: everything it can do. Later proofs cite these and unfold none of them. -/

namespace Sys2Proof.Machine

/-! ### Draws -/

/-- A draw of a level touches only the levels and the counter. -/
theorem Draws.pinRead_frame (d : Draws) : d.pinRead.2.raws = d.raws ∧ d.pinRead.2.exts = d.exts := by
  unfold Draws.pinRead; split <;> simp

/-- A supplied level is drawn as supplied. -/
@[simp] theorem Draws.pinRead_cons (l : Level) (ls : List Level) (raws exts : List Nat) (c : Nat) :
    Draws.pinRead { pins := l :: ls, raws := raws, exts := exts, count := c } =
      (l, { pins := ls, raws := raws, exts := exts, count := c }) := rfl

/-- A sample lies in `0..RAW_MAX`. -/
theorem Draws.analogRead_le (d : Draws) (m : Nat) : (d.analogRead m).1 ≤ m := by
  unfold Draws.analogRead; split <;> exact Nat.min_le_right _ _

/-! ### Answers and checks -/

/-- The next states an objection can be answered with. -/
theorem answer_next {o : Objection} {s t : State} (h : answer o s = .next t) :
    (∃ e, o = .raise e ∧ t = raiseConfigError e s) ∨ ∃ r, o = .refuse r ∧ t = refuse r s := by
  cases o <;> simp_all [answer]

/-- An agent has no step exactly when the spec's own terms say so. -/
theorem agentNoStep_none {s : State} : agentNoStep s = none ↔ AgentSteps s := by
  unfold agentNoStep AgentSteps
  cases hp : s.phase <;> cases ha : s.ports.agent <;> simp [State.kindAt]
  all_goals
    rename_i u
    cases hx : s.src[u]? with
    | none => simp
    | some x => cases x <;> simp [Source.kind]

/-- In TERMINATED every agent's step is missing for that reason. -/
theorem agentNoStep_terminated {s : State} {e : ConfigError} (h : s.phase = .terminated e) :
    agentNoStep s = some .processTerminated := by simp [agentNoStep, h]

/-- All checks pass exactly when each one does. -/
theorem precheck_none {k : OpClass} {u : UnitIx} {ok : Bool} {s : State} :
    precheck k u ok s = none ↔
      AgentSteps s ∧ agentAllowed k u s.phase s.ports.agent = true ∧ phaseObjection k s.phase = none ∧ ok = true ∧
        (k = .edge → s.irqEnabledAt u.toNat = true) ∧ s.lastNow ≤ s.ports.now := by
  rw [← agentNoStep_none]
  unfold precheck
  cases agentNoStep s <;> simp
  cases agentAllowed k u s.phase s.ports.agent <;> simp
  cases phaseObjection k s.phase <;> simp
  cases ok <;> simp
  by_cases hk : k = .edge <;> cases s.irqEnabledAt u.toNat <;> simp [hk]

/-- The only error a check raises is CFG_AFTER_START, for a CFG operation in RUNNING. -/
theorem precheck_raise {k : OpClass} {u : UnitIx} {ok : Bool} {s : State} {e : ConfigError}
    (h : precheck k u ok s = some (.raise e)) : e = .afterStart ∧ k = .config ∧ s.phase = .running := by
  unfold precheck at h
  split at h
  · simp at h
  · split at h
    · simp at h
    · split at h
      · rename_i o ho
        unfold phaseObjection at ho
        split at ho <;> simp_all
      · split at h
        · simp at h
        · split at h <;> simp at h

/-- The next states of a checked operation: its rule's, a refused one, or CFG_AFTER_START's. -/
theorem checked_next {k : OpClass} {u : UnitIx} {ok : Bool} {rule : State → Host.Outcome State Fault Refusal}
    {s t : State} (h : checked k u ok rule s = .next t) :
    (precheck k u ok s = none ∧ rule s = .next t) ∨ (∃ r, t = refuse r s) ∨
      (k = .config ∧ s.phase = .running ∧ t = raiseConfigError .afterStart s) := by
  unfold checked at h
  split at h
  · rename_i o ho
    rcases answer_next h with ⟨e, rfl, rfl⟩ | ⟨r, rfl, rfl⟩
    · obtain ⟨rfl, h1, h2⟩ := precheck_raise ho
      exact .inr (.inr ⟨h1, h2, rfl⟩)
    · exact .inr (.inl ⟨r, rfl⟩)
  · exact .inl ⟨‹_›, h⟩

/-- A checked operation all of whose checks pass runs its rule. -/
theorem checked_pass {k : OpClass} {u : UnitIx} {ok : Bool} {rule : State → Host.Outcome State Fault Refusal}
    {s : State} (h : precheck k u ok s = none) : checked k u ok rule s = rule s := by simp [checked, h]

/-- The next states of a registration: the error's, the refusal's, or the created unit's. -/
theorem registered_next {α : Type} {v : Validated α} {create : α → State → State} {s t : State}
    (h : registered v create s = .next t) :
    (∃ c, v = .ok c ∧ t = complete .none (create c s)) ∨ (∃ e, v = .error (.raise e) ∧ t = raiseConfigError e s) ∨
      ∃ r, v = .error (.refuse r) ∧ t = refuse r s := by
  unfold registered at h
  split at h
  · rcases answer_next h with ⟨e, rfl, rfl⟩ | ⟨r, rfl, rfl⟩
    · exact .inr (.inl ⟨e, rfl, rfl⟩)
    · exact .inr (.inr ⟨r, rfl, rfl⟩)
  · cases h; exact .inl ⟨_, rfl, rfl⟩

/-- The next states of a single-source read whose unit exists. -/
theorem runRead_some {u : UnitIx} {s : State} {x : Source} (hx : s.src[u.toNat]? = some x) :
    runRead u s = .next (complete (.bitmap (readSource x s.ports.prev s.ports.now s.draws).bits)
      (s.commitRead u.toNat (readSource x s.ports.prev s.ports.now s.draws))) := by simp [runRead, hx]

/-- The rule of an axis operation whose axis is configured. -/
theorem onAxis_some {u : UnitIx} {s : State} {x : Axis} {rule : Axis → State → Host.Outcome State Fault Refusal}
    (hx : s.axisAt u.toNat = some x) : onAxis u rule s = rule x s := by simp [onAxis, hx]

/-! ### CHAIN_READ -/

/-- A sub-read with no source left returns. -/
theorem chainAdvance_none {c : ChainRead} {s : State} (h : s.src[c.next]? = none) :
    chainAdvance c s = chainFinish c s := by simp [chainAdvance, h]

/-- A sub-read: the source is read, and the operation goes on or returns. -/
theorem chainAdvance_some {c : ChainRead} {s : State} {x : Source} (h : s.src[c.next]? = some x) :
    chainAdvance c s =
      if c.next + 1 < s.src.length then
        { s.commitRead c.next (readSource x c.prev c.now s.draws) with
          chain := some { c with next := c.next + 1, acc := c.acc ||| (readSource x c.prev c.now s.draws).bits }
          result := .none
          outcome := .reading }
      else
        chainFinish { c with next := c.next + 1, acc := c.acc ||| (readSource x c.prev c.now s.draws).bits }
          (s.commitRead c.next (readSource x c.prev c.now s.draws)) := by
  simp only [chainAdvance, h]

/-! ### The schedule -/

/-- An issued operation that decodes runs `exec` on the presented ports. -/
theorem issue_next {r : Request} {s t : State} (h : issue r s = .next t) :
    (∃ i, decode r.desc = .ok i ∧ exec i { s with ports := r.ports } = .next t) ∨
      ∃ w, t = refuse w { s with ports := r.ports } := by
  unfold issue at h
  simp only at h
  split at h
  · simp at h
  · split at h
    · cases h; exact .inr ⟨_, rfl⟩
    · exact .inl ⟨_, ‹_›, h⟩

/-- What a step can do: idle, let a turn pass, run an issued operation that may come now, or do a sub-read of the
CHAIN_READ in progress. -/
theorem step_next {s t : State} (h : step s = .next t) :
    (∀ e, s.phase ≠ .terminated e) ∧
    ((s.chain = none ∧ s.inbox = [] ∧ t = s) ∨
      (∃ rest, s.chain = none ∧ s.inbox = .advance :: rest ∧ t = { s with inbox := rest }) ∨
      (∃ r rest, (s.chain = none ∨ r.ports.agent ≠ .poll) ∧ s.inbox = .op r :: rest ∧
        issue r { s with inbox := rest } = .next t) ∨
      ∃ c rest, s.chain = some c ∧ t = chainAdvance c { s with inbox := rest }) := by
  unfold step nextTurn at h
  split at h
  · simp at h
  · rename_i hp
    refine ⟨fun e he => hp e he, ?_⟩
    split at h
    · cases h; simp_all
    · cases h; exact .inr (.inl ⟨_, ‹_›, ‹_›, rfl⟩)
    · exact .inr (.inr (.inl ⟨_, _, .inl ‹_›, ‹_›, h⟩))
    · cases h; rename_i hc hi; exact .inr (.inr (.inr ⟨_, s.inbox, hc, rfl⟩))
    · cases h; exact .inr (.inr (.inr ⟨_, _, ‹_›, rfl⟩))
    · split at h
      · cases h; rename_i hc _ _; exact .inr (.inr (.inr ⟨_, s.inbox, hc, rfl⟩))
      · exact .inr (.inr (.inl ⟨_, _, .inr ‹_›, ‹_›, h⟩))

/-- POLL's next sub-read, at each schedule that gives POLL the turn: an empty one, a turn to go on, and an operation of
POLL's own, which stays on the schedule. -/
theorem step_subRead {s : State} {c : ChainRead} {left : List Turn} (hp : ∀ e, s.phase ≠ .terminated e)
    (hc : s.chain = some c)
    (hi : (s.inbox = [] ∧ left = []) ∨ s.inbox = .advance :: left ∨
      ∃ r rest, s.inbox = .op r :: rest ∧ r.ports.agent = .poll ∧ left = s.inbox) :
    step s = .next (chainAdvance c { s with inbox := left }) := by
  unfold step nextTurn
  split
  · exact absurd ‹_› (hp _)
  · obtain ⟨h, rfl⟩ | h | ⟨r, rest, h, ha, rfl⟩ := hi
    · have same : { s with inbox := [] } = s := by rw [← h]
      rw [same]
      simp [hc, h]
    · simp [hc, h]
    · change _ = Host.Outcome.next (chainAdvance c s)
      simp [hc, h, ha]

end Sys2Proof.Machine
end

