-- ==== Sys2Proof/Laws/Meanings.lean ====
section
/-! SUPPORT. What `exec` can do, said once: every operation is the same check sequence around its rule, and what the
rule of each operation leaves when the checks pass. -/

namespace Sys2Proof.Machine

/-- The Boolean form of R84's condition that each meaning passes to the checks. -/
def unitOk (i : Instr) (s : State) : Bool :=
  match i with
  | .cfgDpin u | .cfgMatrix u | .cfgShiftreg u | .cfgEncoder u | .cfgExtsrc u => unitIsNextSlot s u
  | .cfgAxis u => unitIsFreeAxis s u
  | .start u | .chainRead u | .chainMask u => unitIsZero u
  | .dpinRead u => unitIsSource s .dpin u
  | .mtxScan u => unitIsSource s .matrix u
  | .srRead u => unitIsSource s .shiftReg u
  | .encRead u | .encEdge u => unitIsSource s .encoder u
  | .extRead u => unitIsSource s .ext u
  | .axRead u | .axResetCal u | .axSetCal u | .axGetCal u => unitIsAxis s u

/-- The unit check of the meanings is the legality table's condition. -/
theorem unitOk_iff (i : Instr) (s : State) : unitOk i s = true ↔ UnitLegal i s := by
  have hsrc (k : SourceKind) (u : UnitIx) : unitIsSource s k u = true ↔ ∃ x, s.src[u.toNat]? = some x ∧ x.kind = k := by
    simp [unitIsSource, State.kindAt]
  have hax (u : UnitIx) : unitIsAxis s u = true ↔ u.toNat < 2 ∧ ∃ x, s.axisAt u.toNat = some x := by
    simp only [unitIsAxis, Option.isSome_iff_exists]
    exact ⟨fun ⟨x, hx⟩ => ⟨s.axisAt_lt _ _ hx, x, hx⟩, fun h => h.2⟩
  cases i
  case cfgDpin | cfgMatrix | cfgShiftreg | cfgEncoder | cfgExtsrc =>
    simp [unitOk, UnitLegal, unitIsNextSlot]
  case cfgAxis => simp [unitOk, UnitLegal, unitIsFreeAxis]
  case start | chainRead | chainMask => simp [unitOk, UnitLegal, unitIsZero]
  case axRead | axResetCal | axSetCal | axGetCal => exact hax _
  all_goals
    simp only [unitOk, UnitLegal, hsrc]
    constructor
    · rintro ⟨x, hx, hk⟩
      cases x <;> simp_all [Source.kind]
    · intro h
      first
        | (obtain ⟨cfg, st, h⟩ := h; exact ⟨_, h, rfl⟩)
        | (obtain ⟨cfg, h⟩ := h; exact ⟨_, h, rfl⟩)

/-- The agents the checks allow are the listed ones, but in TERMINATED, where no agent has a step. -/
theorem agentAllowed_iff (i : Instr) (s : State) :
    agentAllowed (rowOf i) i.unit s.phase s.ports.agent = true ↔ Listed i s.phase s.ports.agent := by
  unfold agentAllowed Listed
  cases rowOf i <;> simp
  cases s.phase <;> simp

/-- What the rule of an operation whose checks pass leaves, when it answers a next state. -/
def Effect (i : Instr) (s t : State) : Prop :=
  match i with
  | .cfgDpin _ => registered (validateDpin s.params s.ports.record) (fun cfg s => s.addSource (newDpin cfg)) s = .next t
  | .cfgMatrix _ => registered (validateMatrix s.params s.ports.record)
      (fun cfg s => (s.addSource (newMatrix cfg)).record (matrixIdleEvents cfg)) s = .next t
  | .cfgShiftreg _ => registered (validateShiftReg s.params s.ports.record)
      (fun cfg s => (s.addSource (.shiftReg cfg)).record (shiftRegIdleEvents cfg)) s = .next t
  | .cfgEncoder _ => registered (validateEncoder s.params s.ports.record) createEncoder s = .next t
  | .cfgExtsrc _ => registered (validateExt s.params s.ports.record)
      (fun cfg s => s.addSource (.opaqueExt cfg (Config.extInit cfg.fn))) s = .next t
  | .cfgAxis u => registered (validateAxis s.params s.ports.record)
      (fun cfg s => s.setAxis u.toNat { cfg := cfg, st := sentinels s.params }) s = .next t
  | .start _ => t = complete .none { s with phase := .running }
  | .dpinRead u | .mtxScan u | .srRead u | .encRead u | .extRead u =>
    ∃ x, s.src[u.toNat]? = some x ∧
      t = complete (.bitmap (readSource x s.ports.prev s.ports.now s.draws).bits)
        (s.commitRead u.toNat (readSource x s.ports.prev s.ports.now s.draws))
  | .chainRead _ => t = chainAdvance { next := 0, acc := 0#64, prev := s.ports.prev, now := s.ports.now } s
  | .chainMask _ => t = complete (.bitmap s.chainMask) s
  | .encEdge u => ∃ cfg st, s.src[u.toNat]? = some (.encoder cfg st) ∧
      t = complete .none
        { s.setSource u.toNat (.encoder cfg (decodeSample s.params cfg (sample s.draws).1 st)) with
          draws := (sample s.draws).2 }
  | .axRead u => ∃ x, s.axisAt u.toNat = some x ∧
      t = complete
        (.axisValue
          (axisMap (s.draws.analogRead s.params.rawMax).1 (x.st.widen (s.draws.analogRead s.params.rawMax).1).min
            (x.st.widen (s.draws.analogRead s.params.rawMax).1).max x.cfg.inverted)
          (autocalibrated (s.draws.analogRead s.params.rawMax).1 x.st.min x.st.max))
        { s.setAxis u.toNat { x with st := x.st.widen (s.draws.analogRead s.params.rawMax).1 } with
          draws := (s.draws.analogRead s.params.rawMax).2 }
  | .axResetCal u => ∃ x, s.axisAt u.toNat = some x ∧
      t = complete .none (s.setAxis u.toNat { x with st := sentinels s.params })
  | .axSetCal u => ∃ x, s.axisAt u.toNat = some x ∧
      t = complete .none (s.setAxis u.toNat
        { x with st := { min := clamp s.ports.cal.1 0 s.params.rawMax, max := clamp s.ports.cal.2 0 s.params.rawMax } })
  | .axGetCal u => ∃ x, s.axisAt u.toNat = some x ∧ t = complete (.bounds x.st.min x.st.max) s

/-- Every operation is the check sequence around its rule. -/
theorem exec_checked (i : Instr) (s : State) :
    ∃ rule, exec i s = checked (rowOf i) i.unit (unitOk i s) rule s ∧
      (unitOk i s = true → ∀ t, rule s = .next t ↔ Effect i s t) := by
  have hkind {k : SourceKind} {u : UnitIx} (h : unitIsSource s k u = true) :
      ∃ x, s.src[u.toNat]? = some x ∧ x.kind = k := by
    simpa [unitIsSource, State.kindAt] using h
  have hread {k : SourceKind} {u : UnitIx} (h : unitIsSource s k u = true) (t : State) :
      runRead u s = .next t ↔ ∃ x, s.src[u.toNat]? = some x ∧
        t = complete (.bitmap (readSource x s.ports.prev s.ports.now s.draws).bits)
          (s.commitRead u.toNat (readSource x s.ports.prev s.ports.now s.draws)) := by
    obtain ⟨x, hx, -⟩ := hkind h
    simp [runRead_some hx, hx, eq_comm]
  have haxis {u : UnitIx} (h : unitIsAxis s u = true) : ∃ x, s.axisAt u.toNat = some x := by
    simpa [unitIsAxis, Option.isSome_iff_exists] using h
  cases i <;> simp only [exec, execCfgDpin, execCfgMatrix, execCfgShiftreg, execCfgEncoder, execCfgExtsrc, execCfgAxis,
    execStart, execDpinRead, execMtxScan, execSrRead, execEncRead, execExtRead, execChainRead, execChainMask,
    execEncEdge, execAxRead, execAxResetCal, execAxSetCal, execAxGetCal, rowOf, Instr.unit, unitOk] <;>
    refine ⟨_, rfl, fun h t => ?_⟩
  case dpinRead | mtxScan | srRead | encRead | extRead => exact hread h t
  case encEdge u =>
    obtain ⟨x, hx, hk⟩ := hkind h
    cases x <;> simp [Source.kind] at hk
    simp [hx, Effect, eq_comm]
  case axRead | axResetCal | axSetCal | axGetCal =>
    obtain ⟨x, hx⟩ := haxis h
    simp [onAxis_some hx, hx, Effect, eq_comm]
  case start | chainRead | chainMask => simp [Effect, eq_comm]
  all_goals exact Iff.rfl

/-- All of R87's checks pass. -/
abbrev ChecksPass (i : Instr) (s : State) : Prop := precheck (rowOf i) i.unit (unitOk i s) s = none

/-- The checks in the spec's own terms. -/
theorem checksPass_iff (i : Instr) (s : State) :
    ChecksPass i s ↔ AgentSteps s ∧ Permitted i s ∧ UnitLegal i s ∧
      (rowOf i = .edge → s.irqEnabledAt i.unit.toNat = true) ∧ s.lastNow ≤ s.ports.now := by
  rw [ChecksPass, precheck_none, agentAllowed_iff, unitOk_iff]
  have hphase : phaseObjection (rowOf i) s.phase = none ↔ ¬(rowOf i = .config ∧ s.phase = .running) ∧
      ¬(rowOf i = .start ∧ s.phase = .running) ∧ ¬(rowOf i = .live ∧ s.phase = .setup) := by
    cases rowOf i <;> cases s.phase <;> simp [phaseObjection]
  rw [hphase]
  unfold Permitted
  tauto

/-- An operation whose checks pass answers what its rule does. -/
theorem exec_of_checksPass {i : Instr} {s : State} (h : ChecksPass i s) (t : State) :
    exec i s = .next t ↔ Effect i s t := by
  obtain ⟨rule, he, hr⟩ := exec_checked i s
  rw [he, checked_pass h]
  exact hr (precheck_none.1 h).2.2.2.1 t

/-- What `exec` can do: its rule's effect after all checks passed, a refusal, or CFG_AFTER_START. -/
theorem exec_next {i : Instr} {s t : State} (h : exec i s = .next t) :
    (ChecksPass i s ∧ Effect i s t) ∨ (∃ w, t = refuse w s) ∨
      (rowOf i = .config ∧ s.phase = .running ∧ t = raiseConfigError .afterStart s) := by
  obtain ⟨rule, he, hr⟩ := exec_checked i s
  rw [he] at h
  rcases checked_next h with ⟨hp, hn⟩ | h | h
  · exact .inl ⟨hp, (hr (precheck_none.1 hp).2.2.2.1 t).1 hn⟩
  · exact .inr (.inl h)
  · exact .inr (.inr h)

/-- In TERMINATED no operation has a step. -/
theorem exec_terminated {i : Instr} {s : State} {e : ConfigError} (h : s.phase = .terminated e) :
    exec i s = .fault .processTerminated := by
  obtain ⟨rule, he, -⟩ := exec_checked i s
  rw [he]
  simp [checked, precheck, agentNoStep_terminated h, answer]

end Sys2Proof.Machine
end

