-- ==== Sys2Proof/Laws/Operands.lean ====
section
/-! SUPPORT. Operands: levels, input numbers, maps and turns. -/

namespace Sys2Proof.Machine

/-- The other level, as the spec writes it. -/
theorem level_not (l : Level) : ~~~l = 1#1 - l := by revert l; decide

/-- Whether a level is the active one (40_digital_sources.md R107). -/
@[simp] theorem pressed_iff (l active : Level) : pressed l active = true ↔ l = active := by simp [pressed]

/-- Whether a time lies inside a window. -/
@[simp] theorem insideWindow_iff (now since window : Time) :
    insideWindow now since window = true ↔ now - since < window := by simp [insideWindow]

/-- A number below 64 is itself an input number. -/
theorem toInput_of_lt {n : Nat} (h : n < 64) : toInput n = some (Fin.ofNat 64 n) := by
  unfold toInput
  rw [dif_pos h]
  exact congrArg some (Fin.ext (Nat.mod_eq_of_lt h).symm)

/-- A number from 64 on is none. -/
theorem toInput_of_ge {n : Nat} (h : 64 ≤ n) : toInput n = none := by
  unfold toInput
  exact dif_neg (by omega)

/-- A map is one of input numbers exactly when all its numbers are below 64 (43_configuration.md R231). -/
theorem toInputs_eq (ns : List Nat) :
    toInputs ns = if ∃ n ∈ ns, 64 ≤ n then none else some (ns.map (Fin.ofNat 64)) := by
  induction ns with
  | nil => simp [toInputs]
  | cons n ns ih =>
    rw [toInputs, ih]
    simp only [List.exists_mem_cons_iff, List.map_cons]
    by_cases h : 64 ≤ n
    · rw [toInput_of_ge h, if_pos (Or.inl h : 64 ≤ n ∨ ∃ m ∈ ns, 64 ≤ m)]
    · rw [toInput_of_lt (by omega)]
      by_cases h2 : ∃ m ∈ ns, 64 ≤ m
      · rw [if_pos h2, if_pos (Or.inr h2 : 64 ≤ n ∨ ∃ m ∈ ns, 64 ≤ m)]
      · rw [if_neg h2, if_neg (not_or.2 ⟨h, h2⟩)]

/-- Numbers below 64 are distinct exactly when the input numbers they name are. -/
theorem nodup_inputs {ns : List Nat} (h : ¬∃ n ∈ ns, 64 ≤ n) :
    (ns.map (Fin.ofNat 64)).Nodup ↔ ns.Nodup := by
  refine ⟨fun hn => List.Nodup.of_map _ hn, fun hn => List.Nodup.map_on ?_ hn⟩
  intro a ha b hb hab
  have ha' : a < 64 := by by_contra hc; exact h ⟨a, ha, by omega⟩
  have hb' : b < 64 := by by_contra hc; exact h ⟨b, hb, by omega⟩
  have := congrArg Fin.val hab
  simpa [Fin.ofNat, Nat.mod_eq_of_lt ha', Nat.mod_eq_of_lt hb'] using this

/-! ### Turns in which an operation's checks pass -/

/-- A CFG operation in SETUP's turn with a legal unit. -/
theorem checksPass_config {i : Instr} {s : State} (hr : rowOf i = .config) (h : ConfigTurn s) (hu : UnitLegal i s) :
    ChecksPass i s := by
  obtain ⟨h1, h2, h3⟩ := h
  exact (checksPass_iff i s).2
    ⟨⟨by simp [h1], by simp [h2]⟩, ⟨by simp [Listed, hr, h2], by simp [h1], by simp [h1], by simp [hr]⟩, hu,
      by simp [hr], h3⟩

/-- START in SETUP's turn. -/
theorem checksPass_start {s : State} (h : ConfigTurn s) : ChecksPass (.start 0#8) s := by
  obtain ⟨h1, h2, h3⟩ := h
  exact (checksPass_iff _ s).2
    ⟨⟨by simp [h1], by simp [h2]⟩, ⟨by simp [Listed, rowOf, h2], by simp [h1], by simp [h1], by simp [rowOf]⟩, rfl,
      by simp [rowOf], h3⟩

/-- A read or axis command in POLL's turn with a legal unit. -/
theorem checksPass_live {i : Instr} {s : State} (hr : rowOf i = .live) (h : PollTurn s) (hu : UnitLegal i s) :
    ChecksPass i s := by
  obtain ⟨h1, h2, h3⟩ := h
  exact (checksPass_iff i s).2
    ⟨⟨by simp [h1], by simp [h2]⟩, ⟨by simp [Listed, hr, h2], by simp [hr], by simp [hr], by simp [h1]⟩, hu,
      by simp [hr], h3⟩

/-- CHAIN_MASK or AX_GET_CAL in a turn of SETUP or POLL with a legal unit. -/
theorem checksPass_query {i : Instr} {s : State} (hr : rowOf i = .query) (h : QueryTurn s) (hu : UnitLegal i s) :
    ChecksPass i s := by
  obtain ⟨h1, h2, h3⟩ := h
  exact (checksPass_iff i s).2
    ⟨⟨by rcases h1 with h1 | h1 <;> simp [h1], by rcases h2 with h2 | h2 <;> simp [h2]⟩,
      ⟨by simpa [Listed, hr] using h2, by simp [hr], by simp [hr], by simp [hr]⟩, hu, by simp [hr], h3⟩

/-- AX_SET_CAL in the turn it may be issued in. -/
theorem checksPass_setCal {i : Instr} {s : State} (hr : rowOf i = .setCal) (h : RestoreTurn s) (hu : UnitLegal i s) :
    ChecksPass i s := by
  obtain ⟨h1, h3⟩ := h
  exact (checksPass_iff i s).2
    ⟨⟨by rcases h1 with h1 | h1 <;> simp [h1.1], by rcases h1 with h1 | h1 <;> simp [h1.2]⟩,
      ⟨by simpa [Listed, hr] using h1, by simp [hr], by simp [hr], by simp [hr]⟩, hu, by simp [hr], h3⟩

/-- ENC_EDGE in its handler's turn, its interrupt enabled. -/
theorem checksPass_edge {u : UnitIx} {s : State} {cfg : EncoderCfg} {st : EncoderSt} (h : EdgeTurn u s)
    (hx : s.src[u.toNat]? = some (.encoder cfg st)) (hq : st.irqEnabled = true) : ChecksPass (.encEdge u) s := by
  obtain ⟨h1, h2, h3⟩ := h
  refine (checksPass_iff _ s).2
    ⟨⟨by rcases h1 with h1 | h1 <;> simp [h1], fun v hv => ?_⟩,
      ⟨by simp [Listed, rowOf, Instr.unit, h2], by simp [rowOf], by simp [rowOf], by simp [rowOf]⟩, ⟨cfg, st, hx⟩,
      fun _ => by simp [State.irqEnabledAt, Instr.unit, hx, hq], h3⟩
  rw [h2] at hv
  cases hv
  exact ⟨cfg, st, hx⟩

/-! ### What an operation that does not run its rule answers -/

/-- An operation answers the first objection of its checks. -/
theorem exec_objection {i : Instr} {s : State} {o : Objection}
    (h : precheck (rowOf i) i.unit (unitOk i s) s = some o) : exec i s = answer o s := by
  obtain ⟨rule, he, -⟩ := exec_checked i s
  rw [he]
  simp [checked, h]

/-- A rule completes, leaves a CHAIN_READ in progress, or is a CFG rule that rejects its record. -/
theorem effect_outcome {i : Instr} {s t : State} (h : Effect i s t) :
    t.outcome = .completed ∨ t.outcome = .reading ∨
      (rowOf i = .config ∧ ((∃ e, t = raiseConfigError e s) ∨ ∃ w, t = refuse w s)) := by
  cases i
  case chainRead =>
    simp only [Effect] at h
    subst h
    rcases hx : s.src[0]? with _ | x
    · rw [chainAdvance_none hx]; simp
    · rw [chainAdvance_some (x := x) hx]; split <;> simp
  case cfgDpin | cfgMatrix | cfgShiftreg | cfgEncoder | cfgExtsrc | cfgAxis =>
    rcases registered_next h with ⟨c, -, rfl⟩ | ⟨e, -, rfl⟩ | ⟨r, -, rfl⟩
    · simp
    · exact .inr (.inr ⟨rfl, .inl ⟨_, rfl⟩⟩)
    · exact .inr (.inr ⟨rfl, .inr ⟨_, rfl⟩⟩)
  case start | chainMask => simp only [Effect] at h; subst h; simp
  case encEdge => obtain ⟨_, _, _, rfl⟩ := h; simp
  all_goals (obtain ⟨_, _, rfl⟩ := h; simp)

/-! ### What a sub-read of CHAIN_READ leaves alone -/

/-- A sub-read writes the source table, the trace, the draws, the result, the outcome, `lastNow` and `chain` only. -/
theorem chainAdvance_frame (c : ChainRead) (s : State) :
    (chainAdvance c s).params = s.params ∧ (chainAdvance c s).phase = s.phase ∧
      (chainAdvance c s).refused = s.refused ∧ (chainAdvance c s).axisLeft = s.axisLeft ∧
      (chainAdvance c s).axisRight = s.axisRight ∧ (chainAdvance c s).ports = s.ports ∧
      (chainAdvance c s).inbox = s.inbox := by
  rcases hx : s.src[c.next]? with _ | x
  · rw [chainAdvance_none hx]; simp
  · rw [chainAdvance_some hx]; split <;> simp

end Sys2Proof.Machine
end

