-- ==== Sys2Proof/Laws/Configuration.lean ====
section
/-! SUPPORT. What each record validation gives: the first error of a complete record (43_configuration.md R235), and
what every accepted record keeps true. -/

namespace Sys2Proof.Machine

/-! ### The validation steps -/

/-- A demand that holds lets the validation go on. -/
@[simp] theorem demand_true (o : Objection) : demand true o = .ok () := rfl

/-- A demand that fails objects. -/
@[simp] theorem demand_false (o : Objection) : demand false o = .error o := rfl

/-- A demand passes exactly when it holds. -/
theorem demand_ok {b : Bool} {o : Objection} : demand b o = .ok () ↔ b = true := by cases b <;> simp

/-- A validation that passes passed its first step and the rest. -/
theorem bind_ok {α β : Type} {v : Validated α} {f : α → Validated β} {b : β} :
    (v >>= f) = .ok b ↔ ∃ a, v = .ok a ∧ f a = .ok b := by
  cases v <;> simp [bind, Except.bind]

/-- A validation goes on from a step that passed. -/
@[simp] theorem ok_bind {α β : Type} (a : α) (f : α → Validated β) : ((.ok a : Validated α) >>= f) = f a := rfl

/-- A validation ends at a step that objects. -/
@[simp] theorem error_bind {α β : Type} (o : Objection) (f : α → Validated β) :
    ((.error o : Validated α) >>= f) = .error o := rfl

/-- Valid pins pass (R234). -/
theorem pinsValid_good {p : Params} {pins : List PinNumber} (h : ∀ x ∈ pins, pinAllowed p.pins x = true) :
    pinsValid p pins = .ok () := demand_ok.2 (List.all_eq_true.2 h)

/-- An invalid pin is refused (R234). -/
theorem pinsValid_bad {p : Params} {pins : List PinNumber} (h : ∃ x ∈ pins, pinAllowed p.pins x = false) :
    pinsValid p pins = .error (.refuse .badPin) := by
  have : pins.all (pinAllowed p.pins) = false := by simpa using h
  simp [pinsValid, this]

/-- Pins that pass are valid (R234). -/
theorem pinsValid_ok {p : Params} {pins : List PinNumber} (h : pinsValid p pins = .ok ()) :
    ∀ x ∈ pins, pinAllowed p.pins x = true := List.all_eq_true.1 (demand_ok.1 h)

/-- A number is in range exactly below 64 (R231). -/
theorem inRange_eq (n : Nat) :
    inRange n = if 64 ≤ n then .error (.raise .inputNumberOutOfRange) else .ok (Fin.ofNat 64 n) := by
  unfold inRange
  split
  · rw [toInput_of_ge ‹_›]; rfl
  · rw [toInput_of_lt (by omega)]; rfl

/-- A map is in range exactly when every number is below 64 (R231). -/
theorem allInRange_eq (ns : List Nat) :
    allInRange ns = if ∃ n ∈ ns, 64 ≤ n then .error (.raise .inputNumberOutOfRange) else .ok (ns.map (Fin.ofNat 64)) := by
  unfold allInRange
  rw [toInputs_eq]
  split <;> rfl

/-- A map in range keeps its length. -/
theorem allInRange_length {ns : List Nat} {is : List InputNumber} (h : allInRange ns = .ok is) :
    is.length = ns.length := by
  rw [allInRange_eq] at h
  split at h
  · cases h
  · cases h; simp

/-- Distinct numbers pass (R232). -/
theorem allDistinct_ok {ns : List InputNumber} : allDistinct ns = .ok () ↔ ns.Nodup := by
  unfold allDistinct
  rw [demand_ok]
  exact decide_eq_true_iff

/-- Two numbers pass when they differ (R232). -/
theorem allDistinct_pair (a b : InputNumber) :
    allDistinct [a, b] = if a = b then .error (.raise .duplicateInputNumber) else .ok () := by
  by_cases h : a = b <;> simp [allDistinct, h]

/-! ### Complete records: the first error -/

/-- CFG_DPIN's checks on a record with all its fields and a valid pin (R236). -/
theorem validateDpin_eq {p : Params} {r : Record} {pin input : Nat} {active : Level} {window : Time}
    (h1 : r.num? .pin = some pin) (h2 : r.num? .input = some input) (h3 : r.level? .activeLevel = some active)
    (h4 : r.word? .window = some window) (hp : pinAllowed p.pins pin = true) :
    validateDpin p r = if 64 ≤ input then .error (.raise .inputNumberOutOfRange)
      else .ok { pin := pin, input := Fin.ofNat 64 input, activeLevel := active, window := window } := by
  have hr : dpinRecord r = some ⟨pin, input, active, window⟩ := by simp [dpinRecord, h1, h2, h3, h4]
  unfold validateDpin
  rw [hr, h1, pinsValid_good (by simpa using hp)]
  simp only [ok_bind, fieldsPresent, present, inRange_eq]
  split <;> rfl

/-- CFG_MATRIX's checks on a record with all its fields and valid pins (R237). -/
theorem validateMatrix_eq {p : Params} {r : Record} {selPins inPins map : List Nat} {selActive inActive : Level}
    {window settle : Time} (h1 : r.list? .selPins = some selPins) (h2 : r.list? .inPins = some inPins)
    (h3 : r.list? .map = some map) (h4 : r.level? .selActive = some selActive)
    (h5 : r.level? .inActive = some inActive) (h6 : r.word? .window = some window)
    (h7 : r.word? .settle = some settle) (hp : ∀ x ∈ selPins ++ inPins, pinAllowed p.pins x = true) :
    validateMatrix p r =
      if selPins.length < 1 ∨ p.maxSelectors < selPins.length ∨ inPins.length < 1 ∨
          p.maxMatrixInputs < inPins.length then .error (.raise .invalidPinCount)
      else if map.length ≠ selPins.length * inPins.length then .error (.raise .invalidArrayLength)
      else if ∃ n ∈ map, 64 ≤ n then .error (.raise .inputNumberOutOfRange)
      else if ¬map.Nodup then .error (.raise .duplicateInputNumber)
      else .ok { selPins := selPins, inPins := inPins, map := map.map (Fin.ofNat 64), selActive := selActive,
                 inActive := inActive, window := window, settle := settle } := by
  have hr : matrixRecord r = some ⟨selPins, inPins, map, selActive, inActive, window, settle⟩ := by
    simp [matrixRecord, h1, h2, h3, h4, h5, h6, h7]
  unfold validateMatrix
  rw [hr, h1, h2, Option.getD_some, Option.getD_some, pinsValid_good hp]
  simp only [ok_bind, fieldsPresent, present]
  by_cases hc : selPins.length < 1 ∨ p.maxSelectors < selPins.length ∨ inPins.length < 1 ∨
      p.maxMatrixInputs < inPins.length
  · rw [if_pos hc, show decide _ = false from decide_eq_false (by omega)]; rfl
  rw [if_neg hc, show decide _ = true from decide_eq_true (by omega)]
  simp only [pinCount, demand_true, ok_bind]
  by_cases hl : map.length = selPins.length * inPins.length
  · rw [if_neg (not_not.2 hl), show decide _ = true from decide_eq_true hl, allInRange_eq]
    simp only [arrayLength, demand_true, ok_bind]
    by_cases hn : ∃ n ∈ map, 64 ≤ n
    · rw [if_pos hn, if_pos hn]; rfl
    · rw [if_neg hn, if_neg hn]
      simp only [ok_bind, allDistinct, nodup_inputs hn]
      by_cases hd : map.Nodup <;> simp [hd]
  · rw [if_pos hl, show decide _ = false from decide_eq_false hl]; rfl

/-- CFG_SHIFTREG's checks on a record with all its fields and valid pins (R238). -/
theorem validateShiftReg_eq {p : Params} {r : Record} {loadPin clkPin dataPin n : Nat} {map : List Nat}
    {loadActive clkActive dataActive : Level} {pulse : Time} (h1 : r.num? .loadPin = some loadPin)
    (h2 : r.num? .clkPin = some clkPin) (h3 : r.num? .dataPin = some dataPin) (h4 : r.num? .n = some n)
    (h5 : r.list? .map = some map) (h6 : r.level? .loadActive = some loadActive)
    (h7 : r.level? .clkActive = some clkActive) (h8 : r.level? .dataActive = some dataActive)
    (h9 : r.word? .pulse = some pulse) (hp : ∀ x ∈ [loadPin, clkPin, dataPin], pinAllowed p.pins x = true) :
    validateShiftReg p r =
      if n < 1 ∨ p.maxSrBits < n ∨ map.length ≠ n then .error (.raise .invalidArrayLength)
      else if ∃ k ∈ map, 64 ≤ k then .error (.raise .inputNumberOutOfRange)
      else if ¬map.Nodup then .error (.raise .duplicateInputNumber)
      else .ok { loadPin := loadPin, clkPin := clkPin, dataPin := dataPin, n := n, map := map.map (Fin.ofNat 64),
                 loadActive := loadActive, clkActive := clkActive, dataActive := dataActive, pulse := pulse } := by
  have hr : shiftRegRecord r =
      some ⟨loadPin, clkPin, dataPin, n, map, loadActive, clkActive, dataActive, pulse⟩ := by
    simp [shiftRegRecord, h1, h2, h3, h4, h5, h6, h7, h8, h9]
  unfold validateShiftReg
  rw [hr, h1, h2, h3, pinsValid_good (by simpa using hp)]
  simp only [ok_bind, fieldsPresent, present]
  by_cases hc : n < 1 ∨ p.maxSrBits < n ∨ map.length ≠ n
  · rw [if_pos hc, show decide _ = false from decide_eq_false (by omega)]; rfl
  rw [if_neg hc, show decide _ = true from decide_eq_true (by omega), allInRange_eq]
  simp only [arrayLength, demand_true, ok_bind]
  by_cases hn : ∃ k ∈ map, 64 ≤ k
  · rw [if_pos hn, if_pos hn]; rfl
  · rw [if_neg hn, if_neg hn]
    simp only [ok_bind, allDistinct, nodup_inputs hn]
    by_cases hd : map.Nodup <;> simp [hd]

/-- CFG_ENCODER's checks on a record with all its fields and valid pins (R239). -/
theorem validateEncoder_eq {p : Params} {r : Record} {clkPin dtPin cw : Nat} {ccw : Option Nat} {alternate : Bool}
    (h1 : r.num? .clkPin = some clkPin) (h2 : r.num? .dtPin = some dtPin) (h3 : r.num? .cw = some cw)
    (h4 : r.ccw? = some ccw) (h5 : r.alternate? = some alternate) (ha : alternate = true → AltWellFormed p)
    (hp : pinAllowed p.pins clkPin = true) (hq : pinAllowed p.pins dtPin = true) :
    validateEncoder p r =
      if clkPin = dtPin then .error (.raise .duplicatePin)
      else if 64 ≤ cw ∨ 64 ≤ ccw.getD (cw + 1) then .error (.raise .inputNumberOutOfRange)
      else if cw = ccw.getD (cw + 1) then .error (.raise .duplicateInputNumber)
      else .ok { clkPin := clkPin, dtPin := dtPin, cw := Fin.ofNat 64 cw, ccw := Fin.ofNat 64 (ccw.getD (cw + 1)),
                 alternate := alternate } := by
  have hr : encoderRecord r = some ⟨clkPin, dtPin, cw, ccw, alternate⟩ := by
    simp [encoderRecord, h1, h2, h3, h4, h5]
  have hw : (!alternate || decide (AltWellFormed p)) = true := by
    cases alternate
    · rfl
    · exact decide_eq_true (ha rfl)
  unfold validateEncoder
  rw [hr, h1, h2, pinsValid_good (by simp [hp, hq])]
  simp only [ok_bind, fieldsPresent, present, hw, demand_true]
  by_cases hc : clkPin = dtPin
  · rw [if_pos hc, show (clkPin != dtPin) = false by simp [hc]]; rfl
  rw [if_neg hc, show (clkPin != dtPin) = true by simp [hc]]
  simp only [demand_true, ok_bind, inRange_eq]
  generalize ccw.getD (cw + 1) = ccw'
  by_cases h : 64 ≤ cw
  · simp [h]
  by_cases h' : 64 ≤ ccw'
  · simp [h, h']
  have hne : ¬(64 ≤ cw ∨ 64 ≤ ccw') := by omega
  have hd : (Fin.ofNat 64 cw = Fin.ofNat 64 ccw') ↔ cw = ccw' := by
    constructor
    · intro e
      have := congrArg Fin.val e
      simpa [Fin.ofNat, Nat.mod_eq_of_lt (not_le.1 h), Nat.mod_eq_of_lt (not_le.1 h')] using this
    · rintro rfl; rfl
  rw [if_neg h, if_neg h', if_neg hne]
  by_cases he : cw = ccw'
  · rw [if_pos he]
    simp only [ok_bind, allDistinct_pair, if_pos (hd.2 he), error_bind]
  · rw [if_neg he]
    simp only [ok_bind, allDistinct_pair, if_neg (mt hd.1 he)]
    rfl

/-- CFG_EXTSRC's check on a record with all its fields (R240). -/
theorem validateExt_eq {p : Params} {r : Record} {mask : InputBitmap} {fn : Nat} (h1 : r.word? .mask = some mask)
    (h2 : r.num? .fn = some fn) :
    validateExt p r = if fn < p.extFns then .ok { mask := mask, fn := fn } else .error (.refuse .badParam) := by
  have hr : extRecord r = some ⟨mask, fn⟩ := by simp [extRecord, h1, h2]
  unfold validateExt
  rw [hr]
  by_cases h : fn < p.extFns <;> simp [fieldsPresent, present, h]

/-- CFG_AXIS's check on a record with all its fields and a valid channel (R241). -/
theorem validateAxis_eq {p : Params} {r : Record} {channel : Nat} {inverted : Bool}
    (h1 : r.num? .channel = some channel) (h2 : r.bool? .inverted = some inverted)
    (hp : pinAllowed p.pins channel = true) :
    validateAxis p r = .ok { channel := channel, inverted := inverted } := by
  have hr : axisRecord r = some ⟨channel, inverted⟩ := by simp [axisRecord, h1, h2]
  unfold validateAxis
  rw [hr, h1, pinsValid_good (by simpa using hp)]
  rfl

/-! ### Incomplete records -/

/-- A direct pin's record needs each field of R28. -/
theorem dpinRecord_none {r : Record}
    (h : r.num? .pin = none ∨ r.num? .input = none ∨ r.level? .activeLevel = none ∨ r.word? .window = none) :
    dpinRecord r = none := by
  simp only [← Option.not_isSome_iff_eq_none] at *
  contrapose! h
  obtain ⟨c, hc⟩ := Option.isSome_iff_exists.1 h
  simp only [dpinRecord, Option.bind_eq_bind, Option.bind_eq_some_iff] at hc
  obtain ⟨_, h1, _, h2, _, h3, _, h4, -⟩ := hc
  simp [h1, h2, h3, h4]

/-- A matrix's record needs each field of R30. -/
theorem matrixRecord_none {r : Record}
    (h : r.list? .selPins = none ∨ r.list? .inPins = none ∨ r.list? .map = none ∨ r.level? .selActive = none ∨
      r.level? .inActive = none ∨ r.word? .window = none ∨ r.word? .settle = none) :
    matrixRecord r = none := by
  simp only [← Option.not_isSome_iff_eq_none] at *
  contrapose! h
  obtain ⟨c, hc⟩ := Option.isSome_iff_exists.1 h
  simp only [matrixRecord, Option.bind_eq_bind, Option.bind_eq_some_iff] at hc
  obtain ⟨_, h1, _, h2, _, h3, _, h4, _, h5, _, h6, _, h7, -⟩ := hc
  simp [h1, h2, h3, h4, h5, h6, h7]

/-- A shift register's record needs each field of R32. -/
theorem shiftRegRecord_none {r : Record}
    (h : r.num? .loadPin = none ∨ r.num? .clkPin = none ∨ r.num? .dataPin = none ∨ r.num? .n = none ∨
      r.list? .map = none ∨ r.level? .loadActive = none ∨ r.level? .clkActive = none ∨
      r.level? .dataActive = none ∨ r.word? .pulse = none) :
    shiftRegRecord r = none := by
  simp only [← Option.not_isSome_iff_eq_none] at *
  contrapose! h
  obtain ⟨c, hc⟩ := Option.isSome_iff_exists.1 h
  simp only [shiftRegRecord, Option.bind_eq_bind, Option.bind_eq_some_iff] at hc
  obtain ⟨_, h1, _, h2, _, h3, _, h4, _, h5, _, h6, _, h7, _, h8, _, h9, -⟩ := hc
  simp [h1, h2, h3, h4, h5, h6, h7, h8, h9]

/-- `ccw` may be missing, but not of another type than a number. -/
theorem ccw_mistyped {r : Record} (h : ∃ v, r.get? .ccw = some v ∧ ∀ n, v ≠ .num n) : r.ccw? = none := by
  obtain ⟨v, hv, hn⟩ := h
  cases v <;> simp_all [Record.ccw?]

/-- `alternate` may be missing, but not of another type than a Boolean. -/
theorem alternate_mistyped {r : Record} (h : ∃ v, r.get? .alternate = some v ∧ ∀ b, v ≠ .bool b) :
    r.alternate? = none := by
  obtain ⟨v, hv, hn⟩ := h
  cases v <;> simp_all [Record.alternate?]

/-- An `alternate` field that is present reads as it stands. -/
theorem alternate_of_bool {r : Record} {b : Bool} (h : r.bool? .alternate = some b) : r.alternate? = some b := by
  rcases hv : r.get? .alternate with _ | v
  · simp [Record.bool?, hv] at h
  · cases v <;> simp_all [Record.alternate?, Record.bool?]

/-- An encoder's record needs each field of R34 but `ccw` and `alternate`, and every field of its type. -/
theorem encoderRecord_none {r : Record}
    (h : r.num? .clkPin = none ∨ r.num? .dtPin = none ∨ r.num? .cw = none ∨ r.ccw? = none ∨ r.alternate? = none) :
    encoderRecord r = none := by
  simp only [← Option.not_isSome_iff_eq_none] at *
  contrapose! h
  obtain ⟨c, hc⟩ := Option.isSome_iff_exists.1 h
  simp only [encoderRecord, Option.bind_eq_bind, Option.bind_eq_some_iff] at hc
  obtain ⟨_, h1, _, h2, _, h3, _, h4, _, h5, -⟩ := hc
  simp [h1, h2, h3, h4, h5]

/-- A record that asks for the alternate encoding is either incomplete or parsed with `alternate` set. -/
theorem encoderRecord_alternate {r : Record} (h : r.alternate? = some true) :
    encoderRecord r = none ∨ ∃ c, encoderRecord r = some c ∧ c.alternate = true := by
  rcases hr : encoderRecord r with _ | c
  · exact .inl rfl
  · refine .inr ⟨c, rfl, ?_⟩
    simp only [encoderRecord, h, Option.bind_eq_bind, Option.bind_eq_some_iff] at hr
    obtain ⟨_, -, _, -, _, -, _, -, _, h5, hc⟩ := hr
    cases h5
    cases hc
    rfl

/-- An opaque source's record needs each field of R39. -/
theorem extRecord_none {r : Record} (h : r.word? .mask = none ∨ r.num? .fn = none) : extRecord r = none := by
  rcases hm : r.word? .mask with _ | m <;> rcases hf : r.num? .fn with _ | n <;> simp_all [extRecord]

/-- An axis's record needs each field of R40. -/
theorem axisRecord_none {r : Record} (h : r.num? .channel = none ∨ r.bool? .inverted = none) : axisRecord r = none := by
  rcases hm : r.num? .channel with _ | m <;> rcases hf : r.bool? .inverted with _ | n <;> simp_all [axisRecord]

/-! ### Accepted records -/

/-- A new direct pin is well formed. -/
theorem validateDpin_ok {p : Params} {r : Record} {cfg : DpinCfg} (h : validateDpin p r = .ok cfg) :
    (newDpin cfg).WellFormed p := by
  unfold validateDpin at h
  obtain ⟨_, h1, h⟩ := bind_ok.1 h
  obtain ⟨c, h2, h⟩ := bind_ok.1 h
  obtain ⟨i, h3, h⟩ := bind_ok.1 h
  cases h
  have hc : r.num? .pin = some c.pin := by
    unfold fieldsPresent present at h2
    split at h2
    · rename_i hr; cases h2
      simp only [dpinRecord, Option.bind_eq_bind, Option.bind_eq_some_iff] at hr
      obtain ⟨_, e, _, _, _, _, _, _, hr⟩ := hr
      cases hr; exact e
    · cases h2
  exact pinsValid_ok h1 _ (by simp [hc])

/-- A new matrix is well formed. -/
theorem validateMatrix_ok {p : Params} {r : Record} {cfg : MatrixCfg} (h : validateMatrix p r = .ok cfg) :
    (newMatrix cfg).WellFormed p := by
  unfold validateMatrix at h
  obtain ⟨_, h1, h⟩ := bind_ok.1 h
  obtain ⟨c, h2, h⟩ := bind_ok.1 h
  obtain ⟨_, h3, h⟩ := bind_ok.1 h
  obtain ⟨_, h4, h⟩ := bind_ok.1 h
  obtain ⟨m, h5, h⟩ := bind_ok.1 h
  obtain ⟨_, h6, h⟩ := bind_ok.1 h
  cases h
  have hc : r.list? .selPins = some c.selPins ∧ r.list? .inPins = some c.inPins := by
    unfold fieldsPresent present at h2
    split at h2
    · rename_i hr; cases h2
      simp only [matrixRecord, Option.bind_eq_bind, Option.bind_eq_some_iff] at hr
      obtain ⟨_, e, _, e', _, _, _, _, _, _, _, _, _, _, hr⟩ := hr
      cases hr; exact ⟨e, e'⟩
    · cases h2
  have h3' := of_decide_eq_true (demand_ok.1 h3)
  have h4' := of_decide_eq_true (demand_ok.1 h4)
  refine ⟨h3'.1, h3'.2.1, h3'.2.2.1, h3'.2.2.2, ?_, allDistinct_ok.1 h6, ?_, fun x hx => ?_⟩
  · rw [allInRange_length h5]; exact h4'
  · simp [MatrixCfg.selectors, MatrixCfg.inputs]
  · exact pinsValid_ok h1 x (by simpa [hc.1, hc.2] using hx)

/-- A new shift register is well formed. -/
theorem validateShiftReg_ok {p : Params} {r : Record} {cfg : ShiftRegCfg} (h : validateShiftReg p r = .ok cfg) :
    (Source.shiftReg cfg).WellFormed p := by
  unfold validateShiftReg at h
  obtain ⟨_, h1, h⟩ := bind_ok.1 h
  obtain ⟨c, h2, h⟩ := bind_ok.1 h
  obtain ⟨_, h3, h⟩ := bind_ok.1 h
  obtain ⟨m, h4, h⟩ := bind_ok.1 h
  obtain ⟨_, h5, h⟩ := bind_ok.1 h
  cases h
  have hc : r.num? .loadPin = some c.loadPin ∧ r.num? .clkPin = some c.clkPin ∧ r.num? .dataPin = some c.dataPin := by
    unfold fieldsPresent present at h2
    split at h2
    · rename_i hr; cases h2
      simp only [shiftRegRecord, Option.bind_eq_bind, Option.bind_eq_some_iff] at hr
      obtain ⟨_, e, _, e', _, e'', _, _, _, _, _, _, _, _, _, _, _, _, hr⟩ := hr
      cases hr; exact ⟨e, e', e''⟩
    · cases h2
  have h3' := of_decide_eq_true (demand_ok.1 h3)
  refine ⟨h3'.1, h3'.2.1, ?_, allDistinct_ok.1 h5, fun x hx => ?_⟩
  · rw [allInRange_length h4]; exact h3'.2.2
  · exact pinsValid_ok h1 x (by simpa [hc.1, hc.2.1, hc.2.2] using hx)

/-- An accepted encoder record has distinct pins, distinct input numbers, valid pins and, if alternate, well-formed
tables. -/
theorem validateEncoder_ok {p : Params} {r : Record} {cfg : EncoderCfg} (h : validateEncoder p r = .ok cfg) :
    cfg.clkPin ≠ cfg.dtPin ∧ cfg.cw ≠ cfg.ccw ∧ (cfg.alternate = true → AltWellFormed p) ∧
      ∀ x ∈ [cfg.clkPin, cfg.dtPin], pinAllowed p.pins x = true := by
  unfold validateEncoder at h
  obtain ⟨_, h1, h⟩ := bind_ok.1 h
  obtain ⟨c, h2, h⟩ := bind_ok.1 h
  obtain ⟨_, h3, h⟩ := bind_ok.1 h
  obtain ⟨_, h4, h⟩ := bind_ok.1 h
  obtain ⟨cw, h5, h⟩ := bind_ok.1 h
  obtain ⟨ccw, h6, h⟩ := bind_ok.1 h
  obtain ⟨_, h7, h⟩ := bind_ok.1 h
  cases h
  have hc : r.num? .clkPin = some c.clkPin ∧ r.num? .dtPin = some c.dtPin := by
    unfold fieldsPresent present at h2
    split at h2
    · rename_i hr; cases h2
      simp only [encoderRecord, Option.bind_eq_bind, Option.bind_eq_some_iff] at hr
      obtain ⟨_, e, _, e', _, _, _, _, _, _, hr⟩ := hr
      cases hr; exact ⟨e, e'⟩
    · cases h2
  refine ⟨?_, ?_, fun ha => ?_, fun x hx => ?_⟩
  · simpa using demand_ok.1 h4
  · simpa using allDistinct_ok.1 h7
  · have := demand_ok.1 h3
    rw [show c.alternate = true from ha] at this
    exact of_decide_eq_true this
  · exact pinsValid_ok h1 x (by simpa [hc.1, hc.2] using hx)

/-- A new opaque source names a function of the family. -/
theorem validateExt_ok {p : Params} {r : Record} {cfg : ExtCfg} (h : validateExt p r = .ok cfg) :
    cfg.fn < p.extFns := by
  unfold validateExt at h
  obtain ⟨c, h1, h⟩ := bind_ok.1 h
  obtain ⟨_, h2, h⟩ := bind_ok.1 h
  cases h
  exact of_decide_eq_true (demand_ok.1 h2)

/-- A new axis has a valid channel. -/
theorem validateAxis_ok {p : Params} {r : Record} {cfg : AxisCfg} (h : validateAxis p r = .ok cfg) :
    pinAllowed p.pins cfg.channel = true := by
  unfold validateAxis at h
  obtain ⟨_, h1, h2⟩ := bind_ok.1 h
  have hc : r.num? .channel = some cfg.channel := by
    unfold fieldsPresent present at h2
    split at h2
    · rename_i hr; cases h2
      simp only [axisRecord, Option.bind_eq_bind, Option.bind_eq_some_iff] at hr
      obtain ⟨_, e, _, _, hr⟩ := hr
      cases hr; exact e
    · cases h2
  exact pinsValid_ok h1 _ (by simp [hc])

end Sys2Proof.Machine
end

