-- ==== Sys2Proof/Laws/Decode.lean ====
section
/-! SUPPORT. The fields of a descriptor laid out as `op`, `unit`, `zero` (30_encoding.md R80), and what decoding such a
descriptor gives. -/

namespace Sys2Proof

/-- The opcode field of a laid-out descriptor. -/
@[simp] theorem opField_word (op : BitVec 8) (u : UnitIx) (z : BitVec 16) : opField ((op ++ u) ++ z) = op := by
  unfold opField
  ext i hi
  have h1 : ¬24 + i < 16 := by omega
  have h2 : ¬24 + i - 16 < 8 := by omega
  have h3 : 24 + i - 16 - 8 = i := by omega
  rw [BitVec.getElem_extractLsb', BitVec.getLsbD_append, if_neg h1, BitVec.getLsbD_append, if_neg h2, h3,
    BitVec.getLsbD_eq_getElem hi]

/-- The unit field of a laid-out descriptor. -/
@[simp] theorem unitField_word (op : BitVec 8) (u : UnitIx) (z : BitVec 16) : unitField ((op ++ u) ++ z) = u := by
  unfold unitField
  ext i hi
  have h1 : ¬16 + i < 16 := by omega
  have h2 : 16 + i - 16 = i := by omega
  rw [BitVec.getElem_extractLsb', BitVec.getLsbD_append, if_neg h1, BitVec.getLsbD_append, h2, if_pos hi,
    BitVec.getLsbD_eq_getElem hi]

/-- The reserved field of a laid-out descriptor. -/
@[simp] theorem zeroField_word (op : BitVec 8) (u : UnitIx) (z : BitVec 16) : zeroField ((op ++ u) ++ z) = z := by
  unfold zeroField
  ext i hi
  have h1 : 0 + i < 16 := by omega
  rw [BitVec.getElem_extractLsb', BitVec.getLsbD_append, if_pos h1, Nat.zero_add, BitVec.getLsbD_eq_getElem hi]

/-- Every descriptor is its three fields laid out. -/
theorem word_fields (d : Word) : (opField d ++ unitField d) ++ zeroField d = d := by
  unfold opField unitField zeroField
  ext i hi
  simp only [BitVec.getElem_append, BitVec.getElem_extractLsb']
  split
  · simp [BitVec.getLsbD_eq_getElem hi]
  · split
    · rw [← BitVec.getLsbD_eq_getElem hi]; congr 1; omega
    · rw [← BitVec.getLsbD_eq_getElem hi]; congr 1; omega

/-- Decoding a laid-out descriptor with zero low bits is the opcode map. -/
theorem decode_word (op : BitVec 8) (u : UnitIx) :
    decode ((op ++ u) ++ 0#16) = match instrOf op u with
      | none => .error .illegalOpcode
      | some i => .ok i := by
  unfold decode
  simp only [opField_word, unitField_word, zeroField_word, if_true]
  all_goals rfl

/-- A conditional that gives something took one of its two branches. -/
theorem ite_some_cases {α : Type} {c : Prop} [Decidable c] {a b : α} {e : Option α}
    (h : (if c then some a else e) = some b) : (c ∧ a = b) ∨ (¬c ∧ e = some b) := by
  by_cases hc : c
  · rw [if_pos hc] at h; exact .inl ⟨hc, Option.some.inj h⟩
  · rw [if_neg hc] at h; exact .inr ⟨hc, h⟩

/-- The opcode map names each operation by its own opcode. -/
theorem instrOf_some {op : BitVec 8} {u : UnitIx} {i : Instr} (h : instrOf op u = some i) :
    i.opcode = op ∧ i.unit = u := by
  unfold instrOf at h
  iterate 19
    rcases ite_some_cases h with ⟨rfl, rfl⟩ | ⟨-, h⟩
    · exact ⟨rfl, rfl⟩
  cases h

/-- Every operation's opcode names it in the opcode map. -/
theorem instrOf_opcode (i : Instr) : instrOf i.opcode i.unit = some i := by
  cases i <;> rfl

end Sys2Proof
end

