-- ==== Sys2Proof/Laws/Encoder.lean ====
section
/-! SUPPORT. The encoder's shift registers and its queue of 64 slots. -/

namespace Sys2Proof.Machine

/-! ### Shifting in a sample (41_rotary_encoder.md R154, R155) -/

/-- Two bits shifted into a four-bit code keep its lower pair above them. -/
theorem code_shift (c : BitVec 4) (ab : BitVec 2) : (c <<< 2) ||| ab.setWidth 4 = c.extractLsb' 0 2 ++ ab := by
  revert c ab; decide

/-- A code shifted into the sequence keeps the sequence's lower code above it. -/
theorem seq_shift (q : BitVec 8) (c : BitVec 4) : (q <<< 4) ||| c.setWidth 8 = q.extractLsb' 0 4 ++ c := by
  refine BitVec.eq_of_getLsbD_eq fun i hi => ?_
  rw [BitVec.getLsbD_or, BitVec.getLsbD_append, BitVec.getLsbD_shiftLeft, BitVec.getLsbD_setWidth,
    BitVec.getLsbD_extractLsb']
  by_cases h : i < 4
  · simp [h, hi]
  · have h4 : c.getLsbD i = false := BitVec.getLsbD_of_ge _ _ (by omega)
    simp [h, hi, h4]; omega

/-! ### The queue's slots -/

/-- One bit of a one-hot slot mask. -/
theorem slotMask_getLsbD (k j : BitVec 6) : (1#64 <<< k.toNat).getLsbD j.toNat = decide (j = k) := by
  have hj : j.toNat < 64 := j.isLt
  rw [BitVec.getLsbD_shiftLeft, BitVec.getLsbD_one]
  by_cases h : j = k
  · subst h; simp [hj]
  · have : j.toNat ≠ k.toNat := fun e => h (BitVec.eq_of_toNat_eq e)
    rw [decide_eq_false h]
    rcases Nat.lt_or_gt_of_ne this with h' | h'
    · simp [h']
    · simp [show ¬(j.toNat - k.toNat = 0) by omega]

/-- A written slot reads as written, every other as before. -/
theorem slotAt_slotWrite (slots : BitVec 64) (k j : BitVec 6) (d : Dir) :
    slotAt (slotWrite slots k d) j = if j = k then d else slotAt slots j := by
  have hj : j.toNat < 64 := j.isLt
  have hand : (slots &&& ~~~(1#64 <<< k.toNat)).getLsbD j.toNat = (slots.getLsbD j.toNat && !decide (j = k)) := by
    rw [BitVec.getLsbD_and, BitVec.getLsbD_not, slotMask_getLsbD, decide_eq_true hj, Bool.true_and]
  have hor : (slots ||| (1#64 <<< k.toNat)).getLsbD j.toNat = (slots.getLsbD j.toNat || decide (j = k)) := by
    rw [BitVec.getLsbD_or, slotMask_getLsbD]
  unfold slotAt slotWrite
  cases d
  · simp only [dirBit, Bool.false_eq_true, if_false]
    rw [hand]
    by_cases h : j = k <;> simp [h]
  · simp only [dirBit, if_true]
    rw [hor]
    by_cases h : j = k <;> simp [h]

/-- The queue is full when `tail` is just behind `head`. -/
theorem push_full {d : Dir} {st : EncoderSt} (h : st.tail + 1#6 = st.head) : push d st = st := by
  unfold push
  exact if_pos h

/-- A push into a queue that is not full. -/
theorem push_room {d : Dir} {st : EncoderSt} (h : st.tail + 1#6 ≠ st.head) :
    push d st = { st with slots := slotWrite st.slots st.tail d, tail := st.tail + 1#6 } := by
  unfold push
  exact if_neg h

/-- The number of queued detents is `(tail - head) mod 64` (41_rotary_encoder.md R159). -/
@[simp] theorem entries_length (st : EncoderSt) : st.entries.length = (st.tail - st.head).toNat := by
  simp [EncoderSt.entries]

/-- What a decoder leaves of the queue's consumer side and of the interrupt enable, in either encoding. -/
theorem decodeSample_frame (p : Params) (cfg : EncoderCfg) (ab : BitVec 2) (st : EncoderSt) :
    (decodeSample p cfg ab st).head = st.head ∧ (decodeSample p cfg ab st).pending = st.pending ∧
      (decodeSample p cfg ab st).irqEnabled = st.irqEnabled := by
  have hpush (d : Dir) (x : EncoderSt) :
      (push d x).head = x.head ∧ (push d x).pending = x.pending ∧ (push d x).irqEnabled = x.irqEnabled := by
    unfold push; split <;> simp
  unfold decodeSample
  split
  · unfold decodeAlt
    simp only
    split
    · split
      · exact hpush _ _
      · exact ⟨rfl, rfl, rfl⟩
    · exact ⟨rfl, rfl, rfl⟩
  · unfold decodeStd
    simp only
    split
    · split
      · exact hpush _ _
      · split
        · exact hpush _ _
        · exact ⟨rfl, rfl, rfl⟩
    · exact ⟨rfl, rfl, rfl⟩

/-- What ENC_READ's rule leaves of the producer's side (20_memory.md R69). -/
theorem readEncoder_frame (cfg : EncoderCfg) (st : EncoderSt) :
    (readEncoder cfg st).2.code = st.code ∧ (readEncoder cfg st).2.seq = st.seq ∧
      (readEncoder cfg st).2.alt = st.alt ∧ (readEncoder cfg st).2.slots = st.slots ∧
      (readEncoder cfg st).2.tail = st.tail ∧ (readEncoder cfg st).2.irqEnabled = st.irqEnabled := by
  unfold readEncoder
  split
  · exact ⟨rfl, rfl, rfl, rfl, rfl, rfl⟩
  · split <;> exact ⟨rfl, rfl, rfl, rfl, rfl, rfl⟩

end Sys2Proof.Machine
end

