-- ==== Sys2Proof/Laws/PerInstr.lean ====
section
/-! SUPPORT. Statements made for every operation, one lemma per constructor: the descriptor of an operation has the
fields of 30_encoding.md R80. -/

namespace Sys2Proof.Laws.EncodingFields

/-- The descriptor's fields are the operation's opcode (R83), its unit (R82) and sixteen zeros (R85), and the opcode
map names the operation by them. -/
def Statement (i : Instr) : Prop :=
  opField (encode i) = i.opcode ∧ unitField (encode i) = i.unit ∧ zeroField (encode i) = 0#16 ∧
    instrOf (opField (encode i)) (unitField (encode i)) = some i

/-- The fields of any descriptor the encoder lays out. -/
theorem fields (i : Instr) : Statement i := by
  have h1 : opField (encode i) = i.opcode := opField_word _ _ _
  have h2 : unitField (encode i) = i.unit := unitField_word _ _ _
  exact ⟨h1, h2, zeroField_word _ _ _, by rw [h1, h2]; exact instrOf_opcode i⟩

theorem cfgDpin (u : UnitIx) : Statement (.cfgDpin u) := fields _
theorem cfgMatrix (u : UnitIx) : Statement (.cfgMatrix u) := fields _
theorem cfgShiftreg (u : UnitIx) : Statement (.cfgShiftreg u) := fields _
theorem cfgEncoder (u : UnitIx) : Statement (.cfgEncoder u) := fields _
theorem cfgExtsrc (u : UnitIx) : Statement (.cfgExtsrc u) := fields _
theorem cfgAxis (u : UnitIx) : Statement (.cfgAxis u) := fields _
theorem start (u : UnitIx) : Statement (.start u) := fields _
theorem dpinRead (u : UnitIx) : Statement (.dpinRead u) := fields _
theorem mtxScan (u : UnitIx) : Statement (.mtxScan u) := fields _
theorem srRead (u : UnitIx) : Statement (.srRead u) := fields _
theorem encRead (u : UnitIx) : Statement (.encRead u) := fields _
theorem extRead (u : UnitIx) : Statement (.extRead u) := fields _
theorem chainRead (u : UnitIx) : Statement (.chainRead u) := fields _
theorem chainMask (u : UnitIx) : Statement (.chainMask u) := fields _
theorem encEdge (u : UnitIx) : Statement (.encEdge u) := fields _
theorem axRead (u : UnitIx) : Statement (.axRead u) := fields _
theorem axResetCal (u : UnitIx) : Statement (.axResetCal u) := fields _
theorem axSetCal (u : UnitIx) : Statement (.axSetCal u) := fields _
theorem axGetCal (u : UnitIx) : Statement (.axGetCal u) := fields _

end Sys2Proof.Laws.EncodingFields
end

