-- ==== Sys2Proof/Laws/Reads.lean ====
section
/-! SUPPORT. What one atomic read of a source does: the order of the draws, and the cells and positions it visits. -/

namespace Sys2Proof.Machine

/-! ### Draws in a row -/

/-- One more level is drawn at the end. -/
theorem Draws.levels_succ (k : Nat) (d : Draws) :
    Draws.levels (k + 1) d =
      ((Draws.levels k d).1 ++ [(Draws.levels k d).2.pinRead.1], (Draws.levels k d).2.pinRead.2) := by
  induction k generalizing d with
  | zero => rfl
  | succ k ih => rw [Draws.levels, ih d.pinRead.2]; rfl

/-- As many levels are drawn as asked for. -/
@[simp] theorem Draws.levels_length (k : Nat) (d : Draws) : (Draws.levels k d).1.length = k := by
  induction k generalizing d with
  | zero => rfl
  | succ k ih => simp [Draws.levels, ih]

/-- The levels drawn first do not depend on how many are drawn after them. -/
theorem Draws.levels_getElem? {k c : Nat} (d : Draws) (h : c < k) :
    (Draws.levels k d).1[c]? = some (Draws.levels c d).2.pinRead.1 := by
  induction k with
  | zero => omega
  | succ k ih =>
    rw [Draws.levels_succ]
    by_cases hc : c < k
    · rw [List.getElem?_append_left (by simpa using hc), ih hc]
    · obtain rfl : c = k := by omega
      rw [List.getElem?_append_right (by simp)]
      simp

/-! ### The scan of a matrix -/

/-- The scan visits the cells `0, 1, …` in increasing index (20_memory.md R61). -/
theorem scanMatrix_eq (cfg : MatrixCfg) (prev : InputBitmap) (now : Time) (a : Scan) :
    scanMatrix cfg prev now a =
      (List.range (cfg.selectors * cfg.inputs)).foldl (fun a c => scanCell cfg prev now c a) a := by
  unfold scanMatrix
  induction cfg.selectors with
  | zero => simp
  | succ k ih =>
    rw [List.range_succ, List.foldl_append, ih, Nat.succ_mul, List.range_add, List.foldl_append, List.foldl_map]
    rfl

/-- What a scan of the first `k` cells has done (40_digital_sources.md R115). -/
theorem scanCells_spec (cfg : MatrixCfg) (prev : InputBitmap) (now : Time) (stamps : List Time) (d : Draws) (k : Nat)
    (hk : k ≤ cfg.map.length) :
    let a := (List.range k).foldl (fun a c => scanCell cfg prev now c a) { out := 0#64, lastActive := stamps, draws := d }
    a.draws = (Draws.levels k d).2 ∧ a.lastActive.length = stamps.length ∧
      (∀ c, c < stamps.length → a.lastActive[c]? =
        some (if c < k ∧ (Draws.levels c d).2.pinRead.1 = cfg.inActive then now else stamps.getD c 0#64)) ∧
      ∀ n : InputNumber, a.out.getLsbD n.val = true ↔ ∃ c, c < k ∧ cfg.map[c]? = some n ∧
        ((Draws.levels c d).2.pinRead.1 = cfg.inActive ∨
          (prev.getLsbD n.val = true ∧ now - stamps.getD c 0#64 < cfg.window)) := by
  induction k with
  | zero =>
    refine ⟨rfl, rfl, fun c hc => ?_, fun n => by simp⟩
    simp [List.getD, hc]
  | succ k ih =>
    intro a
    obtain ⟨h1, h2, h3, h4⟩ := ih (by omega)
    have hm : cfg.map[k]? = some cfg.map[k] := List.getElem?_eq_getElem (by omega)
    generalize hb : (List.range k).foldl (fun a c => scanCell cfg prev now c a)
      { out := 0#64, lastActive := stamps, draws := d } = b at h1 h2 h3 h4
    have ha : a = scanCell cfg prev now k b := by
      show (List.range (k + 1)).foldl _ _ = _
      rw [List.range_succ, List.foldl_append, hb]; rfl
    have hstamp : b.lastActive.getD k 0#64 = stamps.getD k 0#64 := by
      by_cases hs : k < stamps.length
      · rw [List.getD_eq_getElem?_getD, h3 k hs]; simp
      · rw [List.getD_eq_default _ _ (by omega), List.getD_eq_default _ _ (by omega)]
    have hbit (n : InputNumber) (P : Nat → Prop) :
        (∃ c, c < k + 1 ∧ cfg.map[c]? = some n ∧ P c) ↔
          (∃ c, c < k ∧ cfg.map[c]? = some n ∧ P c) ∨ (cfg.map[k] = n ∧ P k) := by
      constructor
      · rintro ⟨c, hc, e, p⟩
        by_cases hck : c = k
        · subst hck; rw [hm] at e; exact .inr ⟨Option.some.inj e, p⟩
        · exact .inl ⟨c, by omega, e, p⟩
      · rintro (⟨c, hc, e, p⟩ | ⟨e, p⟩)
        · exact ⟨c, by omega, e, p⟩
        · exact ⟨k, by omega, by rw [hm, e], p⟩
    have hlast (c : Nat) (hne : c ≠ k) (x y : Time) :
        (if c < k + 1 ∧ (Draws.levels c d).2.pinRead.1 = cfg.inActive then x else y) =
          if c < k ∧ (Draws.levels c d).2.pinRead.1 = cfg.inActive then x else y := by
      simp only [show c < k + 1 ↔ c < k by omega]
    rw [ha]
    unfold scanCell
    simp only [hm, h1, hstamp]
    by_cases hp : (Draws.levels k d).2.pinRead.1 = cfg.inActive
    · rw [if_pos (by simpa using hp)]
      refine ⟨by rw [Draws.levels_succ], by simpa using h2, fun c hc => ?_, fun n => ?_⟩
      · show (b.lastActive.set k now)[c]? = _
        by_cases hck : c = k
        · subst hck
          rw [List.getElem?_set_self (by omega), if_pos ⟨by omega, hp⟩]
        · rw [List.getElem?_set_ne (Ne.symm hck), h3 c hc, hlast c hck]
      · rw [BitVec.getLsbD_or, Bool.or_eq_true, h4, hbit]
        simp [hp]
    · rw [if_neg (by simpa using hp)]
      have hst (c : Nat) (hc : c < stamps.length) : b.lastActive[c]? =
          some (if c < k + 1 ∧ (Draws.levels c d).2.pinRead.1 = cfg.inActive then now else stamps.getD c 0#64) := by
        rw [h3 c hc]
        by_cases hck : c = k
        · subst hck; simp [hp]
        · rw [hlast c hck]
      by_cases hh : prev.getLsbD cfg.map[k].val = true ∧ now - stamps.getD k 0#64 < cfg.window
      · rw [if_pos (by rw [Bool.and_eq_true, insideWindow_iff]; exact hh)]
        refine ⟨by rw [Draws.levels_succ], h2, hst, fun n => ?_⟩
        rw [BitVec.getLsbD_or, Bool.or_eq_true, h4, hbit, inputBit_getLsbD, decide_eq_true_iff]
        refine or_congr Iff.rfl ⟨fun e => ⟨e, .inr (e ▸ hh)⟩, fun e => e.1⟩
      · rw [if_neg (by rw [Bool.and_eq_true, insideWindow_iff]; exact hh)]
        refine ⟨by rw [Draws.levels_succ], h2, hst, fun n => ?_⟩
        rw [h4, hbit]
        refine ⟨.inl, fun e => e.elim id fun ⟨e, f⟩ => ?_⟩
        subst e
        exact absurd (f.resolve_left hp) hh

/-! ### The positions of a shift register -/

/-- What a read of the first `k` serial positions has done (40_digital_sources.md R125). -/
theorem shiftPositions_spec (cfg : ShiftRegCfg) (d : Draws) (k : Nat) (hk : k ≤ cfg.map.length) :
    let a := (List.range k).foldl (shiftPosition cfg) (0#64, d)
    a.2 = (Draws.levels k d).2 ∧ ∀ n : InputNumber, a.1.getLsbD n.val = true ↔
      ∃ i, i < k ∧ cfg.map[i]? = some n ∧ (Draws.levels i d).2.pinRead.1 = cfg.dataActive := by
  induction k with
  | zero => exact ⟨rfl, fun n => by simp⟩
  | succ k ih =>
    intro a
    obtain ⟨h1, h2⟩ := ih (by omega)
    have hm : cfg.map[k]? = some cfg.map[k] := List.getElem?_eq_getElem (by omega)
    generalize hb : (List.range k).foldl (shiftPosition cfg) (0#64, d) = b at h1 h2
    have ha : a = shiftPosition cfg b k := by
      show (List.range (k + 1)).foldl _ _ = _
      rw [List.range_succ, List.foldl_append, hb]; rfl
    rw [ha]
    unfold shiftPosition
    simp only [hm, h1]
    refine ⟨by rw [Draws.levels_succ], fun n => ?_⟩
    have hbit : (∃ i, i < k + 1 ∧ cfg.map[i]? = some n ∧ (Draws.levels i d).2.pinRead.1 = cfg.dataActive) ↔
        (∃ i, i < k ∧ cfg.map[i]? = some n ∧ (Draws.levels i d).2.pinRead.1 = cfg.dataActive) ∨
          (cfg.map[k] = n ∧ (Draws.levels k d).2.pinRead.1 = cfg.dataActive) := by
      constructor
      · rintro ⟨i, hi, e, p⟩
        by_cases hik : i = k
        · subst hik; rw [hm] at e; exact .inr ⟨Option.some.inj e, p⟩
        · exact .inl ⟨i, by omega, e, p⟩
      · rintro (⟨i, hi, e, p⟩ | ⟨e, p⟩)
        · exact ⟨i, by omega, e, p⟩
        · exact ⟨k, by omega, by rw [hm, e], p⟩
    rw [hbit, ← h2]
    by_cases hp : (Draws.levels k d).2.pinRead.1 = cfg.dataActive
    · rw [if_pos (by simpa using hp), BitVec.getLsbD_or, Bool.or_eq_true, inputBit_getLsbD, decide_eq_true_iff]
      simp [hp]
    · rw [if_neg (by simpa using hp)]
      simp [hp]

/-! ### What a read keeps -/

/-- A read keeps the source's configuration (20_memory.md R73). -/
theorem readSource_configOnly (x : Source) (prev : InputBitmap) (now : Time) (d : Draws) :
    (readSource x prev now d).source.configOnly = x.configOnly := by cases x <;> rfl

/-- A claim depends on the configuration only (40_digital_sources.md R101). -/
theorem claim_configOnly (x : Source) : x.configOnly.claim = x.claim := by cases x <;> rfl

/-- A read keeps the source's claim. -/
theorem readSource_claim (x : Source) (prev : InputBitmap) (now : Time) (d : Draws) :
    (readSource x prev now d).source.claim = x.claim := by
  rw [← claim_configOnly, readSource_configOnly, claim_configOnly]

/-- A scan keeps the number of stamps. -/
theorem scanCell_length (cfg : MatrixCfg) (prev : InputBitmap) (now : Time) (c : Nat) (a : Scan) :
    (scanCell cfg prev now c a).lastActive.length = a.lastActive.length := by
  unfold scanCell
  split
  · rfl
  · split
    · simp
    · split <;> rfl

/-- A read of a matrix keeps the number of stamps. -/
theorem scanMatrix_length (cfg : MatrixCfg) (prev : InputBitmap) (now : Time) (a : Scan) :
    (scanMatrix cfg prev now a).lastActive.length = a.lastActive.length := by
  rw [scanMatrix_eq]
  generalize List.range _ = l
  induction l generalizing a with
  | nil => rfl
  | cons c l ih => rw [List.foldl_cons, ih, scanCell_length]

end Sys2Proof.Machine
end

