-- ==== Sys2Proof/Tests/Slice0.lean ====
section
/-! SUPPORT. The model's own tests: ill-formed terms, descriptors written out from the spec's encoding, the vectors of
95_test_vectors.md one step at a time, and for every statement with hypotheses a concrete case that meets them. -/

namespace Sys2Proof.Tests

open Sys2Proof.Machine

/-! ### Well-formedness (30_encoding.md R84) -/

theorem test_wf_start_unit : (Instr.start 1#8).wellFormed = false := by decide
theorem test_wf_chain_read_unit : (Instr.chainRead 1#8).wellFormed = false := by decide
theorem test_wf_chain_mask_unit : (Instr.chainMask 255#8).wellFormed = false := by decide
theorem test_wf_cfg_axis_unit : (Instr.cfgAxis 2#8).wellFormed = false := by decide
theorem test_wf_axis_units :
    (Instr.axRead 2#8).wellFormed = false ∧ (Instr.axResetCal 2#8).wellFormed = false ∧
      (Instr.axSetCal 2#8).wellFormed = false ∧ (Instr.axGetCal 2#8).wellFormed = false := by decide
theorem test_wf_legal : (Instr.start 0#8).wellFormed = true ∧ (Instr.axRead 1#8).wellFormed = true ∧
    (Instr.encEdge 255#8).wellFormed = true := by decide

/-! ### Descriptors written out from R80 and R83: `op` 31:24, `unit` 23:16, zeros below -/

theorem test_decode_config :
    decode 0b00000001_00000000_00000000_00000000#32 = .ok (.cfgDpin 0#8) ∧
    decode 0b00000010_00000001_00000000_00000000#32 = .ok (.cfgMatrix 1#8) ∧
    decode 0b00000011_00000010_00000000_00000000#32 = .ok (.cfgShiftreg 2#8) ∧
    decode 0b00000100_00000011_00000000_00000000#32 = .ok (.cfgEncoder 3#8) ∧
    decode 0b00000101_00000100_00000000_00000000#32 = .ok (.cfgExtsrc 4#8) ∧
    decode 0b00000110_00000001_00000000_00000000#32 = .ok (.cfgAxis 1#8) ∧
    decode 0b00001111_00000000_00000000_00000000#32 = .ok (.start 0#8) := by decide
theorem test_decode_reads :
    decode 0b00010000_00000001_00000000_00000000#32 = .ok (.dpinRead 1#8) ∧
    decode 0b00010001_00000010_00000000_00000000#32 = .ok (.mtxScan 2#8) ∧
    decode 0b00010010_10000000_00000000_00000000#32 = .ok (.srRead 128#8) ∧
    decode 0b00010011_00000010_00000000_00000000#32 = .ok (.encRead 2#8) ∧
    decode 0b00010100_00000100_00000000_00000000#32 = .ok (.extRead 4#8) ∧
    decode 0b00011000_00000000_00000000_00000000#32 = .ok (.chainRead 0#8) ∧
    decode 0b00011001_00000000_00000000_00000000#32 = .ok (.chainMask 0#8) := by decide
theorem test_decode_edge_and_axis :
    decode 0b00100000_11111111_00000000_00000000#32 = .ok (.encEdge 255#8) ∧
    decode 0b00110000_00000001_00000000_00000000#32 = .ok (.axRead 1#8) ∧
    decode 0b00110001_00000001_00000000_00000000#32 = .ok (.axResetCal 1#8) ∧
    decode 0b00110010_00000000_00000000_00000000#32 = .ok (.axSetCal 0#8) ∧
    decode 0b00110011_00000000_00000000_00000000#32 = .ok (.axGetCal 0#8) := by decide
/-- V-DE1 to V-DE4: unassigned opcodes, then reserved bits; an unassigned opcode is reported first (R87). -/
theorem test_decode_rejects :
    decode 0x00000000#32 = .error .illegalOpcode ∧ decode 0x07000000#32 = .error .illegalOpcode ∧
    decode 0xFF000000#32 = .error .illegalOpcode ∧ decode 0x07000001#32 = .error .illegalOpcode ∧
    decode 0x10010001#32 = .error .reservedBits ∧ decode 0x01028000#32 = .error .reservedBits := by decide
theorem test_table_word : decodeTableWord 32 0x13020000 = some (.encRead 2#8) ∧
    decodeTableWord 32 0x07000000 = none ∧ encode (.encRead 2#8) = 0x13020000#32 := by decide

/-! ### Small states -/

/-- The next state of an outcome. -/
def nextOf (o : Host.Outcome State Fault Refusal) : Option State :=
  match o with
  | .next t => some t
  | _ => none

/-- The fault of an outcome. -/
def faultOf (o : Host.Outcome State Fault Refusal) : Option Fault :=
  match o with
  | .fault f => some f
  | _ => none

/-- The encoder state of a slot. -/
def encoderAt (s : State) (u : Nat) : Option EncoderSt :=
  match s.src[u]? with
  | some (.encoder _ st) => some st
  | _ => none

/-- A fresh block whose SETUP presents a record, with both lines of an encoder at the given levels. -/
def fresh (r : Record) (a b : Level) : State :=
  { State.reset with
    ports := { Ports.initial with record := r }
    draws := { pins := [a, b], raws := [], exts := [], count := 0 } }

/-- 95_test_vectors.md V-CF1's record, with the input number given. -/
def dpinRec (input : Nat) : Record := [(.pin, .num 13), (.input, .num input), (.activeLevel, .num 0), (.window, .num 5)]

/-- V-CF5's record, with the pins and the map given. -/
def matrixRec (sel inp map : List Nat) : Record :=
  [(.selPins, .list sel), (.inPins, .list inp), (.map, .list map), (.selActive, .num 0), (.inActive, .num 0),
    (.window, .num 4), (.settle, .num 1)]

/-- V-CF12's record, with the length and the map given. -/
def shiftRec (n : Nat) (map : List Nat) : Record :=
  [(.loadPin, .num 20), (.clkPin, .num 21), (.dataPin, .num 22), (.n, .num n), (.map, .list map), (.loadActive, .num 0),
    (.clkActive, .num 1), (.dataActive, .num 1), (.pulse, .num 1)]

/-- V-CF16's record, with the second pin, `cw` and `ccw` given. -/
def encoderRec (dt cw : Nat) (ccw : List Nat) : Record :=
  [(.clkPin, .num 4), (.dtPin, .num dt), (.cw, .num cw)] ++ ccw.map (fun n => (.ccw, .num n))

/-- V-CF22's record. -/
def extRec (fn : Nat) : Record := [(.mask, .num 0xFF0000), (.fn, .num fn)]

/-- V-CF23's record. -/
def axisRec : Record := [(.channel, .num 34), (.inverted, .bool true)]

/-- The matrix of V-MX1. -/
def demoMatrix : MatrixCfg :=
  { selPins := [1, 2], inPins := [3, 4], map := [0, 1, 2, 3], selActive := 0#1, inActive := 0#1, window := 4#64,
    settle := 1#64 }

/-- The shift register of V-SR1. -/
def demoShift : ShiftRegCfg :=
  { loadPin := 20, clkPin := 21, dataPin := 22, n := 4, map := [8, 9, 10, 11], loadActive := 0#1, clkActive := 1#1,
    dataActive := 1#1, pulse := 1#64 }

/-- The encoder of V-EN9, in either encoding. -/
def demoEncoder (alternate : Bool) : EncoderCfg := { clkPin := 4, dtPin := 5, cw := 10, ccw := 11, alternate := alternate }

/-- V-EN9's state with one CW detent queued. -/
def demoEncoderSt : EncoderSt :=
  { code := 0x1#4, seq := 0x81#8, alt := 0#4, slots := 1#64, head := 0#6, tail := 1#6, pending := false,
    irqEnabled := true }

/-- The direct pin of V-DP1. -/
def demoDpin : DpinCfg := { pin := 13, input := 2, activeLevel := 0#1, window := 5#64 }

/-- A block with one source of each kind in slots 0 to 4, a second encoder in slot 5 and the left axis. -/
def demo (ph : Phase) (a : Agent) (now : Time) (pins : List Level) : State :=
  { State.reset with
    phase := ph
    src := [.dpin demoDpin { lastRaw := true, lastChange := 13#64 }, .matrix demoMatrix { lastActive := [100, 0, 0, 0] },
      .shiftReg demoShift, .encoder (demoEncoder false) demoEncoderSt, .opaqueExt { mask := 0x0F#64, fn := 0 } 7,
      .encoder (demoEncoder true) demoEncoderSt]
    axisLeft := some { cfg := { channel := 36, inverted := false }, st := { min := 1000, max := 3000 } }
    lastNow := 10#64
    ports := { agent := a, prev := 0#64, now := now, cal := (100, 5000), record := dpinRec 64 }
    draws := { pins := pins, raws := [1500], exts := [0], count := 0 } }

/-- The request of a descriptor by an agent at a time. -/
def request (d : Word) (a : Agent) (now : Time) : Request :=
  { desc := d, ports := { agent := a, prev := 0#64, now := now, cal := (0, 0), record := [] } }

/-! ### Configuration (95_test_vectors.md section 2.2) -/

/-- V-CF1: created; one source, claiming bit 3. -/
theorem test_cfg_dpin : (nextOf (exec (.cfgDpin 0#8) (fresh (dpinRec 3) 0 0))).map (fun t => (t.nsrc, t.chainMask)) =
    some (1, 0x8#64) := by decide
/-- V-CF3: `input = 64` terminates with code 0x04 and creates nothing. -/
theorem test_cfg_dpin_range : (nextOf (exec (.cfgDpin 0#8) (fresh (dpinRec 64) 0 0))).map (fun t => (t.phase, t.nsrc)) =
    some (.terminated .inputNumberOutOfRange, 0) := by decide
/-- V-CF5: the claim and the trace. -/
theorem test_cfg_matrix :
    (nextOf (exec (.cfgMatrix 0#8) (fresh (matrixRec [1, 2] [3, 4] [0, 1, 2, 3]) 0 0))).map
      (fun t => (t.chainMask, t.trace)) = some (0xF#64, [.write 1 1#1, .write 2 1#1]) := by decide
/-- V-CF8 and V-CF11: the pin count before the length, the range before duplicates. -/
theorem test_cfg_matrix_order :
    (nextOf (exec (.cfgMatrix 0#8) (fresh (matrixRec [] [3, 4] [0, 1, 2]) 0 0))).map State.phase =
      some (.terminated .invalidPinCount) ∧
    (nextOf (exec (.cfgMatrix 0#8) (fresh (matrixRec [1, 2] [3, 4] [70, 70, 1, 2]) 0 0))).map State.phase =
      some (.terminated .inputNumberOutOfRange) := by decide
/-- V-CF12: the claim and the trace. -/
theorem test_cfg_shiftreg :
    (nextOf (exec (.cfgShiftreg 0#8) (fresh (shiftRec 8 [8, 9, 10, 11, 12, 13, 14, 15]) 0 0))).map
      (fun t => (t.chainMask, t.trace)) = some (0xFF00#64, [.write 20 1#1, .write 21 0#1]) := by decide
/-- V-CF13 and V-CF15. -/
theorem test_cfg_shiftreg_errors :
    (nextOf (exec (.cfgShiftreg 0#8) (fresh (shiftRec 0 []) 0 0))).map State.phase =
      some (.terminated .invalidArrayLength) ∧
    (nextOf (exec (.cfgShiftreg 0#8) (fresh (shiftRec 2 [8, 8]) 0 0))).map State.phase =
      some (.terminated .duplicateInputNumber) := by decide
/-- V-CF16: the claim, and the priming pass on `ab = 11`. -/
theorem test_cfg_encoder :
    (nextOf (exec (.cfgEncoder 0#8) (fresh (encoderRec 5 10 []) 1 1))).map State.chainMask = some 0xC00#64 ∧
    ((nextOf (exec (.cfgEncoder 0#8) (fresh (encoderRec 5 10 []) 1 1))).bind (encoderAt · 0)).map
      (fun st => (st.code, st.seq, st.tail, st.irqEnabled)) = some (0x3#4, 0x00#8, 0#6, true) := by decide
/-- V-CF21: the priming pass on `ab = 10` (line A is drawn first). -/
theorem test_cfg_encoder_priming :
    ((nextOf (exec (.cfgEncoder 0#8) (fresh (encoderRec 5 10 []) 0 1))).bind (encoderAt · 0)).map
      (fun st => (st.code, st.seq, st.tail)) = some (0x2#4, 0x02#8, 0#6) := by decide
/-- V-CF18 and V-CF20: a defaulted `ccw = 64`; distinct pins before the range. -/
theorem test_cfg_encoder_errors :
    (nextOf (exec (.cfgEncoder 0#8) (fresh (encoderRec 5 63 []) 0 0))).map State.phase =
      some (.terminated .inputNumberOutOfRange) ∧
    (nextOf (exec (.cfgEncoder 0#8) (fresh (encoderRec 4 63 []) 0 0))).map State.phase =
      some (.terminated .duplicatePin) := by decide
/-- V-CF22: claims inputs 16 to 23; an `fn` that names no function is refused. -/
theorem test_cfg_extsrc :
    (nextOf (exec (.cfgExtsrc 0#8) (fresh (extRec 0) 0 0))).map State.chainMask = some 0xFF0000#64 ∧
    (nextOf (exec (.cfgExtsrc 0#8) (fresh (extRec 1) 0 0))).map State.outcome = some (.refused .badParam) := by decide
/-- V-CF23: the right axis at the sentinels, no source. -/
theorem test_cfg_axis : (nextOf (exec (.cfgAxis 1#8) (fresh axisRec 0 0))).map (fun t => (t.axisLeft, t.axisRight, t.nsrc)) =
    some (none, some { cfg := { channel := 34, inverted := true }, st := { min := 4095, max := 0 } }, 0) := by decide
/-- V-CF24 and V-DE12. -/
theorem test_start : (nextOf (exec (.start 0#8) (fresh [] 0 0))).map State.phase = some .running ∧
    (nextOf (exec (.start 0#8) (demo .running .setup 10 []))).map State.outcome = some (.refused .badPhase) := by decide

/-! ### Reads -/

/-- V-DP6 and V-DP5: reported once stable for the window, held one tick before. -/
theorem test_dpin_read :
    (nextOf (exec (.dpinRead 0#8) (demo .running .poll 18 [0]))).map State.result = some (.bitmap 0x4#64) ∧
    (nextOf (exec (.dpinRead 0#8) (demo .running .poll 17 [0]))).map State.result = some (.bitmap 0x0#64) := by decide
/-- V-MX4: only cell 3 is closed, and it alone is stamped. -/
theorem test_mtx_scan : (nextOf (exec (.mtxScan 1#8) (demo .running .poll 105 [1, 1, 1, 0]))).map
    (fun t => (t.result, t.src[1]?, t.trace.length)) =
      some (.bitmap 0x8#64, some (.matrix demoMatrix { lastActive := [100, 0, 0, 105] }), 8) := by decide
/-- V-SR1 and V-SR4. -/
theorem test_sr_read :
    (nextOf (exec (.srRead 2#8) (demo .running .poll 10 [1, 0, 0, 1]))).map (fun t => (t.result, t.trace.length)) =
      some (.bitmap 0x900#64, 20) ∧
    (nextOf (exec (.srRead 2#8) (demo .running .poll 10 [0, 1, 1, 0]))).map State.result = some (.bitmap 0x600#64) := by
  decide
/-- V-ER1's first read: the CW bit, `head` moves, `pending` is set. -/
theorem test_enc_read : (nextOf (exec (.encRead 3#8) (demo .running .poll 10 []))).map (fun t => (t.result, t.src[3]?)) =
    some (.bitmap 0x400#64, some (.encoder (demoEncoder false) { demoEncoderSt with head := 1#6, pending := true })) := by
  decide
/-- An opaque read completes and takes one draw. -/
theorem test_ext_read : (nextOf (exec (.extRead 4#8) (demo .running .poll 10 []))).map
    (fun t => (t.outcome, t.draws.exts, t.lastNow)) = some (.completed, [], 10#64) := by decide
/-- V-CH4, and the first of several sub-reads. -/
theorem test_chain_read :
    (nextOf (exec (.chainRead 0#8) { fresh [] 0 0 with phase := .running, ports := { Ports.initial with agent := .poll } })).map
      State.result = some (.bitmap 0x0#64) ∧
    (nextOf (exec (.chainRead 0#8) (demo .running .poll 18 [0]))).map (fun t => (t.chain, t.outcome)) =
      some (some { next := 1, acc := 0x4#64, prev := 0#64, now := 18#64 }, .reading) := by decide
/-- The OR of the claims of the small block. -/
theorem test_chain_mask : (nextOf (exec (.chainMask 0#8) (demo .running .poll 10 []))).map State.result =
    some (.bitmap 0xF0F#64) := by decide
/-- V-EN9: the sample 11 gives code 7 and sequence 0x17 and pushes CW; V-DE22: no step before CFG_ENCODER. -/
theorem test_enc_edge : (nextOf (exec (.encEdge 3#8) (demo .running (.isr 3) 10 [1, 1]))).map (fun t => t.src[3]?) =
    some (some (.encoder (demoEncoder false)
      { demoEncoderSt with code := 0x7#4, seq := 0x17#8, slots := 3#64, tail := 2#6 })) ∧
    faultOf (exec (.encEdge 0#8) { fresh [] 0 0 with ports := { Ports.initial with agent := .isr 0 } }) =
      some .agentAbsent := by decide

/-! ### Axis -/

/-- V-AX5. -/
theorem test_ax_read : (nextOf (exec (.axRead 0#8) (demo .running .poll 10 []))).map State.result =
    some (.axisValue 63 false) := by decide
/-- V-AX2, V-AX4, V-AX9 and V-AX10 on the map itself. -/
theorem test_axis_map : axisMap 3000 2000 3000 false = 254 ∧ axisMap 1000 1000 3000 false = 0 ∧
    axisMap 2500 1000 3000 true = 64 ∧ axisMap 1000 1000 1000 true = 254 := by decide
/-- V-AX13. -/
theorem test_ax_reset_cal : (nextOf (exec (.axResetCal 0#8) (demo .running .poll 10 []))).map State.axisLeft =
    some (some { cfg := { channel := 36, inverted := false }, st := { min := 4095, max := 0 } }) := by decide
/-- V-AX14. -/
theorem test_ax_set_cal : (nextOf (exec (.axSetCal 0#8) (demo .running .poll 10 []))).map State.axisLeft =
    some (some { cfg := { channel := 36, inverted := false }, st := { min := 100, max := 4095 } }) := by decide
/-- AX_GET_CAL in phase SETUP (V-DE24). -/
theorem test_ax_get_cal : (nextOf (exec (.axGetCal 0#8) (demo .setup .setup 10 []))).map State.result =
    some (.bounds 1000 3000) := by decide

/-! ### Checks, steps and reset -/

/-- V-DE6, V-DE7, V-DE8, V-DE13 and V-DE19: the agent before CFG_AFTER_START, then the phase, the unit and the time. -/
theorem test_check_order :
    (nextOf (exec (.cfgDpin 2#8) (demo .running .poll 10 []))).map State.outcome = some (.refused .wrongAgent) ∧
    (nextOf (exec (.cfgDpin 2#8) (demo .running .setup 9 []))).map State.outcome = some (.terminated .afterStart) ∧
    (nextOf (exec (.encRead 0#8) (demo .setup .poll 9 []))).map State.outcome = some (.refused .notStarted) ∧
    (nextOf (exec (.chainRead 1#8) (demo .running .poll 9 []))).map State.outcome = some (.refused .badUnit) ∧
    (nextOf (exec (.dpinRead 0#8) (demo .running .poll 9 []))).map State.outcome = some (.refused .timeBackwards) := by
  decide
/-- A word placed by `withFetchWord` is the next step's operation. -/
theorem test_with_fetch_word :
    (nextOf (step (State.reset.withFetchWord 32 0x01000000))).map State.chainMask = some 0x8#64 ∧
    (nextOf (step (State.reset.withFetchWord 32 0x07000000))).map State.outcome = some (.refused .illegalOpcode) := by
  decide
/-- The reset state. -/
theorem test_reset : State.reset.phase = .setup ∧ State.reset.nsrc = 0 ∧ State.reset.lastNow = 0#64 ∧
    State.reset.trace = [] ∧ State.reset.params.Legal := by decide

/-! ### Every statement's hypotheses are met: a concrete case for each, and for each clause

Where a clause has a range, the case stands at its boundary. -/

/-- A block that is not terminated and in which SETUP or POLL has the turn takes a step. -/
theorem agentSteps_task {s : State} (h1 : s.phase = .setup ∨ s.phase = .running)
    (h2 : s.ports.agent = .setup ∨ s.ports.agent = .poll) : AgentSteps s :=
  ⟨fun e => by rcases h1 with h | h <;> simp [h], fun u => by rcases h2 with h | h <;> simp [h]⟩

/-- The small block with one operation on the schedule. -/
def issued (r : Request) : State := { demo .running .poll 10 [0] with inbox := [.op r] }

theorem witness_EncodeOfDecodeIsTheDescriptor : decode 0x13020000#32 = .ok (.encRead 2#8) := by decide

theorem witness_UndecodableDescriptorIsRefused (d : Word) :
    (issued (request d .poll 10)).inbox = [.op (request d .poll 10)] ∧ (issued (request d .poll 10)).chain = none ∧
      AgentSteps { issued (request d .poll 10) with ports := (request d .poll 10).ports } :=
  ⟨rfl, rfl, agentSteps_task (.inr rfl) (.inr rfl)⟩
/-- The clauses: an unlisted opcode with zero and with nonzero low bits, a listed one with each. -/
theorem witness_UndecodableDescriptorIsRefused_clauses :
    let listed : List (BitVec 8) := [0x01, 0x02, 0x03, 0x04, 0x05, 0x06, 0x0F, 0x10, 0x11, 0x12, 0x13, 0x14, 0x18,
      0x19, 0x20, 0x30, 0x31, 0x32, 0x33]
    (0x34000000#32).extractLsb' 24 8 ∉ listed ∧ (0x00000001#32).extractLsb' 24 8 ∉ listed ∧
      (0x10010001#32).extractLsb' 24 8 ∈ listed ∧ (0x10010001#32).extractLsb' 0 16 ≠ 0#16 ∧
      (0x33FF0000#32).extractLsb' 24 8 ∈ listed ∧ (0x33FF0000#32).extractLsb' 0 16 = 0#16 := by decide

theorem witness_StepRunsTheDecodedOperation :
    (issued (request 0x13030000#32 .poll 10)).inbox = [.op (request 0x13030000#32 .poll 10)] ∧
      (issued (request 0x13030000#32 .poll 10)).chain = none ∧
      (∀ e, (issued (request 0x13030000#32 .poll 10)).phase ≠ .terminated e) ∧
      decode (request 0x13030000#32 .poll 10).desc = .ok (.encRead 3#8) :=
  ⟨rfl, rfl, fun e => by simp [issued, demo], by decide⟩

theorem witness_LegalityTableIsEnforced :
    (AgentSteps (demo .running .setup 10 []) ∧ ¬Listed (.encRead 3#8) .running .setup) ∧
    (AgentSteps (demo .running .setup 10 []) ∧ Listed (.cfgDpin 6#8) .running .setup ∧
      rowOf (.cfgDpin 6#8) = .config) ∧
    (Listed (.start 0#8) .running .setup ∧ rowOf (.start 0#8) = .start) ∧
    (AgentSteps (demo .setup .poll 10 []) ∧ Listed (.encRead 3#8) .setup .poll ∧ rowOf (.encRead 3#8) = .live) :=
  ⟨⟨agentSteps_task (.inr rfl) (.inl rfl), by simp [Listed, rowOf]⟩,
    ⟨agentSteps_task (.inr rfl) (.inl rfl), rfl, rfl⟩, ⟨rfl, rfl⟩, agentSteps_task (.inl rfl) (.inr rfl), rfl, rfl⟩

/-- CHAIN_READ with unit 1, and AX_READ with unit 2. -/
theorem witness_IllegalUnitIsRefused :
    AgentSteps (demo .running .poll 10 []) ∧ Permitted (.chainRead 1#8) (demo .running .poll 10 []) ∧
      ¬UnitLegal (.chainRead 1#8) (demo .running .poll 10 []) ∧ Permitted (.axRead 2#8) (demo .running .poll 10 []) ∧
      ¬UnitLegal (.axRead 2#8) (demo .running .poll 10 []) :=
  ⟨agentSteps_task (.inr rfl) (.inr rfl), by simp [Permitted, Listed, rowOf, demo], by simp [UnitLegal],
    by simp [Permitted, Listed, rowOf, demo], by simp [UnitLegal]⟩

/-- V-DE19, and ENC_EDGE with its interrupt enabled. -/
theorem witness_DecreasingTimeIsRefused :
    (AgentSteps (demo .running .poll 9 []) ∧ Permitted (.dpinRead 0#8) (demo .running .poll 9 []) ∧
      UnitLegal (.dpinRead 0#8) (demo .running .poll 9 []) ∧
      (demo .running .poll 9 []).ports.now < (demo .running .poll 9 []).lastNow) ∧
    (AgentSteps (demo .setup (.isr 3) 9 []) ∧ Permitted (.encEdge 3#8) (demo .setup (.isr 3) 9 []) ∧
      UnitLegal (.encEdge 3#8) (demo .setup (.isr 3) 9 []) ∧
      (demo .setup (.isr 3) 9 []).irqEnabledAt (Instr.encEdge 3#8).unit.toNat = true ∧
      (demo .setup (.isr 3) 9 []).ports.now < (demo .setup (.isr 3) 9 []).lastNow) := by
  refine ⟨⟨agentSteps_task (.inr rfl) (.inr rfl), by simp [Permitted, Listed, rowOf, demo], ⟨_, _, rfl⟩, by decide⟩,
    ⟨fun e => by simp [demo], fun u h => ?_⟩, by simp [Permitted, Listed, rowOf, demo, Instr.unit], ⟨_, _, rfl⟩,
    by decide, by decide⟩
  cases h
  exact ⟨_, _, rfl⟩

theorem witness_OnlyCheckedOperationsRun :
    (∃ t, exec (.chainMask 0#8) (demo .running .poll 10 []) = .next t ∧ t.outcome = .completed) ∧
      ∃ t, exec (.chainRead 0#8) (demo .running .poll 10 [0]) = .next t ∧ t.outcome = .reading :=
  ⟨⟨_, rfl, rfl⟩, _, rfl, rfl⟩

theorem witness_RegistrationAfterStartTerminates :
    (demo .running .setup 9 []).phase = .running ∧ (demo .running .setup 9 []).ports.agent = .setup := by decide

theorem witness_ConfigErrorTerminatesAndNothingElse :
    (∃ t, exec (.cfgDpin 6#8) (demo .setup .setup 10 []) = .next t ∧ t.outcome = .terminated .inputNumberOutOfRange) ∧
      (demo (.terminated .afterStart) .setup 10 []).phase = .terminated .afterStart := ⟨⟨_, rfl, rfl⟩, rfl⟩

theorem witness_RefusalSetsOnlyTheMark :
    (∃ t, exec (.start 0#8) (demo .running .setup 10 []) = .next t ∧ t.outcome = .refused .badPhase) ∧
      ∃ t, step { issued (request 0x13030000#32 .poll 10) with refused := true } = .next t ∧
        { issued (request 0x13030000#32 .poll 10) with refused := true }.refused = true :=
  ⟨⟨_, rfl, rfl⟩, _, rfl, rfl⟩

/-- An encoder whose interrupt is still disabled, and a handler without an encoder. -/
theorem witness_DisabledInterruptHasNoStep :
    (∃ s : State, (∀ e, s.phase ≠ .terminated e) ∧ s.ports.agent = .isr (0#8 : UnitIx).toNat ∧
      s.src[(0#8 : UnitIx).toNat]? =
        some (.encoder (demoEncoder false) { demoEncoderSt with irqEnabled := false })) ∧
    (∀ e, (demo .setup (.isr 0) 10 []).phase ≠ .terminated e) ∧ (demo .setup (.isr 0) 10 []).ports.agent = .isr 0 ∧
      ∀ cfg st, (demo .setup (.isr 0) 10 []).src[0]? ≠ some (.encoder cfg st) :=
  ⟨⟨{ demo .setup (.isr 0) 10 [] with
      src := [.encoder (demoEncoder false) { demoEncoderSt with irqEnabled := false }] },
    fun e => by simp [demo], rfl, rfl⟩, fun e => by simp [demo], rfl, fun cfg st => by simp [demo]⟩

theorem witness_RunTimeRaisesNoError :
    rowOf (.encRead 3#8) ≠ .config ∧ rowOf (.encRead 3#8) ≠ .start ∧
      ∃ t, exec (.encRead 3#8) (demo .running .poll 10 []) = .next t := ⟨by decide, by decide, _, rfl⟩

/-- A step, for the statements about every step. -/
theorem witness_steps : ∃ t, step (issued (request 0x13030000#32 .poll 11)) = .next t ∧ t.lastNow = 11#64 ∧
    (issued (request 0x13030000#32 .poll 11)).lastNow = 10#64 := ⟨_, rfl, rfl, rfl⟩

/-! #### Registration -/

/-- SETUP's turn on a fresh block, with room for a source in slot 0. -/
theorem witness_config_turn (r : Record) : ConfigTurn (fresh r 0 0) ∧ (0#8 : UnitIx).toNat = (fresh r 0 0).src.length ∧
    (fresh r 0 0).src.length < (fresh r 0 0).params.maxSources :=
  ⟨⟨rfl, rfl, BitVec.le_refl _⟩, rfl, Nat.zero_lt_succ _⟩

/-- Input numbers 63 and 64. -/
theorem witness_CfgDpinRegistersOrRaises :
    (dpinRec 63).num? .pin = some 13 ∧ (dpinRec 63).num? .input = some 63 ∧
      (dpinRec 63).level? .activeLevel = some 0#1 ∧ (dpinRec 63).word? .window = some 5#64 ∧
      (dpinRec 64).num? .input = some 64 ∧ pinAllowed Params.default.pins 13 = true := by decide

theorem witness_CfgMatrixRegistersOrRaises :
    let r := matrixRec [1, 2] [3, 4] [0, 1, 2, 63]
    r.list? .selPins = some [1, 2] ∧ r.list? .inPins = some [3, 4] ∧ r.list? .map = some [0, 1, 2, 63] ∧
      r.level? .selActive = some 0#1 ∧ r.level? .inActive = some 0#1 ∧ r.word? .window = some 4#64 ∧
      r.word? .settle = some 1#64 ∧ ∀ p ∈ [1, 2] ++ [3, 4], pinAllowed Params.default.pins p = true := by decide
/-- The clauses: no selector, 65 inputs, a map too short, 64 in the map, a number twice. -/
theorem witness_CfgMatrixRegistersOrRaises_clauses :
    (nextOf (exec (.cfgMatrix 0#8) (fresh (matrixRec [] [3] []) 0 0))).map State.phase =
      some (.terminated .invalidPinCount) ∧
    (nextOf (exec (.cfgMatrix 0#8) (fresh (matrixRec [1] (List.range 65) []) 0 0))).map State.phase =
      some (.terminated .invalidPinCount) ∧
    (nextOf (exec (.cfgMatrix 0#8) (fresh (matrixRec [1, 2] [3, 4] [0, 1, 2]) 0 0))).map State.phase =
      some (.terminated .invalidArrayLength) ∧
    (nextOf (exec (.cfgMatrix 0#8) (fresh (matrixRec [1] [3] [64]) 0 0))).map State.phase =
      some (.terminated .inputNumberOutOfRange) ∧
    (nextOf (exec (.cfgMatrix 0#8) (fresh (matrixRec [1] [3, 4] [63, 63]) 0 0))).map State.phase =
      some (.terminated .duplicateInputNumber) ∧
    (nextOf (exec (.cfgMatrix 0#8) (fresh (matrixRec [1] [3] [63]) 0 0))).map State.outcome = some .completed := by
  decide

theorem witness_CfgShiftregRegistersOrRaises :
    let r := shiftRec 2 [8, 63]
    r.num? .loadPin = some 20 ∧ r.num? .clkPin = some 21 ∧ r.num? .dataPin = some 22 ∧ r.num? .n = some 2 ∧
      r.list? .map = some [8, 63] ∧ r.level? .loadActive = some 0#1 ∧ r.level? .clkActive = some 1#1 ∧
      r.level? .dataActive = some 1#1 ∧ r.word? .pulse = some 1#64 ∧
      ∀ p ∈ [20, 21, 22], pinAllowed Params.default.pins p = true := by decide
/-- The clauses: 0 and 65 bits, 64 in the map, a number twice, one position. -/
theorem witness_CfgShiftregRegistersOrRaises_clauses :
    (nextOf (exec (.cfgShiftreg 0#8) (fresh (shiftRec 0 []) 0 0))).map State.phase =
      some (.terminated .invalidArrayLength) ∧
    (nextOf (exec (.cfgShiftreg 0#8) (fresh (shiftRec 65 (List.range 65)) 0 0))).map State.phase =
      some (.terminated .invalidArrayLength) ∧
    (nextOf (exec (.cfgShiftreg 0#8) (fresh (shiftRec 1 [64]) 0 0))).map State.phase =
      some (.terminated .inputNumberOutOfRange) ∧
    (nextOf (exec (.cfgShiftreg 0#8) (fresh (shiftRec 2 [8, 8]) 0 0))).map State.phase =
      some (.terminated .duplicateInputNumber) ∧
    (nextOf (exec (.cfgShiftreg 0#8) (fresh (shiftRec 1 [63]) 0 0))).map State.outcome = some .completed := by decide

theorem witness_CfgEncoderRegistersOrRaises :
    (encoderRec 5 62 []).num? .clkPin = some 4 ∧ (encoderRec 5 62 []).num? .dtPin = some 5 ∧
      (encoderRec 5 62 []).num? .cw = some 62 ∧ (encoderRec 5 62 []).ccw? = some none ∧
      (encoderRec 5 62 []).alternate? = some false ∧ (encoderRec 5 62 [10]).ccw? = some (some 10) ∧
      AltWellFormed Params.default ∧ pinAllowed Params.default.pins 4 = true ∧
      pinAllowed Params.default.pins 5 = true := by decide
/-- The clauses: equal pins, `ccw` defaulted to 64, `ccw = cw`, `ccw` defaulted to 63. -/
theorem witness_CfgEncoderRegistersOrRaises_clauses :
    (nextOf (exec (.cfgEncoder 0#8) (fresh (encoderRec 4 10 []) 0 0))).map State.phase =
      some (.terminated .duplicatePin) ∧
    (nextOf (exec (.cfgEncoder 0#8) (fresh (encoderRec 5 63 []) 0 0))).map State.phase =
      some (.terminated .inputNumberOutOfRange) ∧
    (nextOf (exec (.cfgEncoder 0#8) (fresh (encoderRec 5 63 [63]) 0 0))).map State.phase =
      some (.terminated .duplicateInputNumber) ∧
    (nextOf (exec (.cfgEncoder 0#8) (fresh (encoderRec 5 62 []) 0 0))).map State.outcome = some .completed := by decide

theorem witness_PrimingPushesNothingByDefault : (demoEncoder false).alternate = false ∧
    Params.default.valid = grayValid ∧ Params.default.detentCw = 0x17#8 ∧ Params.default.detentCcw = 0x2B#8 := by decide

theorem witness_CfgExtsrcRegisters : (extRec 0).word? .mask = some 0xFF0000#64 ∧ (extRec 0).num? .fn = some 0 ∧
    0 < Params.default.extFns := by decide

theorem witness_CfgAxisConfigures : axisRec.num? .channel = some 34 ∧ axisRec.bool? .inverted = some true ∧
    pinAllowed Params.default.pins 34 = true ∧ (fresh axisRec 0 0).axisLeft = none ∧
    (fresh axisRec 0 0).axisRight = none := by decide

/-- A fresh block on whose platform pin 13 alone is valid, presenting a record. -/
def onlyPin13 (r : Record) : State :=
  { fresh r 0 0 with params := { Params.default with pins := .only [13], altValid := [] } }

/-- Every clause, by what it answers: BAD_PIN, then BAD_PARAM for a missing field, for each kind. -/
theorem witness_UnmodelledRecordsAreRefused :
    (nextOf (exec (.cfgDpin 0#8) (onlyPin13 [(.pin, .num 99)]))).map State.outcome = some (.refused .badPin) ∧
    (nextOf (exec (.cfgDpin 0#8) (onlyPin13 [(.pin, .num 13)]))).map State.outcome = some (.refused .badParam) ∧
    (nextOf (exec (.cfgMatrix 0#8) (onlyPin13 (matrixRec [13] [4] [1])))).map State.outcome = some (.refused .badPin) ∧
    (nextOf (exec (.cfgMatrix 0#8) (onlyPin13 []))).map State.outcome = some (.refused .badParam) ∧
    (nextOf (exec (.cfgShiftreg 0#8) (onlyPin13 (shiftRec 1 [1])))).map State.outcome = some (.refused .badPin) ∧
    (nextOf (exec (.cfgShiftreg 0#8) (onlyPin13 []))).map State.outcome = some (.refused .badParam) ∧
    (nextOf (exec (.cfgEncoder 0#8) (onlyPin13 (encoderRec 5 10 [])))).map State.outcome = some (.refused .badPin) ∧
    (nextOf (exec (.cfgEncoder 0#8) (onlyPin13 []))).map State.outcome = some (.refused .badParam) ∧
    (nextOf (exec (.cfgExtsrc 0#8) (onlyPin13 []))).map State.outcome = some (.refused .badParam) ∧
    (nextOf (exec (.cfgExtsrc 0#8) (onlyPin13 (extRec 1)))).map State.outcome = some (.refused .badParam) ∧
    (nextOf (exec (.cfgAxis 1#8) (onlyPin13 axisRec))).map State.outcome = some (.refused .badPin) ∧
    (nextOf (exec (.cfgAxis 0#8) (onlyPin13 [(.channel, .num 13)]))).map State.outcome = some (.refused .badParam) := by
  decide

/-- Fields that are missing or of the wrong type in otherwise complete records, and ill-formed alternate tables. -/
theorem witness_UnmodelledRecordsAreRefused_fields :
    (∀ f ∈ [FieldName.input, .activeLevel, .window],
      (nextOf (exec (.cfgDpin 0#8) (onlyPin13 ((dpinRec 3).filter (fun e => e.1 != f))))).map State.outcome =
        some (.refused .badParam)) ∧
    (∀ f ∈ [FieldName.map, .selActive, .inActive, .window, .settle],
      (nextOf (exec (.cfgMatrix 0#8) (fresh ((matrixRec [13] [4] [1]).filter (fun e => e.1 != f)) 0 0))).map
        State.outcome = some (.refused .badParam)) ∧
    (∀ f ∈ [FieldName.n, .map, .loadActive, .clkActive, .dataActive, .pulse],
      (nextOf (exec (.cfgShiftreg 0#8) (fresh ((shiftRec 1 [1]).filter (fun e => e.1 != f)) 0 0))).map
        State.outcome = some (.refused .badParam)) ∧
    (∀ e ∈ [((FieldName.ccw, .bool true) : FieldName × FieldValue), (.alternate, .num 1)],
      (nextOf (exec (.cfgEncoder 0#8) (fresh (encoderRec 5 10 [] ++ [e]) 0 0))).map State.outcome =
        some (.refused .badParam)) ∧
    (nextOf (exec (.cfgEncoder 0#8)
      (onlyPin13 [(.clkPin, .num 13), (.dtPin, .num 13), (.cw, .num 1), (.alternate, .bool true)]))).map
        State.outcome = some (.refused .badParam) := by
  decide

theorem witness_StartBeginsRunning : ConfigTurn (fresh [] 0 0) ∧ (demo .running .setup 10 []).phase = .running ∧
    (demo .running .setup 10 []).ports.agent = .setup := ⟨⟨rfl, rfl, BitVec.le_refl _⟩, rfl, rfl⟩

/-! #### Reads -/

/-- POLL's turn, at `now` equal to `lastNow`, on a block with one source of each kind. -/
theorem witness_reads : PollTurn (demo .running .poll 10 [0]) ∧
    (demo .running .poll 10 [0]).src[(0#8 : UnitIx).toNat]? = some (.dpin demoDpin { lastRaw := true, lastChange := 13#64 }) ∧
    (demo .running .poll 10 [0]).src[(1#8 : UnitIx).toNat]? = some (.matrix demoMatrix { lastActive := [100, 0, 0, 0] }) ∧
    (demo .running .poll 10 [0]).src[(2#8 : UnitIx).toNat]? = some (.shiftReg demoShift) ∧
    demoShift.map.length = demoShift.n ∧
    (demo .running .poll 10 [0]).src[(3#8 : UnitIx).toNat]? = some (.encoder (demoEncoder false) demoEncoderSt) ∧
    (demo .running .poll 10 [0]).src[(4#8 : UnitIx).toNat]? = some (.opaqueExt { mask := 0x0F#64, fn := 0 } 7) := by decide

/-- The matrix is well formed. -/
theorem witness_MtxScanReportsClosedAndHeldCells :
    (Source.matrix demoMatrix { lastActive := [100, 0, 0, 0] }).WellFormed Params.default := by
  simp only [Source.WellFormed]
  decide

/-- Both branches of ENC_READ: a queued detent, and none. -/
theorem witness_EncReadEmitsThenReleases :
    (demoEncoderSt.pending = false ∧ demoEncoderSt.head ≠ demoEncoderSt.tail) ∧
      ¬({ demoEncoderSt with pending := true }.pending = false ∧ demoEncoderSt.head ≠ demoEncoderSt.tail) := by decide

theorem witness_ChainMaskIsTheOrOfTheClaims : QueryTurn (demo .running .poll 10 []) ∧
    QueryTurn (demo .setup .setup 10 []) := by decide

/-- A running block with the first sources of the small one. -/
def running (k : Nat) : State := { demo .running .poll 18 [0] with src := (demo .running .poll 18 [0]).src.take k }

/-- No source, one source, two sources. -/
theorem witness_ChainReadBeginsWithOneSubRead : PollTurn (running 0) ∧ (running 0).src = [] ∧ PollTurn (running 1) ∧
    (running 1).src.length = 1 ∧ PollTurn (running 2) ∧ (running 2).src.length = 2 := by decide

theorem witness_ChainReadOrsEveryRead :
    let s := issued (request 0x18000000#32 .poll 10)
    (∀ e, s.phase ≠ .terminated e) ∧ s.chain = none ∧ s.inbox = [.op (request 0x18000000#32 .poll 10)] ∧
      PollTurn { s with ports := (request 0x18000000#32 .poll 10).ports } ∧ s.src ≠ [] :=
  ⟨fun e => by simp [issued, demo], rfl, rfl, by decide, by decide⟩

/-- A block in the last sub-read of a CHAIN_READ over the small block, with an operation of POLL waiting. -/
def reading (next : Nat) : State :=
  { issued (request 0x13030000#32 .poll 18) with
    chain := some { next := next, acc := 0x4#64, prev := 0#64, now := 18#64 } }

/-- Another agent's operation; then the last source but one and the last one, and each form of the schedule. -/
theorem witness_OtherAgentsComeBetweenSubReads :
    ((demo .running (.isr 3) 10 [1, 1]).ports.agent ≠ .poll ∧
      ∃ t, exec (.encEdge 3#8) (demo .running (.isr 3) 10 [1, 1]) = .next t) ∧
    (∀ e, (reading 4).phase ≠ .terminated e) ∧ (reading 4).src[4]? = some (.opaqueExt { mask := 0x0F#64, fn := 0 } 7) ∧
    4 + 1 < (reading 4).src.length ∧ (reading 5).src[5]?.isSome = true ∧ (reading 5).src.length ≤ 5 + 1 ∧
    (∃ r rest, (reading 5).inbox = .op r :: rest ∧ r.ports.agent = .poll) ∧
    ({ reading 5 with inbox := [] }.inbox = []) ∧ { reading 5 with inbox := [.advance] }.inbox = [.advance] :=
  ⟨⟨by decide, _, rfl⟩, fun e => by simp [reading, issued, demo], rfl, by decide, by decide, by decide,
    ⟨_, _, rfl, rfl⟩, rfl, rfl⟩

/-- The three schedules give the same bits, and only the turn that was POLL's to take has left. -/
theorem test_sub_read_schedules :
    let after (turns : List Turn) :=
      (nextOf (step { reading 5 with inbox := turns })).map (fun t => (t.result, t.outcome, t.inbox.length))
    after [] = after [.advance] ∧ (after (reading 5).inbox).map (fun x => (x.1, x.2.1, x.2.2 - 1)) = after [] := by
  decide

/-- The sources and the axis of the small block are well formed. -/
theorem demo_wellFormed :
    (∀ x ∈ (demo .running .poll 10 []).src, x.WellFormed Params.default) ∧
      ∀ a x, (demo .running .poll 10 []).axisAt a = some x → x.WellFormed Params.default := by
  constructor
  · intro x hx
    simp only [demo, List.mem_cons, List.not_mem_nil, or_false] at hx
    rcases hx with rfl | rfl | rfl | rfl | rfl | rfl <;> simp only [Source.WellFormed] <;> decide
  · intro a x hx
    unfold State.axisAt at hx
    split at hx <;> simp only [demo, State.reset, State.resetWith, Option.some.injEq, reduceCtorEq] at hx
    subst hx
    simp only [Axis.WellFormed]
    decide

/-- The invariant holds before the last sub-read of a CHAIN_READ. -/
theorem reading_inv : (reading 5).Inv := by
  refine ⟨by decide, demo_wellFormed.1, demo_wellFormed.2, fun c hc => ?_⟩
  cases hc
  exact ⟨by decide, by decide, by decide⟩

theorem witness_ChainReadStaysInTheChainMask :
    (∃ t b, exec (.chainRead 0#8) (running 1) = .next t ∧ t.result = .bitmap b) ∧
    (reading 5).Inv ∧ (reading 5).chain = some { next := 5, acc := 0x4#64, prev := 0#64, now := 18#64 } ∧
      ∃ t b, step (reading 5) = .next t ∧ t.chain = none ∧ t.result = .bitmap b :=
  ⟨⟨_, _, rfl, rfl⟩, reading_inv, rfl, _, _, rfl, rfl, rfl⟩

theorem witness_StepKeepsTheInvariant : (reading 5).Inv ∧ ∃ t, step (reading 5) = .next t := ⟨reading_inv, _, rfl⟩

/-- A window of 5: times 10 to 14, then time 15. -/
theorem witness_DirectPinDebounce :
    (DpinSt.mk false 0#64).lastRaw = (!true) ∧ (∀ t ∈ [10#64, 12#64, 14#64], t - 10#64 < demoDpin.window) ∧
      [10#64, 12#64, 15#64].getLast? = some 15#64 ∧ demoDpin.window ≤ 15#64 - 10#64 :=
  ⟨rfl, by simp [demoDpin], rfl, by decide⟩

/-- Levels for one scan of the small matrix. -/
def scanDraws (ls : List Level) : Draws := { pins := ls, raws := [], exts := [], count := 0 }

/-- A window of 4: cell 0 closed at 100, open at 103, open at 104. -/
theorem witness_MatrixReleaseHold :
    demoMatrix.map[0]? = some 0 ∧
      (Draws.levels demoMatrix.map.length (scanDraws [0, 1, 1, 1])).1[0]? = some demoMatrix.inActive ∧
      (Draws.levels demoMatrix.map.length (scanDraws [1, 1, 1, 1])).1[0]? ≠ some demoMatrix.inActive ∧
      103#64 - 100#64 < demoMatrix.window ∧ demoMatrix.window ≤ 104#64 - 100#64 := by decide

/-! #### The encoder -/

/-- The handlers of the standard and of the alternate encoder, before and after START. -/
theorem witness_edges :
    EdgeTurn 3#8 (demo .running (.isr 3) 10 [1, 1]) ∧ EdgeTurn 5#8 (demo .setup (.isr 5) 10 [1, 1]) ∧
    (demo .running (.isr 3) 10 [1, 1]).src[(3#8 : UnitIx).toNat]? = some (.encoder (demoEncoder false) demoEncoderSt) ∧
    (demo .setup (.isr 5) 10 [1, 1]).src[(5#8 : UnitIx).toNat]? = some (.encoder (demoEncoder true) demoEncoderSt) ∧
    demoEncoderSt.irqEnabled = true ∧ AltWellFormed Params.default := by decide

/-- The alternate clauses: key 17 is valid and emits CW; key 81 is valid and does not emit; key 03 is not valid. -/
theorem witness_EncEdgeDecodesAlternate :
    (0x17#8 ∈ Params.default.altValid ∧ (0x17#8, Dir.cw) ∈ Params.default.altEmit) ∧
      (0x81#8 ∈ Params.default.altValid ∧ (0x81#8, Dir.cw) ∉ Params.default.altEmit ∧
        (0x81#8, Dir.ccw) ∉ Params.default.altEmit) ∧ 0x03#8 ∉ Params.default.altValid := by decide

/-- A queue with the given indices. -/
def queue (head tail : BitVec 6) : EncoderSt := { demoEncoderSt with head := head, tail := tail }

/-- Full at the wrap (V-Q2), and one short of it. -/
theorem witness_QueuePushAndPop :
    ((queue 0 63).tail.toNat + 1) % 64 = (queue 0 63).head.toNat ∧
      ((queue 0 62).tail.toNat + 1) % 64 ≠ (queue 0 62).head.toNat := by decide

/-- 62 and 63 entries. -/
theorem witness_QueueRefinesABoundedFifo :
    (queue 0 62).entries.length < 63 ∧ (queue 1 0).entries.length = 63 ∧ (queue 0 1).head ≠ (queue 0 1).tail := by decide

/-- V-Q4: a full queue whose `tail` has wrapped. -/
theorem witness_FullQueueDropsTheNewDetent :
    let s := { demo .running (.isr 0) 10 [1, 1] with src := [.encoder (demoEncoder false) (queue 1 0)] }
    EdgeTurn 0#8 s ∧ s.src[(0#8 : UnitIx).toNat]? = some (.encoder (demoEncoder false) (queue 1 0)) ∧
      (queue 1 0).irqEnabled = true ∧ (queue 1 0).tail + 1#6 = (queue 1 0).head := by decide

theorem witness_PressThenRelease : demoEncoderSt.pending = false ∧ demoEncoderSt.entries = [.cw] := by decide

/-- An encoder at rest at `11` with an empty queue, by the default tables. -/
theorem witness_OneDetentQueuesOneEvent :
    (demoEncoder false).alternate = false ∧ Params.default.valid = grayValid ∧ Params.default.detentCw = 0x17#8 ∧
      Params.default.detentCcw = 0x2B#8 ∧ (queue 63 63).head = (queue 63 63).tail ∧ (queue 63 63).pending = false ∧
      { queue 63 63 with code := 0x3#4 }.code.extractLsb' 0 2 = 0b11#2 := by decide

/-- Slots that differ outside the queue. -/
theorem witness_UnwrittenSlotsAreNeverObserved :
    { demoEncoderSt with slots := 0xFFFFFFFFFFFFFFFF#64 }.entries = demoEncoderSt.entries ∧
      demoEncoderSt.slots ≠ 0xFFFFFFFFFFFFFFFF#64 := by decide

theorem witness_QueueSidesHaveOneWriter :
    (∃ t, exec (.encEdge 3#8) (demo .running (.isr 3) 10 [1, 1]) = .next t ∧ t.outcome = .completed) ∧
      rowOf (.encRead 3#8) ≠ .edge ∧ (∃ t, exec (.encRead 3#8) (demo .running .poll 10 []) = .next t) ∧
      (demo .running .poll 10 []).src[3]? = some (.encoder (demoEncoder false) demoEncoderSt) :=
  ⟨⟨_, rfl, rfl⟩, by decide, ⟨_, rfl⟩, rfl⟩

theorem witness_EdgesOfDifferentUnitsCommute :
    let s := demo .running .poll 10 []
    (3#8 : UnitIx) ≠ 5#8 ∧ (s.phase = .setup ∨ s.phase = .running) ∧ s.lastNow ≤ s.ports.now ∧
      s.src[(3#8 : UnitIx).toNat]? = some (.encoder (demoEncoder false) demoEncoderSt) ∧
      s.src[(5#8 : UnitIx).toNat]? = some (.encoder (demoEncoder true) demoEncoderSt) ∧
      demoEncoderSt.irqEnabled = true := by decide

/-! #### The axis and the whole block -/

/-- The turns of the axis operations, with the left axis configured. -/
theorem witness_axis :
    PollTurn (demo .running .poll 10 []) ∧ RestoreTurn (demo .running .poll 10 []) ∧
      RestoreTurn (demo .setup .setup 10 []) ∧ QueryTurn (demo .setup .setup 10 []) ∧
      (demo .running .poll 10 []).axisAt (0#8 : UnitIx).toNat =
        some { cfg := { channel := 36, inverted := false }, st := { min := 1000, max := 3000 } } := by decide

theorem witness_AxisValuesStayInRange :
    ∃ t, exec (.axRead 0#8) (demo .running .poll 10 []) = .next t ∧ t.result = .axisValue 63 false := ⟨_, rfl, rfl⟩

theorem witness_BoundsWidenMonotonically :
    (∃ t, exec (.axRead 0#8) (demo .running .poll 10 []) = .next t ∧ t.outcome = .completed) ∧
      (∀ u, Instr.axRead 0#8 ≠ .axResetCal u) ∧ (∀ u, Instr.axRead 0#8 ≠ .axSetCal u) ∧
      (demo .running .poll 10 []).axisAt 0 =
        some { cfg := { channel := 36, inverted := false }, st := { min := 1000, max := 3000 } } :=
  ⟨⟨_, rfl, rfl⟩, by simp, by simp, rfl⟩

/-- A step outside SETUP, and an axis it keeps. -/
theorem witness_ConfigurationIsImmutable :
    (∃ t, step (issued (request 0x13030000#32 .poll 10)) = .next t) ∧
      (issued (request 0x13030000#32 .poll 10)).phase ≠ .setup ∧
      (issued (request 0x13030000#32 .poll 10)).axisAt 0 =
        some { cfg := { channel := 36, inverted := false }, st := { min := 1000, max := 3000 } } :=
  ⟨⟨_, rfl⟩, by decide, rfl⟩

theorem witness_TraceOnlyGrows :
    (∃ t, step (issued (request 0x11010000#32 .poll 10)) = .next t ∧ t.trace ≠ []) ∧
      ∃ t, exec (.dpinRead 0#8) (demo .running .poll 10 [0]) = .next t := ⟨⟨_, rfl, by decide⟩, _, rfl⟩

end Sys2Proof.Tests
end

section
/-! PROOFS. The digital reads and the chain mask (40_digital_sources.md R101, R106, R108, R115, R125): what each kind's
read does, in the spec's own terms, and the statements about DPIN_READ, MTX_SCAN, SR_READ and CHAIN_MASK. -/

namespace Sys2Proof.Machine

/-! ### A single-source read in POLL's turn -/

/-- An operation decodes from its opcode, its unit and sixteen zeros (30_encoding.md R80). -/
theorem decode_opcode_unit (i : Instr) : decode (i.opcode ++ i.unit ++ 0#16) = .ok i := by
  rw [decode_word, instrOf_opcode]

/-- The operation that reads a source of this kind in slot `u` (30_encoding.md R83). -/
def Source.readOp (u : UnitIx) : Source → Instr
  | .dpin _ _ => .dpinRead u
  | .matrix _ _ => .mtxScan u
  | .shiftReg _ => .srRead u
  | .encoder _ _ => .encRead u
  | .opaqueExt _ _ => .extRead u

/-- The reads stand in R86's row of live operations. -/
theorem rowOf_readOp (u : UnitIx) (x : Source) : rowOf (x.readOp u) = .live := by cases x <;> rfl

/-- A source's slot is a legal unit of its own read (R84). -/
theorem unitLegal_readOp {u : UnitIx} {s : State} {x : Source} (hx : s.src[u.toNat]? = some x) :
    UnitLegal (x.readOp u) s := by
  cases x with
  | shiftReg cfg => exact ⟨cfg, hx⟩
  | dpin cfg st | matrix cfg st | encoder cfg st | opaqueExt cfg st => exact ⟨cfg, st, hx⟩

/-- In POLL's turn a source's read completes, and commits what the atomic read of the source does. -/
theorem exec_readOp {u : UnitIx} {s : State} {x : Source} (h : PollTurn s) (hx : s.src[u.toNat]? = some x) :
    exec (x.readOp u) s = .next
      { s with
        src := s.src.set u.toNat (readSource x s.ports.prev s.ports.now s.draws).source
        trace := s.trace ++ (readSource x s.ports.prev s.ports.now s.draws).events
        draws := (readSource x s.ports.prev s.ports.now s.draws).draws
        lastNow := s.ports.now
        result := .bitmap (readSource x s.ports.prev s.ports.now s.draws).bits
        outcome := .completed } := by
  have hpass : ChecksPass (x.readOp u) s := checksPass_live (rowOf_readOp u x) h (unitLegal_readOp hx)
  refine (exec_of_checksPass hpass _).2 ?_
  cases x <;> exact ⟨_, hx, rfl⟩

/-- Writing back what a slot already holds changes nothing. -/
theorem set_of_getElem?_eq_some {α : Type} {l : List α} {k : Nat} {x : α} (h : l[k]? = some x) : l.set k x = l := by
  obtain ⟨hk, rfl⟩ := List.getElem?_eq_some_iff.1 h
  exact List.set_getElem_self hk

/-! ### Direct pin (R108) -/

/-- A sample that differs from the last one is stored with its time. -/
theorem dpinSampled_eq (st : DpinSt) (raw : Bool) (now : Time) :
    dpinSampled st raw now = if raw ≠ st.lastRaw then { lastRaw := raw, lastChange := now } else st :=
  (ite_not ..).symm

/-- The sample is reported once it is as old as the window; before that the bit of `prev` is. -/
theorem dpinReported_eq (cfg : DpinCfg) (st : DpinSt) (raw : Bool) (prev : InputBitmap) (now : Time) :
    dpinReported cfg st raw prev now =
      if cfg.window ≤ now - (dpinSampled st raw now).lastChange then raw else prev.getLsbD cfg.input := by
  unfold dpinReported
  by_cases hw : cfg.window ≤ now - (dpinSampled st raw now).lastChange
  · rw [if_pos hw, if_neg (by simpa using hw)]
  · rw [if_neg hw, if_pos (by simpa using hw)]

/-- Settles O26: the read of a direct pin, with its two branches in the spec's own terms. -/
theorem dpinReadReportsStableSamples : Obligations.DpinReadReportsStableSamples := by
  intro u s cfg st h hx raw st' b
  refine ⟨decode_opcode_unit (.dpinRead u), ?_⟩
  have hraw : pressed s.draws.pinRead.1 cfg.activeLevel = raw := rfl
  have hst : dpinSampled st raw s.ports.now = st' := dpinSampled_eq st raw s.ports.now
  have hb : dpinReported cfg st raw s.ports.prev s.ports.now = b := by rw [dpinReported_eq, hst]
  have hexec := exec_readOp h hx
  simp only [readSource, readDpin, hraw, hst, hb, List.append_nil] at hexec
  exact hexec

/-! ### Button matrix (R115) -/

/-- What a read of a matrix whose sizes agree does, cell by cell. -/
theorem readMatrix_spec (cfg : MatrixCfg) (st : MatrixSt) (prev : InputBitmap) (now : Time) (d : Draws)
    (hmap : cfg.map.length = cfg.selPins.length * cfg.inPins.length)
    (hst : st.lastActive.length = cfg.selPins.length * cfg.inPins.length) :
    let cells := cfg.selPins.length * cfg.inPins.length
    let levels := Draws.levels cells d
    ∃ stamps : List Time,
      (readMatrix cfg st prev now d).source = .matrix cfg { lastActive := stamps } ∧
      (readMatrix cfg st prev now d).draws = levels.2 ∧
      stamps.length = cells ∧
      (∀ c, c < cells → stamps[c]? =
        some (if levels.1[c]? = some cfg.inActive then now else st.lastActive.getD c 0#64)) ∧
      ∀ n : InputNumber, (readMatrix cfg st prev now d).bits.getLsbD n = true ↔
        ∃ c, c < cells ∧ cfg.map[c]? = some n ∧
          (levels.1[c]? = some cfg.inActive ∨
            (prev.getLsbD n = true ∧ now - st.lastActive.getD c 0#64 < cfg.window)) := by
  intro cells levels
  have hclosed (c : Nat) (hc : c < cells) :
      levels.1[c]? = some cfg.inActive ↔ (Draws.levels c d).2.pinRead.1 = cfg.inActive := by
    rw [Draws.levels_getElem? d hc, Option.some.injEq]
  obtain ⟨hdraws, hlen, hstamps, hbits⟩ := scanCells_spec cfg prev now st.lastActive d cells hmap.ge
  have hscan := scanMatrix_eq cfg prev now { out := 0#64, lastActive := st.lastActive, draws := d }
  change _ = (List.range cells).foldl _ _ at hscan
  rw [← hscan] at hdraws hlen hstamps hbits
  refine ⟨_, rfl, hdraws, hlen.trans hst, fun c hc => ?_, fun n => (hbits n).trans ?_⟩
  · rw [hstamps c (hst ▸ hc)]
    simp only [hclosed c hc, hc, true_and]
  · exact exists_congr fun c => and_congr_right fun hc => by rw [hclosed c hc]

/-- The events of a scan, with the inactive level as the spec writes it. -/
theorem readMatrix_events (cfg : MatrixCfg) (st : MatrixSt) (prev : InputBitmap) (now : Time) (d : Draws) :
    (readMatrix cfg st prev now d).events = cfg.selPins.flatMap (fun p =>
      [.write p cfg.selActive, .delay cfg.settle, .write p (1#1 - cfg.selActive), .delay cfg.settle]) := by
  rw [← level_not]
  rfl

/-- Settles O27: the scan visits the cells in increasing index, and a cell is reported when closed or held. -/
theorem mtxScanReportsClosedAndHeldCells : Obligations.MtxScanReportsClosedAndHeldCells := by
  intro u s cfg st h hx hwf cells levels
  obtain ⟨-, -, -, -, hmap, -, hst, -⟩ := hwf
  obtain ⟨stamps, hsource, hdraws, hlen, hstamps, hbits⟩ :=
    readMatrix_spec cfg st s.ports.prev s.ports.now s.draws hmap hst
  refine ⟨decode_opcode_unit (.mtxScan u), _, stamps, ?_, hlen, hstamps, hbits⟩
  have hexec := exec_readOp h hx
  simp only [readSource, hsource, hdraws, readMatrix_events] at hexec
  exact hexec

/-! ### Shift register (R125) -/

/-- What a read of a shift register whose map has `n` entries does, position by position. -/
theorem readShiftReg_spec (cfg : ShiftRegCfg) (d : Draws) (hmap : cfg.map.length = cfg.n) :
    (readShiftReg cfg d).draws = (Draws.levels cfg.n d).2 ∧
      ∀ k : InputNumber, (readShiftReg cfg d).bits.getLsbD k = true ↔
        ∃ i, i < cfg.n ∧ cfg.map[i]? = some k ∧ (Draws.levels cfg.n d).1[i]? = some cfg.dataActive := by
  obtain ⟨hdraws, hbits⟩ := shiftPositions_spec cfg d cfg.n hmap.ge
  refine ⟨hdraws, fun k => (hbits k).trans ?_⟩
  exact exists_congr fun i => and_congr_right fun hi => by rw [Draws.levels_getElem? d hi, Option.some.injEq]

/-- The events of a read, with the inactive levels as the spec writes them: the load pulse and one clock pulse for
each position. -/
theorem readShiftReg_events (cfg : ShiftRegCfg) (d : Draws) :
    (readShiftReg cfg d).events =
      [.write cfg.loadPin cfg.loadActive, .delay cfg.pulse, .write cfg.loadPin (1#1 - cfg.loadActive),
        .delay cfg.pulse] ++
      (List.replicate cfg.n
        [.write cfg.clkPin cfg.clkActive, .delay cfg.pulse, .write cfg.clkPin (1#1 - cfg.clkActive),
          .delay cfg.pulse]).flatten := by
  rw [← level_not, ← level_not]
  show _ ++ (List.range cfg.n).flatMap _ = _
  rw [List.flatMap_def, List.map_const', List.length_range]
  rfl

/-- Settles O28: the positions are drawn in increasing index and mapped with no debounce. -/
theorem srReadMapsSerialPositions : Obligations.SrReadMapsSerialPositions := by
  intro u s cfg h hx hmap levels
  obtain ⟨hdraws, hbits⟩ := readShiftReg_spec cfg s.draws hmap
  refine ⟨decode_opcode_unit (.srRead u), _, ?_, hbits⟩
  have hsource : (readShiftReg cfg s.draws).source = .shiftReg cfg := rfl
  have hexec := exec_readOp h hx
  simp only [readSource, hsource, set_of_getElem?_eq_some hx, hdraws, readShiftReg_events,
    ← List.append_assoc] at hexec
  exact hexec

/-! ### The chain mask (R101, R106) -/

/-- A source of a list is of one of the five kinds. -/
theorem exists_source_iff (l : List Source) (P : Source → Prop) :
    (∃ x ∈ l, P x) ↔
      (∃ cfg st, .dpin cfg st ∈ l ∧ P (.dpin cfg st)) ∨ (∃ cfg st, .matrix cfg st ∈ l ∧ P (.matrix cfg st)) ∨
        (∃ cfg, .shiftReg cfg ∈ l ∧ P (.shiftReg cfg)) ∨ (∃ cfg st, .encoder cfg st ∈ l ∧ P (.encoder cfg st)) ∨
        ∃ cfg ext, .opaqueExt cfg ext ∈ l ∧ P (.opaqueExt cfg ext) := by
  constructor
  · rintro ⟨x, hx, hp⟩
    cases x with
    | dpin cfg st => exact .inl ⟨cfg, st, hx, hp⟩
    | matrix cfg st => exact .inr (.inl ⟨cfg, st, hx, hp⟩)
    | shiftReg cfg => exact .inr (.inr (.inl ⟨cfg, hx, hp⟩))
    | encoder cfg st => exact .inr (.inr (.inr (.inl ⟨cfg, st, hx, hp⟩)))
    | opaqueExt cfg ext => exact .inr (.inr (.inr (.inr ⟨cfg, ext, hx, hp⟩)))
  · rintro (⟨cfg, st, h⟩ | ⟨cfg, st, h⟩ | ⟨cfg, h⟩ | ⟨cfg, st, h⟩ | ⟨cfg, ext, h⟩) <;> exact ⟨_, h⟩

/-- The input numbers a source claims (R101), in the spec's own terms. -/
def Source.Claims (n : InputNumber) : Source → Prop
  | .dpin cfg _ => cfg.input = n
  | .matrix cfg _ => n ∈ cfg.map
  | .shiftReg cfg => n ∈ cfg.map
  | .encoder cfg _ => cfg.cw = n ∨ cfg.ccw = n
  | .opaqueExt cfg _ => cfg.mask.getLsbD n.val = true

/-- The bits of a claim are the claimed input numbers. -/
theorem claim_getLsbD (x : Source) (n : InputNumber) : x.claim.getLsbD n.val = true ↔ x.Claims n := by
  cases x with
  | dpin cfg st => rw [Source.claim, inputBit_getLsbD, decide_eq_true_iff, Source.Claims]
  | matrix cfg st => exact inputBits_getLsbD cfg.map n
  | shiftReg cfg => exact inputBits_getLsbD cfg.map n
  | encoder cfg st =>
    rw [Source.claim, BitVec.getLsbD_or, Bool.or_eq_true, inputBit_getLsbD, inputBit_getLsbD, decide_eq_true_iff,
      decide_eq_true_iff, Source.Claims]
  | opaqueExt cfg ext => exact Iff.rfl

/-- In a turn of SETUP or POLL, CHAIN_MASK completes with the chain mask. -/
theorem exec_chainMask {s : State} (h : QueryTurn s) :
    exec (.chainMask 0#8) s = .next (complete (.bitmap s.chainMask) s) := by
  have hpass : ChecksPass (.chainMask 0#8) s := checksPass_query rfl h rfl
  exact (exec_of_checksPass hpass _).2 rfl

/-- Settles O32: the bits of the chain mask, split by the kind of the source that claims them. -/
theorem chainMaskIsTheOrOfTheClaims : Obligations.ChainMaskIsTheOrOfTheClaims := by
  intro s h
  refine ⟨decode_opcode_unit (.chainMask 0#8), s.chainMask, exec_chainMask h, fun n => ?_⟩
  simp only [chainMask_getLsbD, claim_getLsbD]
  exact exists_source_iff s.src (Source.Claims n)

end Sys2Proof.Machine
end

section
/-! PROOFS. The rotary encoder's queue and its read (41_rotary_encoder.md R157, R158, R160): the six-bit index as the
spec's number modulo 64, the two branches of ENC_READ's rule, and the statements about Push, Pop and ENC_READ. -/

namespace Sys2Proof.Machine

/-! ### A queue index advanced (R157, R158) -/

/-- The six-bit index wraps as the spec's `(k + 1) mod 64` does. -/
theorem index_succ_toNat (k : BitVec 6) : (k + 1#6).toNat = (k.toNat + 1) % 64 := BitVec.toNat_add k 1#6

/-- The advanced index, written from the spec's number. -/
theorem index_succ_eq_ofNat (k : BitVec 6) : k + 1#6 = BitVec.ofNat 6 ((k.toNat + 1) % 64) := by
  rw [← index_succ_toNat, BitVec.ofNat_toNat, BitVec.setWidth_eq]

/-- The model's comparison of two indices is the spec's comparison of their numbers. -/
theorem index_succ_eq_iff (k j : BitVec 6) : k + 1#6 = j ↔ (k.toNat + 1) % 64 = j.toNat := by
  rw [← BitVec.toNat_inj, index_succ_toNat]

/-- Settles O41: a full queue by `push_full`, one with room by `push_room`, with the written word read slot by slot. -/
theorem queuePushAndPop : Obligations.QueuePushAndPop := by
  intro d st
  refine ⟨fun hfull => push_full ((index_succ_eq_iff ..).2 hfull), fun hroom => ?_, ?_⟩
  · rw [← index_succ_eq_ofNat, push_room (mt (index_succ_eq_iff ..).1 hroom)]
    exact ⟨rfl, fun k => slotAt_slotWrite st.slots st.tail k d⟩
  · rw [← index_succ_eq_ofNat, pop]

/-! ### ENC_READ's rule (R160) -/

/-- A press is emitted when no release is pending and the queue is not empty. -/
theorem emits_iff (st : EncoderSt) : st.emits = true ↔ st.pending = false ∧ st.head ≠ st.tail := by
  rw [EncoderSt.emits, Bool.and_eq_true, Bool.not_eq_true', bne_iff_ne]

/-- The press bit of the direction in a slot, from the stored bit (R36: `CW = 1`). -/
theorem pressBit_slotAt (cfg : EncoderCfg) (slots : BitVec 64) (k : BitVec 6) :
    pressBit cfg (slotAt slots k) =
      if slots.getLsbD k.toNat then 1#64 <<< cfg.cw.val else 1#64 <<< cfg.ccw.val := by
  rw [slotAt]
  split <;> rfl

/-- A queued detent with no release pending is popped and its bit emitted; the release is then pending. -/
theorem readEncoder_press {cfg : EncoderCfg} {st : EncoderSt} (h : st.pending = false ∧ st.head ≠ st.tail) :
    readEncoder cfg st =
      (pressBit cfg (slotAt st.slots st.head), { st with head := st.head + 1#6, pending := true }) := by
  rw [readEncoder, if_pos ((emits_iff st).2 h)]
  rfl

/-- Otherwise nothing is emitted and no release is left pending: a pending one is spent, and where none was pending
the state stays. -/
theorem readEncoder_release {cfg : EncoderCfg} {st : EncoderSt} (h : ¬(st.pending = false ∧ st.head ≠ st.tail)) :
    readEncoder cfg st = (0#64, { st with pending := false }) := by
  rw [readEncoder, if_neg (mt (emits_iff st).1 h)]
  by_cases hp : st.pending = true
  · exact if_pos hp
  · rw [if_neg hp, ← Bool.eq_false_of_not_eq_true hp]

/-- Settles O29: `exec_readOp` at an encoder, with the read's two branches. -/
theorem encReadEmitsThenReleases : Obligations.EncReadEmitsThenReleases := by
  intro u s cfg st h hx
  refine ⟨decode_opcode_unit (.encRead u), ?_⟩
  have hexec := exec_readOp h hx
  by_cases hpress : st.pending = false ∧ st.head ≠ st.tail
  · simp only [readSource, readEncoder_press hpress, pressBit_slotAt, List.append_nil] at hexec
    rw [if_pos hpress]
    exact hexec
  · simp only [readSource, readEncoder_release hpress, List.append_nil] at hexec
    rw [if_neg hpress]
    exact hexec

end Sys2Proof.Machine
end

section
/-! PROOFS. The analog axis (42_analog_axis.md R212): the statement about AX_GET_CAL. -/

namespace Sys2Proof.Machine

/-- A configured axis is a legal unit of AX_GET_CAL (30_encoding.md R84). -/
theorem unitLegal_axGetCal {u : UnitIx} {s : State} {x : Axis} (hx : s.axisAt u.toNat = some x) :
    UnitLegal (.axGetCal u) s := ⟨s.axisAt_lt u.toNat x hx, x, hx⟩

/-- Settles O52: the checks pass in a turn of SETUP or POLL, and the rule completes with the bounds. -/
theorem axGetCalReadsTheBounds : Obligations.AxGetCalReadsTheBounds := by
  intro u s x h hx
  have hpass : ChecksPass (.axGetCal u) s := checksPass_query rfl h (unitLegal_axGetCal hx)
  exact ⟨decode_opcode_unit (.axGetCal u), (exec_of_checksPass hpass _).2 ⟨x, hx, rfl⟩⟩

end Sys2Proof.Machine
end

section
/-! PROOFS. Descriptors and the schedule (30_encoding.md R80 to R87): the decoder against the encoder, the opcodes that
R83 lists, and what a step does with an issued descriptor. -/

namespace Sys2Proof

/-! ### Decoder and encoder -/

/-- Settles O1: a laid-out descriptor decodes by its opcode and its unit. -/
theorem decodeOfEncodeIsTheOperation : Obligations.DecodeOfEncodeIsTheOperation := by
  intro i
  exact Machine.decode_opcode_unit i

/-- A descriptor decodes when R83 lists its opcode and its low bits are zero. -/
theorem decode_eq_ok_iff {d : Word} {i : Instr} :
    decode d = .ok i ↔ instrOf (opField d) (unitField d) = some i ∧ zeroField d = 0#16 := by
  unfold decode
  cases instrOf (opField d) (unitField d) with
  | none => simp
  | some j => by_cases hz : zeroField d = 0#16 <;> simp [hz]

/-- Settles O2: the three fields of the descriptor are those the encoder lays out. -/
theorem encodeOfDecodeIsTheDescriptor : Obligations.EncodeOfDecodeIsTheDescriptor := by
  intro d i h
  obtain ⟨hi, hzero⟩ := decode_eq_ok_iff.1 h
  obtain ⟨hop, hunit⟩ := instrOf_some hi
  calc encode i = (opField d ++ unitField d) ++ zeroField d := by rw [encode, hop, hunit, hzero]
    _ = d := word_fields d

/-- Settles O3: each word is evaluated. -/
theorem opcodeMapWordsDecode : Obligations.OpcodeMapWordsDecode := by
  unfold Obligations.OpcodeMapWordsDecode
  decide

/-! ### The listed opcodes -/

/-- The opcodes of R83. -/
def listedOpcodes : List (BitVec 8) :=
  [0x01, 0x02, 0x03, 0x04, 0x05, 0x06, 0x0F, 0x10, 0x11, 0x12, 0x13, 0x14, 0x18, 0x19, 0x20, 0x30, 0x31, 0x32, 0x33]

/-- Every operation's opcode is listed. -/
theorem opcode_mem_listedOpcodes (i : Instr) : i.opcode ∈ listedOpcodes := by
  cases i <;> simp [Instr.opcode, listedOpcodes]

/-- The opcodes that the opcode map names an operation for are the listed ones. -/
theorem instrOf_isSome_iff (op : BitVec 8) (u : UnitIx) : (instrOf op u).isSome = true ↔ op ∈ listedOpcodes := by
  constructor
  · intro h
    obtain ⟨i, hi⟩ := Option.isSome_iff_exists.1 h
    exact (instrOf_some hi).1 ▸ opcode_mem_listedOpcodes i
  · intro h
    simp only [listedOpcodes, List.mem_cons, List.not_mem_nil, or_false] at h
    rcases h with rfl | rfl | rfl | rfl | rfl | rfl | rfl | rfl | rfl | rfl | rfl | rfl | rfl | rfl | rfl | rfl | rfl |
      rfl | rfl <;> rfl

/-- A descriptor with an unlisted opcode decodes to ILLEGAL_OPCODE, whatever its low bits are (R87). -/
theorem decode_of_unlisted {d : Word} (h : opField d ∉ listedOpcodes) : decode d = .error .illegalOpcode := by
  rw [← instrOf_isSome_iff _ (unitField d), Option.not_isSome_iff_eq_none] at h
  simp [decode, h]

/-- A descriptor with a listed opcode decodes to the operation of that name, or to RESERVED_BITS. -/
theorem decode_of_listed {d : Word} (h : opField d ∈ listedOpcodes) :
    ∃ i, i.unit = unitField d ∧ decode d = if zeroField d = 0#16 then .ok i else .error .reservedBits := by
  obtain ⟨i, hi⟩ := Option.isSome_iff_exists.1 ((instrOf_isSome_iff _ (unitField d)).2 h)
  exact ⟨i, (instrOf_some hi).2, by simp [decode, hi]⟩

namespace Machine

/-! ### A step that issues a descriptor -/

/-- Where the next turn is an operation that may come now, the step issues it. -/
theorem step_issue {s : State} {r : Request} {rest : List Turn} (hi : s.inbox = .op r :: rest)
    (hc : s.chain = none ∨ r.ports.agent ≠ .poll) (hp : ∀ e, s.phase ≠ .terminated e) :
    step s = issue r { s with inbox := rest } := by
  unfold step nextTurn
  split
  · exact absurd ‹_› (hp _)
  · cases hchain : s.chain with
    | none => simp [hi]
    | some c =>
      have hagent : r.ports.agent ≠ .poll := hc.resolve_left (by simp [hchain])
      simp [hi, hagent]

/-- A descriptor that spells no operation is refused. -/
theorem issue_error {r : Request} {s : State} {e : DecodeError} (ha : AgentSteps { s with ports := r.ports })
    (hd : decode r.desc = .error e) : issue r s = .next (refuse (decodeRefusal e) { s with ports := r.ports }) := by
  simp [issue, agentNoStep_none.2 ha, hd]

/-- An operation of an agent that has no step has none. -/
theorem exec_agentNoStep {i : Instr} {s : State} {f : Fault} (h : agentNoStep s = some f) : exec i s = .fault f :=
  exec_objection (o := .noStep f) (by simp [precheck, h])

/-- A descriptor that spells an operation runs it: the absent step of an agent is `exec`'s own. -/
theorem issue_ok {r : Request} {s : State} {i : Instr} (hd : decode r.desc = .ok i) :
    issue r s = exec i { s with ports := r.ports } := by
  cases hf : agentNoStep { s with ports := r.ports } with
  | none => simp [issue, hf, hd]
  | some f => rw [exec_agentNoStep hf]; simp [issue, hf]

/-- Settles O4: the opcode is checked before the low bits, and either refusal changes only the mark. -/
theorem undecodableDescriptorIsRefused : Obligations.UndecodableDescriptorIsRefused := by
  intro s r rest hi hc ha
  have hstep : step s = issue r { s with inbox := rest } := step_issue hi hc ha.1
  have hrefuse {e : DecodeError} (hd : decode r.desc = .error e) :
      step s = .next (refuse (decodeRefusal e) { s with inbox := rest, ports := r.ports }) :=
    hstep.trans (issue_error ha hd)
  refine ⟨fun hop => hrefuse (decode_of_unlisted hop), fun hop hz => ?_, fun hop hz => ?_⟩
  · obtain ⟨i, -, hd⟩ := decode_of_listed hop
    exact hrefuse (hd.trans (if_neg hz))
  · obtain ⟨i, hunit, hd⟩ := decode_of_listed hop
    exact ⟨i, hd.trans (if_pos hz), hunit⟩

/-- Settles O5: the step issues the descriptor, and an issued operation is `exec`'s. -/
theorem stepRunsTheDecodedOperation : Obligations.StepRunsTheDecodedOperation := by
  intro s r rest i hi hc hp hd
  exact (step_issue hi hc hp).trans (issue_ok hd)

end Machine

end Sys2Proof
end

section
/-! PROOFS. The checks before a rule runs (30_encoding.md R84, R86, R87) and the three abnormal outcomes
(60_exceptions.md R260): which check objects first, and what an operation that objects leaves. -/

namespace Sys2Proof.Machine

/-! ### The first check that objects -/

/-- The phase columns of R86 object to nothing exactly outside the three cells they bar. -/
theorem phaseObjection_eq_none_iff (k : OpClass) (ph : Phase) :
    phaseObjection k ph = none ↔
      ¬(k = .config ∧ ph = .running) ∧ ¬(k = .start ∧ ph = .running) ∧ ¬(k = .live ∧ ph = .setup) := by
  cases k <;> cases ph <;> simp [phaseObjection]

/-- An operation is permitted when the agent and the phase columns of R86 both allow it. -/
theorem permitted_iff (i : Instr) (s : State) :
    Permitted i s ↔ Listed i s.phase s.ports.agent ∧ phaseObjection (rowOf i) s.phase = none := by
  rw [Permitted, phaseObjection_eq_none_iff]

/-- The agent column is checked first. -/
theorem precheck_of_not_listed {i : Instr} {s : State} {ok : Bool} (ha : AgentSteps s)
    (hl : ¬Listed i s.phase s.ports.agent) : precheck (rowOf i) i.unit ok s = some (.refuse .wrongAgent) := by
  have hagent : agentAllowed (rowOf i) i.unit s.phase s.ports.agent = false := by
    rwa [← agentAllowed_iff, Bool.not_eq_true] at hl
  simp [precheck, agentNoStep_none.2 ha, hagent]

/-- A listed agent's operation meets the phase column next. -/
theorem precheck_of_phaseObjection {i : Instr} {s : State} {ok : Bool} {o : Objection} (ha : AgentSteps s)
    (hl : Listed i s.phase s.ports.agent) (ho : phaseObjection (rowOf i) s.phase = some o) :
    precheck (rowOf i) i.unit ok s = some o := by
  simp [precheck, agentNoStep_none.2 ha, (agentAllowed_iff i s).2 hl, ho]

/-- A permitted operation meets the unit check, the interrupt enable and the time, in this order. -/
theorem precheck_of_permitted {i : Instr} {s : State} {ok : Bool} (ha : AgentSteps s) (hp : Permitted i s) :
    precheck (rowOf i) i.unit ok s =
      if ok = false then some (.refuse .badUnit)
      else if rowOf i = .edge ∧ s.irqEnabledAt i.unit.toNat = false then some (.noStep .interruptNotEnabled)
      else if s.ports.now < s.lastNow then some (.refuse .timeBackwards)
      else none := by
  obtain ⟨hl, hphase⟩ := (permitted_iff i s).1 hp
  simp only [precheck, agentNoStep_none.2 ha, (agentAllowed_iff i s).2 hl, hphase, Bool.true_eq_false, if_false]

/-- The unit check in the legality table's own terms. -/
theorem unitOk_eq_false_iff (i : Instr) (s : State) : unitOk i s = false ↔ ¬UnitLegal i s := by
  rw [← unitOk_iff, Bool.not_eq_true]

/-- A listed agent's operation answers the objection of its phase. -/
theorem exec_phaseObjection {i : Instr} {s : State} {o : Objection} (ha : AgentSteps s)
    (hl : Listed i s.phase s.ports.agent) (ho : phaseObjection (rowOf i) s.phase = some o) : exec i s = answer o s :=
  exec_objection (precheck_of_phaseObjection ha hl ho)

/-- Any CFG operation of SETUP in phase RUNNING raises CFG_AFTER_START. -/
theorem exec_config_running {i : Instr} {s : State} (hr : rowOf i = .config) (hp : s.phase = .running)
    (ha : s.ports.agent = .setup) : exec i s = .next (raiseConfigError .afterStart s) := by
  have hsteps : AgentSteps s := ⟨by simp [hp], by simp [ha]⟩
  have hlisted : Listed i s.phase s.ports.agent := by simp [Listed, hr, ha]
  exact exec_phaseObjection (o := .raise .afterStart) hsteps hlisted (by simp [phaseObjection, hr, hp])

/-- Settles O6: the agent column objects first, then the phase columns. -/
theorem legalityTableIsEnforced : Obligations.LegalityTableIsEnforced := by
  intro i s ha
  refine ⟨fun hl => exec_objection (precheck_of_not_listed ha hl), fun hl hr hp => ?_, fun hl hr hp => ?_,
    fun hl hr hp => ?_⟩
  · exact exec_phaseObjection (o := .raise .afterStart) ha hl (by simp [phaseObjection, hr, hp])
  · exact exec_phaseObjection (o := .refuse .badPhase) ha hl (by simp [phaseObjection, hr, hp])
  · exact exec_phaseObjection (o := .refuse .notStarted) ha hl (by simp [phaseObjection, hr, hp])

/-- Settles O7: of a permitted operation the unit is checked first. -/
theorem illegalUnitIsRefused : Obligations.IllegalUnitIsRefused := by
  intro i s ha hp hu
  exact exec_objection ((precheck_of_permitted ha hp).trans (if_pos ((unitOk_eq_false_iff i s).2 hu)))

/-- Settles O8: the time is the last of the checks. -/
theorem decreasingTimeIsRefused : Obligations.DecreasingTimeIsRefused := by
  intro i s ha hp hu hirq hnow
  have hunit : ¬unitOk i s = false := by rw [unitOk_eq_false_iff, not_not]; exact hu
  have henabled : ¬(rowOf i = .edge ∧ s.irqEnabledAt i.unit.toNat = false) := fun ⟨hr, hf⟩ => by simp [hirq hr] at hf
  have hcheck : precheck (rowOf i) i.unit (unitOk i s) s = some (.refuse .timeBackwards) := by
    rw [precheck_of_permitted ha hp, if_neg hunit, if_neg henabled, if_pos hnow]
  exact exec_objection hcheck

/-- Settles O9: a state that an operation completed in is none of a refusal or an error. -/
theorem onlyCheckedOperationsRun : Obligations.OnlyCheckedOperationsRun := by
  intro i s t h ho
  rcases exec_next h with ⟨hpass, -⟩ | ⟨w, rfl⟩ | ⟨-, -, rfl⟩
  · exact (checksPass_iff i s).1 hpass
  · simp at ho
  · simp at ho

/-- Settles O10: the phase is checked before the unit, the time and the record. -/
theorem registrationAfterStartTerminates : Obligations.RegistrationAfterStartTerminates := by
  intro u s hp ha i hi
  have hr : rowOf i = .config := by
    simp only [List.mem_cons, List.not_mem_nil, or_false] at hi
    rcases hi with rfl | rfl | rfl | rfl | rfl | rfl <;> rfl
  exact exec_config_running hr hp ha

/-! ### What an error and a refusal leave -/

/-- A state whose outcome is an error is the one the error is raised into. -/
theorem exec_eq_raise {i : Instr} {s t : State} {e : ConfigError} (h : exec i s = .next t)
    (ho : t.outcome = .terminated e) : rowOf i = .config ∧ t = raiseConfigError e s := by
  rcases exec_next h with ⟨-, heff⟩ | ⟨w, rfl⟩ | ⟨hr, -, rfl⟩
  · rcases effect_outcome heff with hc | hc | ⟨hr, ⟨e', rfl⟩ | ⟨w, rfl⟩⟩
    · simp [hc] at ho
    · simp [hc] at ho
    · cases ho; exact ⟨hr, rfl⟩
    · simp at ho
  · simp at ho
  · cases ho; exact ⟨hr, rfl⟩

/-- A state whose outcome is a refusal is the one the refusal marks. -/
theorem exec_eq_refuse {i : Instr} {s t : State} {w : RefuseReason} (h : exec i s = .next t)
    (ho : t.outcome = .refused w) : t = refuse w s := by
  rcases exec_next h with ⟨-, heff⟩ | ⟨w', rfl⟩ | ⟨-, -, rfl⟩
  · rcases effect_outcome heff with hc | hc | ⟨-, ⟨e, rfl⟩ | ⟨w', rfl⟩⟩
    · simp [hc] at ho
    · simp [hc] at ho
    · simp at ho
    · cases ho; rfl
  · cases ho; rfl
  · simp at ho

/-- In TERMINATED nobody has a turn. -/
theorem step_terminated {s : State} {e : ConfigError} (h : s.phase = .terminated e) :
    step s = .fault .processTerminated := by
  simp [step, nextTurn, h]

/-- Settles O11: an error is answered by raising it, and TERMINATED bars the schedule and every operation. -/
theorem configErrorTerminatesAndNothingElse : Obligations.ConfigErrorTerminatesAndNothingElse :=
  ⟨fun _ _ _ _ h ho => (exec_eq_raise h ho).2, fun _ _ h => ⟨step_terminated h, fun _ => exec_terminated h⟩⟩

/-- Settles O13: a disabled interrupt is met after the legal unit, an absent encoder before any check. -/
theorem disabledInterruptHasNoStep : Obligations.DisabledInterruptHasNoStep := by
  refine ⟨fun u s cfg st hp ha hx hq => ?_, fun i u s hp ha hx => ?_⟩
  · have hsteps : AgentSteps s := ⟨hp, fun v hv => by cases ha.symm.trans hv; exact ⟨cfg, st, hx⟩⟩
    have hperm : Permitted (.encEdge u) s := by simp [Permitted, Listed, rowOf, Instr.unit, ha]
    have hunit : ¬unitOk (.encEdge u) s = false := by
      rw [unitOk_eq_false_iff, not_not]; exact ⟨cfg, st, hx⟩
    have hdisabled : rowOf (.encEdge u) = .edge ∧ s.irqEnabledAt (Instr.encEdge u).unit.toNat = false :=
      ⟨rfl, by simp [State.irqEnabledAt, Instr.unit, hx, hq]⟩
    exact exec_objection (o := .noStep .interruptNotEnabled)
      (by rw [precheck_of_permitted hsteps hperm, if_neg hunit, if_pos hdisabled])
  · have habsent : s.kindAt u ≠ some .encoder := by
      intro hk
      obtain ⟨x, hsrc, hkind⟩ := Option.map_eq_some_iff.1 hk
      cases x <;> simp [Source.kind] at hkind
      exact hx _ _ hsrc
    refine exec_agentNoStep ?_
    cases hph : s.phase with
    | terminated e => exact absurd hph (hp e)
    | setup | running => simp [agentNoStep, hph, ha, habsent]

/-- Settles O16: the codes are evaluated. -/
theorem configErrorCodes : Obligations.ConfigErrorCodes := by
  unfold Obligations.ConfigErrorCodes
  decide

end Sys2Proof.Machine
end

section
/-! PROOFS. What an operation and a step can write, said once for all nineteen operations. -/

namespace Sys2Proof.Machine

/-! ### What an operation that passes its checks writes -/

/-- The CHAIN_READ that POLL begins: nothing collected, slot 0 next, and the ports' `prev` and `now` for every sub-read
(40_digital_sources.md R105). -/
abbrev State.chainBegin (s : State) : ChainRead :=
  { next := 0, acc := 0#64, prev := s.ports.prev, now := s.ports.now }

/-- The next states of an operation that passes its checks and completes, or goes on with a CHAIN_READ: eight forms for
the nineteen operations, each with what the checks and the record's validation have established. -/
inductive Written (i : Instr) (s : State) : State → Prop
  /-- A CFG operation creates a source (43_configuration.md R230). -/
  | created (x : Source) (es : List PinEvent) (d : Draws) (hrow : rowOf i = .config) (hphase : s.phase = .setup)
      (hroom : s.src.length < s.params.maxSources) (hwf : x.WellFormed s.params)
      (hes : es ≠ [] → (∃ u, i = .cfgMatrix u) ∨ ∃ u, i = .cfgShiftreg u) :
      Written i s (complete .none { (s.addSource x).record es with draws := d })
  /-- CFG_AXIS configures an axis (R241). -/
  | configured (a : Nat) (x : Axis) (hrow : rowOf i = .config) (ha : a < 2) (hfree : s.axisAt a = none)
      (hwf : x.WellFormed s.params) : Written i s (complete .none (s.setAxis a x))
  /-- START (R245). -/
  | started (hrow : rowOf i = .start) (hphase : s.phase = .setup) :
      Written i s (complete .none { s with phase := .running })
  /-- A single-source read (40_digital_sources.md R100). -/
  | read (u : UnitIx) (x : Source) (hi : i = x.readOp u) (hx : s.src[u.toNat]? = some x) :
      Written i s (complete (.bitmap (readSource x s.ports.prev s.ports.now s.draws).bits)
        (s.commitRead u.toNat (readSource x s.ports.prev s.ports.now s.draws)))
  /-- CHAIN_READ's first sub-read (R105). -/
  | chainBegun (u : UnitIx) (hi : i = .chainRead u) (hphase : s.phase ≠ .setup) :
      Written i s (chainAdvance s.chainBegin s)
  /-- CHAIN_MASK and AX_GET_CAL (R106; 42_analog_axis.md R212). -/
  | queried (r : Result) (hrow : rowOf i = .query) : Written i s (complete r s)
  /-- ENC_EDGE (41_rotary_encoder.md R153). -/
  | decoded (u : UnitIx) (cfg : EncoderCfg) (st : EncoderSt) (hi : i = .encEdge u)
      (hx : s.src[u.toNat]? = some (.encoder cfg st)) :
      Written i s (complete .none
        { s.setSource u.toNat (.encoder cfg (decodeSample s.params cfg (sample s.draws).1 st)) with
          draws := (sample s.draws).2 })
  /-- AX_READ, AX_RESET_CAL and AX_SET_CAL (42_analog_axis.md R204, R208, R210). -/
  | calibrated (a : Nat) (x : Axis) (st : AxisSt) (r : Result) (d : Draws) (hrow : rowOf i = .live ∨ rowOf i = .setCal)
      (hx : s.axisAt a = some x)
      (hbounds : x.WellFormed s.params → st.min ≤ s.params.rawMax ∧ st.max ≤ s.params.rawMax)
      (hwidens : (∃ u, i = .axResetCal u) ∨ (∃ u, i = .axSetCal u) ∨ st.min ≤ x.st.min ∧ x.st.max ≤ st.max) :
      Written i s (complete r { s.setAxis a { x with st := st } with draws := d })

/-- Recording no event changes nothing. -/
theorem State.record_nil (s : State) : s.record [] = s := by
  simp [State.record]

/-- A created source that needs no pin event and no draw. -/
theorem Written.created_plain {i : Instr} {s : State} {x : Source} (hrow : rowOf i = .config) (hphase : s.phase = .setup)
    (hroom : s.src.length < s.params.maxSources) (hwf : x.WellFormed s.params) :
    Written i s (complete .none (s.addSource x)) := by
  have h := Written.created (i := i) (s := s) x [] s.draws hrow hphase hroom hwf (absurd rfl)
  rwa [State.record_nil] at h

/-- An axis given bounds in range that need no draw. -/
theorem Written.calibrated_plain {i : Instr} {s : State} {a : Nat} {x : Axis} {st : AxisSt}
    (hrow : rowOf i = .live ∨ rowOf i = .setCal) (hx : s.axisAt a = some x)
    (hbounds : st.min ≤ s.params.rawMax ∧ st.max ≤ s.params.rawMax)
    (hi : (∃ u, i = .axResetCal u) ∨ ∃ u, i = .axSetCal u) :
    Written i s (complete .none (s.setAxis a { x with st := st })) := by
  have h := Written.calibrated a x st .none (s.setAxis a { x with st := st }).draws hrow hx (fun _ => hbounds)
    (hi.imp_right .inl)
  exact h

/-- The widened bounds contain the old ones. -/
theorem widen_contains (st : AxisSt) (raw : Nat) : (st.widen raw).min ≤ st.min ∧ st.max ≤ (st.widen raw).max := by
  unfold AxisSt.widen
  constructor
  · dsimp only; split <;> omega
  · dsimp only; split <;> omega

/-- Bounds widened by a sample stay in the sample's range. -/
theorem widen_le {st : AxisSt} {raw m : Nat} (hmin : st.min ≤ m) (hmax : st.max ≤ m) (hraw : raw ≤ m) :
    (st.widen raw).min ≤ m ∧ (st.widen raw).max ≤ m := by
  unfold AxisSt.widen
  constructor
  · dsimp only; split <;> assumption
  · dsimp only; split <;> assumption

/-- A value clamped to a range from 0 on is the smaller of itself and the upper end (42_analog_axis.md R210). -/
theorem clamp_zero (v m : Nat) : clamp v 0 m = min v m := by
  unfold clamp
  rw [if_neg (Nat.not_lt_zero v)]
  split <;> omega

/-- A clamped value does not exceed the upper end. -/
theorem clamp_zero_le (v m : Nat) : clamp v 0 m ≤ m := clamp_zero v m ▸ min_le_right v m

/-- An operation that passes its checks in the row of the CFG operations is issued in phase SETUP. -/
theorem ChecksPass.setup_of_config {i : Instr} {s : State} (h : ChecksPass i s)
    (hrow : rowOf i = .config ∨ rowOf i = .start) : s.phase = .setup := by
  obtain ⟨⟨hterm, -⟩, ⟨-, hconfig, hstart, -⟩, -⟩ := (checksPass_iff i s).1 h
  cases hp : s.phase with
  | setup => rfl
  | running => exact absurd hp (hrow.elim (fun hr hq => hconfig ⟨hr, hq⟩) fun hr hq => hstart ⟨hr, hq⟩)
  | terminated e => exact absurd hp (hterm e)

/-- A CFG operation's rule that rejects its record, or creates what it accepts. -/
theorem registered_written {α : Type} {v : Validated α} {create : α → State → State} {i : Instr} {s t : State}
    (hrow : rowOf i = .config) (h : registered v create s = .next t)
    (hok : ∀ c, v = .ok c → Written i s (complete .none (create c s))) :
    (∃ w, t = refuse w s) ∨ (∃ e, rowOf i = .config ∧ t = raiseConfigError e s) ∨ Written i s t := by
  rcases registered_next h with ⟨c, hc, rfl⟩ | ⟨e, -, rfl⟩ | ⟨w, -, rfl⟩
  · exact .inr (.inr (hok c hc))
  · exact .inr (.inl ⟨e, hrow, rfl⟩)
  · exact .inl ⟨w, rfl⟩

/-- The rule of an operation that passed its checks refuses or raises for a rejected record, or writes. -/
theorem effect_written {i : Instr} {s t : State} (hpass : ChecksPass i s) (h : Effect i s t) :
    (∃ w, t = refuse w s) ∨ (∃ e, rowOf i = .config ∧ t = raiseConfigError e s) ∨ Written i s t := by
  obtain ⟨-, ⟨-, -, -, hlive⟩, hunit, -⟩ := (checksPass_iff i s).1 hpass
  cases i with
  | cfgDpin u =>
    have hp := hpass.setup_of_config (.inl rfl)
    exact registered_written rfl h fun cfg hc => .created_plain rfl hp hunit.2 (validateDpin_ok hc)
  | cfgMatrix u =>
    have hp := hpass.setup_of_config (.inl rfl)
    exact registered_written rfl h fun cfg hc =>
      .created (newMatrix cfg) (matrixIdleEvents cfg) s.draws rfl hp hunit.2 (validateMatrix_ok hc)
        fun _ => .inl ⟨u, rfl⟩
  | cfgShiftreg u =>
    have hp := hpass.setup_of_config (.inl rfl)
    exact registered_written rfl h fun cfg hc =>
      .created (.shiftReg cfg) (shiftRegIdleEvents cfg) s.draws rfl hp hunit.2 (validateShiftReg_ok hc)
        fun _ => .inr ⟨u, rfl⟩
  | cfgEncoder u =>
    have hp := hpass.setup_of_config (.inl rfl)
    refine registered_written rfl h fun cfg hc => ?_
    obtain ⟨hpins, hinputs, halt, hvalid⟩ := validateEncoder_ok hc
    have hw := Written.created (i := .cfgEncoder u)
      (.encoder cfg (primedEncoderSt s.params cfg s.draws.newSlots.1 (sample s.draws.newSlots.2).1)) []
      (sample s.draws.newSlots.2).2 rfl hp hunit.2 ⟨hpins, hinputs, rfl, halt, hvalid⟩ (absurd rfl)
    rwa [State.record_nil] at hw
  | cfgExtsrc u =>
    have hp := hpass.setup_of_config (.inl rfl)
    exact registered_written rfl h fun cfg hc => .created_plain rfl hp hunit.2 (validateExt_ok hc)
  | cfgAxis u =>
    exact registered_written rfl h fun cfg hc =>
      .configured u.toNat _ rfl hunit.1 hunit.2 ⟨validateAxis_ok hc, le_rfl, Nat.zero_le _⟩
  | start u =>
    cases h
    exact .inr (.inr (.started rfl (hpass.setup_of_config (.inr rfl))))
  | dpinRead u | mtxScan u | encRead u | extRead u =>
    obtain ⟨cfg, st, hkind⟩ := hunit
    obtain ⟨x, hx, rfl⟩ := h
    cases hkind.symm.trans hx
    exact .inr (.inr (.read u _ rfl hx))
  | srRead u =>
    obtain ⟨cfg, hkind⟩ := hunit
    obtain ⟨x, hx, rfl⟩ := h
    cases hkind.symm.trans hx
    exact .inr (.inr (.read u _ rfl hx))
  | chainRead u =>
    cases h
    exact .inr (.inr (.chainBegun u rfl fun hp => hlive ⟨rfl, hp⟩))
  | chainMask u =>
    cases h
    exact .inr (.inr (.queried _ rfl))
  | encEdge u =>
    obtain ⟨cfg, st, hx, rfl⟩ := h
    exact .inr (.inr (.decoded u cfg st rfl hx))
  | axRead u =>
    obtain ⟨x, hx, rfl⟩ := h
    exact .inr (.inr (.calibrated u.toNat x _ _ _ (.inl rfl) hx
      (fun hwf => widen_le hwf.2.1 hwf.2.2 (Draws.analogRead_le _ _)) (.inr (.inr (widen_contains _ _)))))
  | axResetCal u =>
    obtain ⟨x, hx, rfl⟩ := h
    exact .inr (.inr (.calibrated_plain (.inl rfl) hx ⟨le_rfl, Nat.zero_le _⟩ (.inl ⟨u, rfl⟩)))
  | axSetCal u =>
    obtain ⟨x, hx, rfl⟩ := h
    exact .inr (.inr (.calibrated_plain (.inr rfl) hx ⟨clamp_zero_le _ _, clamp_zero_le _ _⟩ (.inr ⟨u, rfl⟩)))
  | axGetCal u =>
    obtain ⟨x, hx, rfl⟩ := h
    exact .inr (.inr (.queried _ rfl))

/-- What `exec` can do: a refusal, an error of a CFG operation, or one of the forms an operation writes. -/
theorem exec_written {i : Instr} {s t : State} (h : exec i s = .next t) :
    (∃ w, t = refuse w s) ∨ (∃ e, rowOf i = .config ∧ t = raiseConfigError e s) ∨ (ChecksPass i s ∧ Written i s t) := by
  rcases exec_next h with ⟨hpass, heff⟩ | ⟨w, rfl⟩ | ⟨hr, -, rfl⟩
  · exact (effect_written hpass heff).imp_right (Or.imp_right fun hw => ⟨hpass, hw⟩)
  · exact .inl ⟨w, rfl⟩
  · exact .inr (.inl ⟨.afterStart, hr, rfl⟩)

/-! ### What a sub-read of CHAIN_READ writes -/

/-- Replacing an element by one with the same image changes nothing of the image of the list. -/
theorem map_set_of_eq {α β : Type} {f : α → β} {l : List α} {k : Nat} {x y : α} (hx : l[k]? = some x) (h : f y = f x) :
    (l.set k y).map f = l.map f := by
  rw [List.map_set, h]
  exact set_of_getElem?_eq_some (by simp [hx])

/-- The source table and the trace after a sub-read: where there is a source it is read, else both stay. -/
theorem chainAdvance_reads (c : ChainRead) (s : State) :
    ((chainAdvance c s).src = s.src ∧ (chainAdvance c s).trace = s.trace) ∨
      ∃ x, s.src[c.next]? = some x ∧
        (chainAdvance c s).src = s.src.set c.next (readSource x c.prev c.now s.draws).source ∧
        (chainAdvance c s).trace = s.trace ++ (readSource x c.prev c.now s.draws).events := by
  cases hx : s.src[c.next]? with
  | none => rw [chainAdvance_none hx]; exact .inl ⟨rfl, rfl⟩
  | some x =>
    refine .inr ⟨x, rfl, ?_⟩
    rw [chainAdvance_some hx]
    split <;> exact ⟨rfl, rfl⟩

/-- A sub-read keeps every source's configuration. -/
theorem chainAdvance_configOnly (c : ChainRead) (s : State) :
    (chainAdvance c s).src.map Source.configOnly = s.src.map Source.configOnly := by
  rcases chainAdvance_reads c s with ⟨hsrc, -⟩ | ⟨x, hx, hsrc, -⟩
  · rw [hsrc]
  · rw [hsrc, map_set_of_eq hx (readSource_configOnly ..)]

/-- A sub-read that returns moves `lastNow` to the larger time, any other leaves it. -/
theorem chainAdvance_lastNow (c : ChainRead) (s : State) :
    ((chainAdvance c s).outcome = .completed ∧ (chainAdvance c s).lastNow = if s.lastNow < c.now then c.now else s.lastNow) ∨
      (chainAdvance c s).lastNow = s.lastNow := by
  cases hx : s.src[c.next]? with
  | none => rw [chainAdvance_none hx]; exact .inl ⟨rfl, rfl⟩
  | some x =>
    rw [chainAdvance_some hx]
    split
    · exact .inr rfl
    · exact .inl ⟨rfl, rfl⟩

/-! ### What a step can do -/

/-- A relation holds of every step if it holds of what a step is made of: nothing, a refusal, an operation, and a
sub-read of the CHAIN_READ in progress. The schedule and the ports, which a step presents first, must not matter to it. -/
theorem step_induction {R : State → State → Prop}
    (hports : ∀ s rest ports t, R { s with inbox := rest, ports := ports } t → R s t) (hrefl : ∀ s, R s s)
    (hrefuse : ∀ s w, R s (refuse w s)) (hexec : ∀ i s t, exec i s = .next t → R s t)
    (hsub : ∀ s c, s.chain = some c → R s (chainAdvance c s)) {s t : State} (h : step s = .next t) : R s t := by
  obtain ⟨-, ⟨-, -, hsame⟩ | ⟨rest, -, -, rfl⟩ | ⟨r, rest, -, -, hissue⟩ | ⟨c, rest, hc, rfl⟩⟩ := step_next h
  · exact hsame ▸ hrefl s
  · exact hports s rest s.ports _ (hrefl _)
  · refine hports s rest r.ports t ?_
    rcases issue_next hissue with ⟨i, -, hi⟩ | ⟨w, rfl⟩
    · exact hexec i _ t hi
    · exact hrefuse _ w
  · exact hports s rest s.ports _ (hsub _ c hc)

end Sys2Proof.Machine
end

section
/-! PROOFS. The statements about every step of the block: the phase, the mark, the configuration, the invariant,
`lastNow` and the trace (10_state.md R22 to R27; 20_memory.md R73; 60_exceptions.md R262 to R268). -/

namespace Sys2Proof.Machine

/-! ### The mark and the phase (R22, R23) -/

/-- An operation that passes its checks leaves the mark as it is. -/
theorem Written.refused_eq {i : Instr} {s t : State} (h : Written i s t) : t.refused = s.refused := by
  cases h with
  | chainBegun u hi hphase => exact (chainAdvance_frame _ s).2.2.1
  | _ => simp

/-- An operation that passes its checks leaves the phase as it is, but for START. -/
theorem Written.phase_eq {i : Instr} {s t : State} (h : Written i s t) :
    t.phase = s.phase ∨ (rowOf i = .start ∧ s.phase = .setup ∧ t.phase = .running) := by
  cases h with
  | started hrow hphase => exact .inr ⟨hrow, hphase, rfl⟩
  | chainBegun u hi hphase => exact .inl (chainAdvance_frame _ s).2.1
  | _ => simp

/-- No operation clears the mark. -/
theorem exec_refused_mono {i : Instr} {s t : State} (h : exec i s = .next t) (hs : s.refused = true) :
    t.refused = true := by
  rcases exec_written h with ⟨w, rfl⟩ | ⟨e, -, rfl⟩ | ⟨-, hw⟩
  · rfl
  · exact hs
  · exact hw.refused_eq.trans hs

/-- Settles O12: a refusal is answered by `refuse`, and none of a step's parts clears the mark. -/
theorem refusalSetsOnlyTheMark : Obligations.RefusalSetsOnlyTheMark := by
  refine ⟨rfl, fun i s t w h ho => exec_eq_refuse h ho, fun s t h => ?_⟩
  exact step_induction (R := fun s t => s.refused = true → t.refused = true) (fun _ _ _ _ h => h) (fun _ => id)
    (fun _ _ _ => rfl) (fun _ _ _ => exec_refused_mono) (fun s c _ hs => (chainAdvance_frame c s).2.2.1.trans hs) h

/-- Settles O14: neither a refusal nor what such an operation writes moves the phase, and only a CFG operation's
outcome is an error. -/
theorem runTimeRaisesNoError : Obligations.RunTimeRaisesNoError := by
  intro i s t hconfig hstart h
  refine ⟨?_, fun e ho => hconfig (exec_eq_raise h ho).1⟩
  rcases exec_written h with ⟨w, rfl⟩ | ⟨e, hr, -⟩ | ⟨-, hw⟩
  · rfl
  · exact absurd hr hconfig
  · exact hw.phase_eq.resolve_right fun hr => hstart hr.1

/-- Settles O15: only START and an error move the phase. -/
theorem phaseMovesOnlyForward : Obligations.PhaseMovesOnlyForward := by
  refine ⟨rfl, fun s t h => ⟨(step_next h).1, ?_⟩⟩
  refine step_induction (R := fun s t => t.phase = s.phase ∨ (s.phase = .setup ∧ t.phase = .running) ∨
    ∃ e, t.phase = .terminated e ∧ t.outcome = .terminated e) (fun _ _ _ _ h => h) (fun _ => .inl rfl)
    (fun _ _ => .inl rfl) (fun i s t h => ?_) (fun s c _ => .inl (chainAdvance_frame c s).2.1) h
  rcases exec_written h with ⟨w, rfl⟩ | ⟨e, -, rfl⟩ | ⟨-, hw⟩
  · exact .inl rfl
  · exact .inr (.inr ⟨e, rfl, rfl⟩)
  · exact hw.phase_eq.imp_right fun hstart => .inl hstart.2

/-! ### The parameters and the configuration (R24, R73) -/

/-- Whether two states have the same parameters and the second one every source and axis of the first, each with its
configuration, and at most one source more, created in phase SETUP. -/
def KeepsConfiguration (s t : State) : Prop :=
  t.params = s.params ∧
  (∃ added, t.src.map Source.configOnly = s.src.map Source.configOnly ++ added ∧
    (s.phase ≠ .setup → added = []) ∧ added.length ≤ 1) ∧
  ∀ a x, s.axisAt a = some x → ∃ y, t.axisAt a = some y ∧ y.cfg = x.cfg

/-- The axes of two states with the same axis fields. -/
theorem axisAt_congr {s t : State} (hl : t.axisLeft = s.axisLeft) (hr : t.axisRight = s.axisRight) (a : Nat) :
    t.axisAt a = s.axisAt a := by
  unfold State.axisAt
  rw [hl, hr]

/-- A state with the same parameters, source configurations and axes keeps the configuration. -/
theorem KeepsConfiguration.of_eq {s t : State} (hp : t.params = s.params)
    (hsrc : t.src.map Source.configOnly = s.src.map Source.configOnly) (hl : t.axisLeft = s.axisLeft)
    (hr : t.axisRight = s.axisRight) : KeepsConfiguration s t :=
  ⟨hp, ⟨[], by rw [hsrc, List.append_nil], fun _ => rfl, Nat.zero_le _⟩,
    fun a x hx => ⟨x, (axisAt_congr hl hr a).trans hx, rfl⟩⟩

/-- The axes after one of them is written. -/
theorem axisAt_complete_setAxis (s : State) (r : Result) (d : Draws) (a b : Nat) (x : Axis) (ha : a < 2) :
    (complete r { s.setAxis a x with draws := d }).axisAt b = if b = a then some x else s.axisAt b :=
  s.axisAt_setAxis a b x ha

/-- An operation that passes its checks keeps the configuration. -/
theorem Written.keepsConfiguration {i : Instr} {s t : State} (h : Written i s t) : KeepsConfiguration s t := by
  cases h with
  | created x es d hrow hphase hroom hwf hes =>
    refine ⟨rfl, ⟨[x.configOnly], ?_, fun hp => absurd hphase hp, le_rfl⟩, fun a y hy => ⟨y, hy, rfl⟩⟩
    simp
  | configured a x hrow ha hfree hwf =>
    refine ⟨by simp, ⟨[], by simp, fun _ => rfl, Nat.zero_le _⟩, fun b y hy => ⟨y, ?_, rfl⟩⟩
    have hne : b ≠ a := by rintro rfl; simp [hfree] at hy
    have haxis := axisAt_complete_setAxis s .none (s.setAxis a x).draws a b x ha
    rw [if_neg hne] at haxis
    exact haxis.trans hy
  | started hrow hphase => exact .of_eq rfl rfl rfl rfl
  | read u x hi hx => exact .of_eq rfl (map_set_of_eq hx (readSource_configOnly ..)) rfl rfl
  | chainBegun u hi hphase =>
    obtain ⟨hp, -, -, hl, hr, -⟩ := chainAdvance_frame s.chainBegin s
    exact .of_eq hp (chainAdvance_configOnly ..) hl hr
  | queried r hrow => exact .of_eq rfl rfl rfl rfl
  | decoded u cfg st hi hx => exact .of_eq rfl (map_set_of_eq hx rfl) rfl rfl
  | calibrated a x st r d hrow hx hbounds hwidens =>
    refine ⟨by simp, ⟨[], by simp, fun _ => rfl, Nat.zero_le _⟩, fun b y hy => ?_⟩
    rw [axisAt_complete_setAxis s r d a b _ (s.axisAt_lt a x hx)]
    by_cases hb : b = a
    · subst hb
      cases hx.symm.trans hy
      exact ⟨_, if_pos rfl, rfl⟩
    · exact ⟨y, by rw [if_neg hb, hy], rfl⟩

/-- Settles O58: each of a step's parts keeps the configuration. -/
theorem configurationIsImmutable : Obligations.ConfigurationIsImmutable := by
  intro s t h
  refine step_induction (R := KeepsConfiguration) (fun _ _ _ _ h => h) (fun _ => .of_eq rfl rfl rfl rfl)
    (fun _ _ => .of_eq rfl rfl rfl rfl) (fun i s t h => ?_) (fun s c _ => ?_) h
  · rcases exec_written h with ⟨w, rfl⟩ | ⟨e, -, rfl⟩ | ⟨-, hw⟩
    · exact .of_eq rfl rfl rfl rfl
    · exact .of_eq rfl rfl rfl rfl
    · exact hw.keepsConfiguration
  · obtain ⟨hp, -, -, hl, hr, -⟩ := chainAdvance_frame c s
    exact .of_eq hp (chainAdvance_configOnly c s) hl hr

/-! ### The time (R26) -/

/-- A sub-read moves `lastNow` forward only, and only where it completes. -/
theorem chainAdvance_lastNow_le (c : ChainRead) (s : State) :
    s.lastNow ≤ (chainAdvance c s).lastNow ∧
      ((chainAdvance c s).lastNow ≠ s.lastNow → (chainAdvance c s).outcome = .completed) := by
  rcases chainAdvance_lastNow c s with ⟨hdone, hlast⟩ | hlast
  · refine ⟨?_, fun _ => hdone⟩
    rw [hlast]
    split
    · exact BitVec.le_of_lt ‹_›
    · exact BitVec.le_refl _
  · exact ⟨hlast ▸ BitVec.le_refl _, absurd hlast⟩

/-- An operation that passes its checks and completes moves `lastNow` to its own time, which is no earlier. -/
theorem Written.lastNow_le {i : Instr} {s t : State} (h : Written i s t) (hnow : s.lastNow ≤ s.ports.now) :
    s.lastNow ≤ t.lastNow ∧ (t.lastNow ≠ s.lastNow → t.outcome = .completed) := by
  cases h with
  | chainBegun u hi hphase => exact chainAdvance_lastNow_le ..
  | _ => exact ⟨by simpa using hnow, fun _ => rfl⟩

/-- Settles O59: only an operation that completes moves `lastNow`, after the check of its time or to the larger one. -/
theorem lastNowNeverDecreases : Obligations.LastNowNeverDecreases := by
  intro s t h
  refine step_induction (R := fun s t => s.lastNow ≤ t.lastNow ∧ (t.lastNow ≠ s.lastNow → t.outcome = .completed))
    (fun _ _ _ _ h => h) (fun _ => ⟨BitVec.le_refl _, absurd rfl⟩) (fun _ _ => ⟨BitVec.le_refl _, absurd rfl⟩) (fun i s t h => ?_)
    (fun s c _ => chainAdvance_lastNow_le c s) h
  rcases exec_written h with ⟨w, rfl⟩ | ⟨e, -, rfl⟩ | ⟨hpass, hw⟩
  · exact ⟨BitVec.le_refl _, absurd rfl⟩
  · exact ⟨BitVec.le_refl _, absurd rfl⟩
  · exact hw.lastNow_le ((checksPass_iff i s).1 hpass).2.2.2.2

/-! ### The trace (R27) -/

/-- A read of a source that is no matrix and no shift register records no pin event. -/
theorem readSource_events {x : Source} {u : UnitIx} (hmatrix : ∀ v, x.readOp u ≠ .mtxScan v)
    (hshift : ∀ v, x.readOp u ≠ .srRead v) (prev : InputBitmap) (now : Time) (d : Draws) :
    (readSource x prev now d).events = [] := by
  cases x with
  | matrix cfg st => exact absurd rfl (hmatrix u)
  | shiftReg cfg => exact absurd rfl (hshift u)
  | dpin cfg st | encoder cfg st | opaqueExt cfg ext => rfl

/-- A sub-read extends the trace. -/
theorem chainAdvance_trace (c : ChainRead) (s : State) : ∃ es, (chainAdvance c s).trace = s.trace ++ es := by
  rcases chainAdvance_reads c s with ⟨-, htrace⟩ | ⟨x, -, -, htrace⟩
  · exact ⟨[], by rw [htrace, List.append_nil]⟩
  · exact ⟨_, htrace⟩

/-- An operation that passes its checks extends the trace. -/
theorem Written.trace_extends {i : Instr} {s t : State} (h : Written i s t) : ∃ es, t.trace = s.trace ++ es := by
  cases h with
  | created x es d hrow hphase hroom hwf hes => exact ⟨es, rfl⟩
  | read u x hi hx => exact ⟨_, rfl⟩
  | chainBegun u hi hphase => exact chainAdvance_trace _ s
  | _ => exact ⟨[], by simp⟩

/-- An operation of no matrix and no shift register, and that is no CHAIN_READ, leaves the trace as it is. -/
theorem Written.trace_eq {i : Instr} {s t : State} (h : Written i s t) (hcm : ∀ u, i ≠ .cfgMatrix u)
    (hcs : ∀ u, i ≠ .cfgShiftreg u) (hm : ∀ u, i ≠ .mtxScan u) (hs : ∀ u, i ≠ .srRead u)
    (hc : ∀ u, i ≠ .chainRead u) : t.trace = s.trace := by
  cases h with
  | created x es d hrow hphase hroom hwf hes =>
    have hnil : es = [] := by
      by_contra hne
      exact (hes hne).elim (fun ⟨u, hu⟩ => hcm u hu) fun ⟨u, hu⟩ => hcs u hu
    simp [hnil]
  | read u x hi hx =>
    subst hi
    simp [readSource_events hm hs]
  | chainBegun u hi hphase => exact absurd hi (hc u)
  | _ => simp

/-- Settles O60: each of a step's parts extends the trace. -/
theorem traceOnlyGrows : Obligations.TraceOnlyGrows := by
  refine ⟨fun s t h => ?_, fun i s t hcm hcs hm hs hc h => ?_⟩
  · refine step_induction (R := fun s t => ∃ es, t.trace = s.trace ++ es) (fun _ _ _ _ h => h)
      (fun s => ⟨[], by simp⟩) (fun s w => ⟨[], by simp⟩) (fun i s t h => ?_) (fun s c _ => chainAdvance_trace c s) h
    rcases exec_written h with ⟨w, rfl⟩ | ⟨e, -, rfl⟩ | ⟨-, hw⟩
    · exact ⟨[], by simp⟩
    · exact ⟨[], by simp⟩
    · exact hw.trace_extends
  · rcases exec_written h with ⟨w, rfl⟩ | ⟨e, -, rfl⟩ | ⟨-, hw⟩
    · rfl
    · rfl
    · exact hw.trace_eq hcm hcs hm hs hc

end Sys2Proof.Machine
end

section
/-! PROOFS. The invariant of the block (10_state.md R24 to R41; 40_digital_sources.md R102, R105): it holds at reset and
every step keeps it. -/

namespace Sys2Proof.Machine

/-! ### At reset -/

/-- The reset state has no axis. -/
theorem resetWith_axisAt (p : Params) (a : Nat) : (State.resetWith p).axisAt a = none := by
  unfold State.axisAt
  split <;> rfl

/-- Settles O55: the fields of the reset state. -/
theorem resetStateHoldsTheResetValues : Obligations.ResetStateHoldsTheResetValues := by
  intro p
  exact ⟨rfl, rfl, rfl, fun _ => rfl, resetWith_axisAt p, rfl, rfl, rfl⟩

/-- Settles O56: the reset state has no source, no axis and no CHAIN_READ. -/
theorem resetMeetsTheInvariant : Obligations.ResetMeetsTheInvariant := by
  intro p
  refine ⟨Nat.zero_le _, fun x hx => absurd hx List.not_mem_nil, fun a x hx => ?_, fun c hc => nomatch hc⟩
  simp [resetWith_axisAt] at hx

/-! ### What keeps a source well formed -/

/-- A read keeps its source well formed: it writes no configuration, no stamp count and no interrupt enable. -/
theorem readSource_wellFormed {p : Params} {x : Source} (prev : InputBitmap) (now : Time) (d : Draws)
    (h : x.WellFormed p) : (readSource x prev now d).source.WellFormed p := by
  cases x with
  | dpin cfg st => exact h
  | matrix cfg st =>
    obtain ⟨hsel, hselMax, hin, hinMax, hmap, hnodup, hstamps, hpins⟩ := h
    exact ⟨hsel, hselMax, hin, hinMax, hmap, hnodup, (scanMatrix_length ..).trans hstamps, hpins⟩
  | shiftReg cfg => exact h
  | encoder cfg st =>
    obtain ⟨hpins, hinputs, hirq, halt, hvalid⟩ := h
    exact ⟨hpins, hinputs, (readEncoder_frame cfg st).2.2.2.2.2.trans hirq, halt, hvalid⟩
  | opaqueExt cfg ext => exact h

/-- ENC_EDGE keeps its encoder well formed. -/
theorem decodeSample_wellFormed {p : Params} {cfg : EncoderCfg} {st : EncoderSt} (q : Params) (ab : BitVec 2)
    (h : (Source.encoder cfg st).WellFormed p) : (Source.encoder cfg (decodeSample q cfg ab st)).WellFormed p := by
  obtain ⟨hpins, hinputs, hirq, halt, hvalid⟩ := h
  exact ⟨hpins, hinputs, (decodeSample_frame q cfg ab st).2.2.trans hirq, halt, hvalid⟩

/-! ### What keeps the chain mask -/

/-- The chain mask is the OR of the claims in the list of claims. -/
theorem chainMask_eq_foldr_map (s : State) : s.chainMask = (s.src.map Source.claim).foldr (· ||| ·) 0#64 := by
  rw [State.chainMask, List.foldr_map]

/-- Sources with the same claims have the same chain mask. -/
theorem chainMask_congr {s t : State} (h : t.src.map Source.claim = s.src.map Source.claim) :
    t.chainMask = s.chainMask := by
  rw [chainMask_eq_foldr_map, chainMask_eq_foldr_map, h]

/-- A source's claim lies in the chain mask (40_digital_sources.md R106). -/
theorem claim_subset_chainMask {s : State} {x : Source} (hx : x ∈ s.src) : x.claim &&& ~~~s.chainMask = 0#64 :=
  subset_iff.2 fun n hn => (chainMask_getLsbD s n).2 ⟨x, hx, hn⟩

/-- Two bitmaps in a mask, ORed, lie in it. -/
theorem or_subset {a b m : InputBitmap} (ha : a &&& ~~~m = 0#64) (hb : b &&& ~~~m = 0#64) :
    (a ||| b) &&& ~~~m = 0#64 := by
  refine subset_iff.2 fun n hn => ?_
  rw [BitVec.getLsbD_or, Bool.or_eq_true] at hn
  exact hn.elim (subset_iff.1 ha n) (subset_iff.1 hb n)

/-- What lies in a part of a mask lies in the mask. -/
theorem subset_mask_trans {a b m : InputBitmap} (hab : a &&& ~~~b = 0#64) (hb : b &&& ~~~m = 0#64) :
    a &&& ~~~m = 0#64 :=
  subset_iff.2 fun n hn => subset_iff.1 hb n (subset_iff.1 hab n hn)

/-! ### A read stays in its claim (R100) -/

/-- A press bit is one of the encoder's two claimed bits. -/
theorem pressBit_subset (cfg : EncoderCfg) (st : EncoderSt) (d : Dir) :
    pressBit cfg d &&& ~~~(Source.encoder cfg st).claim = 0#64 := by
  refine subset_iff.2 fun n hn => ?_
  rw [Source.claim, BitVec.getLsbD_or, Bool.or_eq_true]
  cases d with
  | cw => exact .inl hn
  | ccw => exact .inr hn

/-- No bit lies in every mask. -/
theorem zero_subset (m : InputBitmap) : 0#64 &&& ~~~m = 0#64 := BitVec.zero_and

/-- The bit of an input number lies in the bits of a map that names it. -/
theorem inputBit_subset {ns : List InputNumber} {n : InputNumber} (h : n ∈ ns) :
    inputBit n &&& ~~~inputBits ns = 0#64 := by
  refine subset_iff.2 fun m hm => (inputBits_getLsbD ns m).2 ?_
  rw [inputBit_getLsbD, decide_eq_true_iff] at hm
  exact hm ▸ h

/-- A cell of a scan adds only the bit of its own input number. -/
theorem scanCell_subset {cfg : MatrixCfg} {a : Scan} (prev : InputBitmap) (now : Time) (c : Nat)
    (h : a.out &&& ~~~inputBits cfg.map = 0#64) :
    (scanCell cfg prev now c a).out &&& ~~~inputBits cfg.map = 0#64 := by
  unfold scanCell
  split
  · exact h
  · rename_i n hn
    have hbit : inputBit n &&& ~~~inputBits cfg.map = 0#64 := inputBit_subset (List.mem_of_getElem? hn)
    split
    · exact or_subset h hbit
    · split
      · exact or_subset h hbit
      · exact h

/-- A serial position adds only the bit of its own input number. -/
theorem shiftPosition_subset {cfg : ShiftRegCfg} {a : InputBitmap × Draws} (i : Nat)
    (h : a.1 &&& ~~~inputBits cfg.map = 0#64) : (shiftPosition cfg a i).1 &&& ~~~inputBits cfg.map = 0#64 := by
  unfold shiftPosition
  split
  · exact h
  · rename_i n hn
    dsimp only
    split
    · exact or_subset h (inputBit_subset (List.mem_of_getElem? hn))
    · exact h

/-- Settles O31: each kind's read reports only input numbers that its configuration names. -/
theorem readsStayInTheirClaim : Obligations.ReadsStayInTheirClaim := by
  intro x prev now d
  cases x with
  | dpin cfg st =>
    simp only [readSource, readDpin]
    split
    · exact BitVec.and_not_self _
    · exact zero_subset _
  | matrix cfg st =>
    simp only [readSource, readMatrix, scanMatrix_eq]
    exact List.foldlRecOn (motive := fun a : Scan => a.out &&& ~~~inputBits cfg.map = 0#64) _ _
      (zero_subset _) fun a ha c _ => scanCell_subset prev now c ha
  | shiftReg cfg =>
    simp only [readSource, readShiftReg]
    exact List.foldlRecOn (motive := fun a : InputBitmap × Draws => a.1 &&& ~~~inputBits cfg.map = 0#64) _ _
      (zero_subset _) fun a ha i _ => shiftPosition_subset i ha
  | encoder cfg st =>
    by_cases hpress : st.pending = false ∧ st.head ≠ st.tail
    · simp only [readSource, readEncoder_press hpress]
      exact pressBit_subset cfg st _
    · simp only [readSource, readEncoder_release hpress]
      exact zero_subset _
  | opaqueExt cfg ext =>
    simp only [readSource, readExt]
    refine subset_iff.2 fun n hn => ?_
    rw [BitVec.getLsbD_and, Bool.and_eq_true] at hn
    exact hn.2

/-! ### Every step keeps the invariant -/

/-- A state whose sources have the same claims as those of a state of the invariant meets it if its sources and axes are
well formed and its CHAIN_READ in progress, if there is one, is. -/
theorem State.Inv.of_claims {s t : State} (h : s.Inv) (hparams : t.params = s.params)
    (hclaims : t.src.map Source.claim = s.src.map Source.claim) (hsrc : ∀ x ∈ t.src, x.WellFormed s.params)
    (haxes : ∀ a x, t.axisAt a = some x → x.WellFormed s.params)
    (hchain : ∀ c, t.chain = some c → t.phase ≠ .setup ∧ c.next < s.src.length ∧ c.acc &&& ~~~s.chainMask = 0#64) :
    t.Inv := by
  have hlen : t.src.length = s.src.length := by simpa using congrArg List.length hclaims
  refine ⟨?_, ?_, ?_, fun c hc => ?_⟩
  · rw [hlen, hparams]; exact h.1
  · rwa [hparams]
  · rwa [hparams]
  · rw [State.ChainWellFormed, hlen, chainMask_congr hclaims]
    exact hchain c hc

/-- A state with the same sources and CHAIN_READ and well-formed axes, its phase not back in SETUP. -/
theorem State.Inv.of_same_sources {s t : State} (h : s.Inv) (hparams : t.params = s.params) (hsrc : t.src = s.src)
    (hchain : t.chain = s.chain) (hphase : s.phase ≠ .setup → t.phase ≠ .setup)
    (haxes : ∀ a x, t.axisAt a = some x → x.WellFormed s.params) : t.Inv := by
  have ⟨_, hwf, _, hc⟩ := h
  refine h.of_claims hparams (by rw [hsrc]) (hsrc ▸ hwf) haxes fun c hcs => ?_
  obtain ⟨hp, hnext, hacc⟩ := hc c (hchain ▸ hcs)
  exact ⟨hphase hp, hnext, hacc⟩

/-- A table of well-formed sources with one of them replaced by a well-formed one. -/
theorem forall_mem_set {p : Params} {l : List Source} {k : Nat} {y : Source} (hl : ∀ x ∈ l, x.WellFormed p)
    (hy : y.WellFormed p) : ∀ x ∈ l.set k y, x.WellFormed p := by
  intro x hx
  rcases List.mem_or_eq_of_mem_set hx with hmem | rfl
  · exact hl x hmem
  · exact hy

/-- A state with one source replaced by a well-formed one of the same claim. -/
theorem State.Inv.of_set {s t : State} {k : Nat} {x y : Source} (h : s.Inv) (hparams : t.params = s.params)
    (hsrc : t.src = s.src.set k y) (hx : s.src[k]? = some x) (hclaim : y.claim = x.claim)
    (hy : x.WellFormed s.params → y.WellFormed s.params) (hchain : t.chain = s.chain) (hphase : t.phase = s.phase)
    (haxes : ∀ a, t.axisAt a = s.axisAt a) : t.Inv := by
  have ⟨_, hwf, hax, hc⟩ := h
  refine h.of_claims hparams ?_ ?_ (fun a z hz => hax a z (haxes a ▸ hz)) fun c hcs => ?_
  · rw [hsrc, map_set_of_eq hx hclaim]
  · rw [hsrc]
    exact forall_mem_set hwf (hy (hwf x (List.mem_of_getElem? hx)))
  · obtain ⟨hp, hnext, hacc⟩ := hc c (hchain ▸ hcs)
    exact ⟨hphase ▸ hp, hnext, hacc⟩

/-- A sub-read keeps the claims. -/
theorem chainAdvance_claims (c : ChainRead) (s : State) :
    (chainAdvance c s).src.map Source.claim = s.src.map Source.claim := by
  rcases chainAdvance_reads c s with ⟨hsrc, -⟩ | ⟨x, hx, hsrc, -⟩
  · rw [hsrc]
  · rw [hsrc, map_set_of_eq hx (readSource_claim ..)]

/-- The bits of a read of one of the sources lie in the chain mask (40_digital_sources.md R102). -/
theorem read_subset_chainMask {s : State} {x : Source} (hx : x ∈ s.src) (prev : InputBitmap) (now : Time) (d : Draws) :
    (readSource x prev now d).bits &&& ~~~s.chainMask = 0#64 :=
  subset_mask_trans (readsStayInTheirClaim ..) (claim_subset_chainMask hx)

/-- A CHAIN_READ that goes on after a sub-read has the next source to read and its bits in the chain mask. -/
theorem chainAdvance_chain {c c' : ChainRead} {s : State} (hacc : c.acc &&& ~~~s.chainMask = 0#64)
    (hc : (chainAdvance c s).chain = some c') :
    c'.next < s.src.length ∧ c'.acc &&& ~~~s.chainMask = 0#64 := by
  cases hx : s.src[c.next]? with
  | none => rw [chainAdvance_none hx] at hc; exact nomatch hc
  | some x =>
    rw [chainAdvance_some hx] at hc
    split at hc
    · cases hc
      exact ⟨‹_›, or_subset hacc (read_subset_chainMask (List.mem_of_getElem? hx) ..)⟩
    · exact nomatch hc

/-- A sub-read after START keeps the invariant. -/
theorem chainAdvance_inv {c : ChainRead} {s : State} (h : s.Inv) (hphase : s.phase ≠ .setup)
    (hacc : c.acc &&& ~~~s.chainMask = 0#64) : (chainAdvance c s).Inv := by
  obtain ⟨hp, hph, -, hl, hr, -⟩ := chainAdvance_frame c s
  have ⟨_, hwf, hax, _⟩ := h
  refine h.of_claims hp (chainAdvance_claims c s) ?_ (fun a x hx => hax a x (axisAt_congr hl hr a ▸ hx))
    fun c' hc => ⟨hph ▸ hphase, chainAdvance_chain hacc hc⟩
  rcases chainAdvance_reads c s with ⟨hsrc, -⟩ | ⟨x, hx, hsrc, -⟩
  · rwa [hsrc]
  · rw [hsrc]
    exact forall_mem_set hwf (readSource_wellFormed _ _ _ (hwf x (List.mem_of_getElem? hx)))

/-- An operation that passes its checks keeps the invariant. -/
theorem Written.inv {i : Instr} {s t : State} (hw : Written i s t) (h : s.Inv) : t.Inv := by
  have ⟨_, hwf, hax, hc⟩ := h
  cases hw with
  | created x es d hrow hphase hroom hx hes =>
    refine ⟨by simpa using hroom, fun y hy => ?_, hax, fun c hcs => absurd hphase (hc c hcs).1⟩
    rcases List.mem_append.1 hy with hy | hy
    · exact hwf y hy
    · exact List.mem_singleton.1 hy ▸ hx
  | configured a x hrow ha hfree hx =>
    refine h.of_same_sources (by simp) (by simp) (by simp) (by simp) fun b y hy => ?_
    have hat := (axisAt_complete_setAxis s .none (s.setAxis a x).draws a b x ha).symm.trans hy
    split at hat
    · cases hat; exact hx
    · exact hax b y hat
  | started hrow hphase => exact h.of_same_sources rfl rfl rfl (fun _ => by simp) hax
  | read u x hi hx =>
    exact h.of_set rfl rfl hx (readSource_claim ..) (readSource_wellFormed _ _ _) rfl rfl fun _ => rfl
  | chainBegun u hi hphase => exact chainAdvance_inv h hphase (zero_subset _)
  | queried r hrow => exact h.of_same_sources rfl rfl rfl id hax
  | decoded u cfg st hi hx => exact h.of_set rfl rfl hx rfl (decodeSample_wellFormed _ _) rfl rfl fun _ => rfl
  | calibrated a x st r d hrow hx hbounds hwidens =>
    refine h.of_same_sources (by simp) (by simp) (by simp) (by simp) fun b y hy => ?_
    rw [axisAt_complete_setAxis s r d a b _ (s.axisAt_lt a x hx)] at hy
    split at hy
    · cases hy
      exact ⟨(hax a x hx).1, hbounds (hax a x hx)⟩
    · exact hax b y hy

/-- Settles O57: each of a step's parts keeps the invariant; a sub-read is one of a CHAIN_READ that meets it. -/
theorem stepKeepsTheInvariant : Obligations.StepKeepsTheInvariant := by
  intro s t hs h
  refine step_induction (R := fun s t => s.Inv → t.Inv) (fun _ _ _ _ h => h) (fun _ => id)
    (fun s w h => h.of_same_sources rfl rfl rfl id h.2.2.1) (fun i s t hi h => ?_) (fun s c hc h => ?_) h hs
  · rcases exec_written hi with ⟨w, rfl⟩ | ⟨e, -, rfl⟩ | ⟨-, hw⟩
    · exact h.of_same_sources rfl rfl rfl id h.2.2.1
    · exact h.of_same_sources rfl rfl rfl (fun _ => by simp) h.2.2.1
    · exact hw.inv h
  · obtain ⟨hphase, -, hacc⟩ := h.2.2.2 c hc
    exact chainAdvance_inv h hphase hacc

end Sys2Proof.Machine
end

section
/-! PROOFS. CHAIN_READ (40_digital_sources.md R102 to R105; 20_memory.md R68): its first sub-read, the ones after it, and
the whole of it when nothing comes between them. -/

namespace Sys2Proof.Machine

/-- In POLL's turn CHAIN_READ begins with a sub-read of slot 0. -/
theorem exec_chainRead {s : State} (h : PollTurn s) :
    exec (.chainRead 0#8) s = .next (chainAdvance s.chainBegin s) :=
  (exec_of_checksPass (i := .chainRead 0#8) (checksPass_live rfl h rfl) _).2 rfl

/-- Of the present time and one no earlier, the larger is the latter. -/
theorem larger_time_eq {a b : Time} (h : a ≤ b) : (if a < b then b else a) = b := by
  split
  · rfl
  · exact BitVec.le_antisymm h (BitVec.not_lt.1 ‹_›)

/-- Settles O33: by the number of sources, the first sub-read is the whole of it or goes on. -/
theorem chainReadBeginsWithOneSubRead : Obligations.ChainReadBeginsWithOneSubRead := by
  intro s h
  refine ⟨decode_opcode_unit (.chainRead 0#8), fun hsrc => ?_, fun x hsrc => ?_, fun x y xs hsrc => ?_⟩
  · rw [exec_chainRead h, chainAdvance_none (by simp [hsrc]), chainFinish, larger_time_eq h.2.2]
  · rw [exec_chainRead h, chainAdvance_some (x := x) (by simp [hsrc]), if_neg (by simp [hsrc])]
    simp [chainFinish, State.commitRead, State.setSource, State.record, hsrc, larger_time_eq h.2.2]
  · rw [exec_chainRead h, chainAdvance_some (x := x) (by simp [hsrc]), if_pos (by simp [hsrc])]
    simp [State.commitRead, State.setSource, State.record, hsrc]

/-! ### Uninterrupted (R105) -/

/-- The CHAIN_READ after a sub-read of the source `x`. -/
def ChainRead.goOn (c : ChainRead) (x : Source) (s : State) : ChainRead :=
  { c with next := c.next + 1, acc := c.acc ||| (readSource x c.prev c.now s.draws).bits }

/-- The state after a sub-read of the source `x` that is not the last. -/
def afterSubRead (c : ChainRead) (x : Source) (s : State) : State :=
  { s.commitRead c.next (readSource x c.prev c.now s.draws) with
    chain := some (c.goOn x s), result := .none, outcome := .reading }

/-- A sub-read before the last goes on. -/
theorem chainAdvance_goes_on {c : ChainRead} {s : State} {x : Source} (hx : s.src[c.next]? = some x)
    (hmore : c.next + 1 < s.src.length) : chainAdvance c s = afterSubRead c x s :=
  (chainAdvance_some hx).trans (if_pos hmore)

/-- The last sub-read returns. -/
theorem chainAdvance_returns {c : ChainRead} {s : State} {x : Source} (hx : s.src[c.next]? = some x)
    (hlast : ¬c.next + 1 < s.src.length) :
    chainAdvance c s = chainFinish (c.goOn x s) (s.commitRead c.next (readSource x c.prev c.now s.draws)) :=
  (chainAdvance_some hx).trans (if_neg hlast)

/-- One step more at the front of a run. -/
theorem run_succ {k : Nat} {s s' : State} (h : step s = .next s') :
    Host.Core.run core (k + 1) s = Host.Core.run core k s' := by
  have hcore : core.step s = .next s' := h
  simp only [Host.Core.run, hcore]

/-- Where a step does a CHAIN_READ's sub-read of the first of the sources that are left, and nobody else has a turn, as
many steps as there are sources left read them all and return. -/
theorem run_subReads (xs : List Source) : ∀ (done : List Source) (x : Source) (c : ChainRead) (s before : State),
    step before = .next (chainAdvance c s) → (∀ e, s.phase ≠ .terminated e) → s.inbox = [] →
    s.src = done ++ x :: xs → c.next = done.length →
    let all := readAll c.prev c.now (x :: xs) s.draws
    Host.Core.run core (xs.length + 1) before = .next
      { s with
        src := done ++ all.1, trace := s.trace ++ all.2.2.1, draws := all.2.2.2, chain := none
        lastNow := if s.lastNow < c.now then c.now else s.lastNow
        result := .bitmap (c.acc ||| all.2.1), outcome := .completed } := by
  induction xs with
  | nil =>
    intro done x c s before hstep hphase hinbox hsrc hnext all
    have hx : s.src[c.next]? = some x := by simp [hsrc, hnext]
    have hlast : ¬c.next + 1 < s.src.length := by simp [hsrc, hnext]
    rw [chainAdvance_returns hx hlast] at hstep
    rw [run_succ hstep]
    simp [Host.Core.run, chainFinish, ChainRead.goOn, State.commitRead, State.setSource, State.record, hsrc, hnext,
      all, readAll]
  | cons y ys ih =>
    intro done x c s before hstep hphase hinbox hsrc hnext all
    have hx : s.src[c.next]? = some x := by simp [hsrc, hnext]
    have hmore : c.next + 1 < s.src.length := by simp [hsrc, hnext]
    rw [chainAdvance_goes_on hx hmore] at hstep
    have hstep' : step (afterSubRead c x s) = .next (chainAdvance (c.goOn x s) (afterSubRead c x s)) :=
      step_subRead (s := afterSubRead c x s) (left := (afterSubRead c x s).inbox) hphase rfl (.inl ⟨hinbox, hinbox⟩)
    have hsrc' : (afterSubRead c x s).src = (done ++ [(readSource x c.prev c.now s.draws).source]) ++ y :: ys := by
      simp [afterSubRead, hsrc, hnext]
    have hnext' : (c.goOn x s).next = (done ++ [(readSource x c.prev c.now s.draws).source]).length := by
      simp [ChainRead.goOn, hnext]
    rw [List.length_cons, run_succ hstep, ih _ y _ _ _ hstep' hphase hinbox hsrc' hnext']
    simp only [all, readAll, afterSubRead, ChainRead.goOn, State.commitRead, State.setSource, State.record,
      List.append_assoc, List.singleton_append, BitVec.or_assoc]
    rfl

/-- Settles O34: the step that issues the operation does the first sub-read, and `run_subReads` the others. -/
theorem chainReadOrsEveryRead : Obligations.ChainReadOrsEveryRead := by
  intro s r hphase hchain hinbox hdesc hturn hne all
  obtain ⟨x, xs, hsrc⟩ := List.exists_cons_of_ne_nil hne
  have hstep : step s = exec (.chainRead 0#8) { s with inbox := [], ports := r.ports } :=
    (step_issue hinbox (.inl hchain) hphase).trans
      (issue_ok (hdesc ▸ decode_opcode_unit (.chainRead 0#8)))
  rw [exec_chainRead (s := { s with inbox := [], ports := r.ports }) hturn] at hstep
  have hrun := run_subReads xs [] x _ _ s hstep hphase rfl hsrc rfl
  rw [hsrc]
  refine hrun.trans ?_
  simp [all, hsrc, hchain, larger_time_eq hturn.2.2]

/-! ### Other agents between its sub-reads (R68, R272) -/

/-- An operation of another agent than POLL leaves a CHAIN_READ in progress as it is. -/
theorem exec_chain_of_not_poll {i : Instr} {s t : State} (ha : s.ports.agent ≠ .poll) (h : exec i s = .next t) :
    t.chain = s.chain := by
  rcases exec_written h with ⟨w, rfl⟩ | ⟨e, -, rfl⟩ | ⟨hpass, hw⟩
  · rfl
  · rfl
  · cases hw with
    | chainBegun u hi hphase =>
      obtain ⟨-, ⟨hlisted, -⟩, -⟩ := (checksPass_iff i s).1 hpass
      rw [hi] at hlisted
      exact absurd hlisted ha
    | _ => simp

/-- Settles O35: the sub-read at each schedule is `step_subRead`'s. -/
theorem otherAgentsComeBetweenSubReads : Obligations.OtherAgentsComeBetweenSubReads := by
  refine ⟨fun i s t ha h => exec_chain_of_not_poll ha h, fun s c x left hphase hc hx hinbox => ?_⟩
  rw [step_subRead hphase hc hinbox, chainAdvance_some (s := { s with inbox := left }) hx]
  rfl

/-! ### The bits it returns (R102) -/

/-- What a sub-read returns lies in the chain mask, if what the CHAIN_READ has so far does. -/
theorem chainAdvance_result {c : ChainRead} {s : State} {b : InputBitmap} (hacc : c.acc &&& ~~~s.chainMask = 0#64)
    (hb : (chainAdvance c s).result = .bitmap b) : b &&& ~~~s.chainMask = 0#64 := by
  cases hx : s.src[c.next]? with
  | none => rw [chainAdvance_none hx] at hb; cases hb; exact hacc
  | some x =>
    rw [chainAdvance_some hx] at hb
    split at hb
    · cases hb
    · cases hb
      exact or_subset hacc (read_subset_chainMask (List.mem_of_getElem? hx) ..)

/-- Settles O36: at the first sub-read nothing is collected yet; at a later one the invariant holds of what is. -/
theorem chainReadStaysInTheChainMask : Obligations.ChainReadStaysInTheChainMask := by
  refine ⟨fun u s t b h hb => ?_, fun s t c b hinv hc ht h hb => ?_⟩
  · rcases exec_next h with ⟨-, heff⟩ | ⟨w, rfl⟩ | ⟨-, -, rfl⟩
    · cases heff
      exact chainAdvance_result (zero_subset _) hb
    · cases hb
    · cases hb
  · obtain ⟨-, ⟨hnone, -⟩ | ⟨rest, hnone, -⟩ | ⟨r, rest, hagent, -, hissue⟩ | ⟨c', rest, hc', rfl⟩⟩ := step_next h
    · simp [hc] at hnone
    · simp [hc] at hnone
    · have hkeeps : t.chain = s.chain := by
        rcases issue_next hissue with ⟨i, -, hi⟩ | ⟨w, rfl⟩
        · have hother : r.ports.agent ≠ .poll := hagent.resolve_left (by simp [hc])
          exact exec_chain_of_not_poll (s := { s with inbox := rest, ports := r.ports }) hother hi
        · rfl
      simp [hkeeps, hc] at ht
    · exact chainAdvance_result (s := { s with inbox := rest }) (hinv.2.2.2 c' hc').2.2 hb

end Sys2Proof.Machine
end

section
/-! PROOFS. The opaque source's read (40_digital_sources.md R140, R141), and what the debouncers do over a sequence of
reads whose reports are fed back (R109, R116). -/

namespace Sys2Proof.Machine

/-! ### Opaque source (R140, R141) -/

/-- The inputs of failed bus transactions read 0. -/
theorem extReadFn_failed (fn ext : Nat) (prev : InputBitmap) (now : Time) (draw : Nat) (mask : InputBitmap) :
    (extReadFn fn ext prev now draw).1 &&& mask &&& Config.extFailedInputs fn ext prev now draw = 0#64 := by
  refine bitmap_ext fun n => ?_
  simp only [extReadFn, BitVec.getLsbD_and, BitVec.getLsbD_not, BitVec.getLsbD_zero]
  cases (Config.extFailedInputs fn ext prev now draw).getLsbD n.val <;> simp

/-- Settles O30: `exec_readOp` at an opaque source. -/
theorem extReadMasksItsFunction : Obligations.ExtReadMasksItsFunction := by
  intro u s cfg ext h hx draw r
  refine ⟨decode_opcode_unit (.extRead u), ?_, extReadFn_failed ..⟩
  have hexec := exec_readOp h hx
  simp only [readSource, readExt, List.append_nil] at hexec
  exact hexec

/-! ### Direct pin (R109) -/

/-- A report fed back is read as the bit of `prev`. -/
theorem fedBack_getLsbD (n : InputNumber) (b : Bool) : (if b then inputBit n else 0#64).getLsbD n.val = b := by
  cases b <;> simp

/-- A read whose sample has been stored since `t0` keeps the report inside the window and reports the sample after
it. -/
theorem dpinFeed_eq {cfg : DpinCfg} {st : DpinSt} {b v : Bool} {t t0 : Time}
    (h : dpinSampled st v t = { lastRaw := v, lastChange := t0 }) :
    dpinFeed cfg (st, b) (v, t) =
      ({ lastRaw := v, lastChange := t0 }, if cfg.window ≤ t - t0 then v else b) := by
  simp only [dpinFeed, dpinReported_eq, h, fedBack_getLsbD]

/-- A sample equal to the last one leaves the state as it is. -/
theorem dpinSampled_same (v : Bool) (t t0 : Time) :
    dpinSampled { lastRaw := v, lastChange := t0 } v t = { lastRaw := v, lastChange := t0 } := if_pos rfl

/-- A sample that differs from the last one is stored with its time. -/
theorem dpinSampled_change {st : DpinSt} {v : Bool} (h : st.lastRaw = !v) (t0 : Time) :
    dpinSampled st v t0 = { lastRaw := v, lastChange := t0 } :=
  if_neg (by rw [h]; cases v <;> simp)

/-- Where every read finds the value stored since `t0` or stores it then, the value stays stored; the report stays while
every read is inside the window. -/
theorem dpinFeed_foldl (cfg : DpinCfg) (v : Bool) (t0 : Time) (ts : List Time) : ∀ a : DpinSt × Bool,
    (∀ t ∈ ts.head?, dpinSampled a.1 v t = { lastRaw := v, lastChange := t0 }) → ts ≠ [] →
    let final := (ts.map (fun t => (v, t))).foldl (dpinFeed cfg) a
    final.1 = { lastRaw := v, lastChange := t0 } ∧
      ((∀ t ∈ ts, t - t0 < cfg.window) → final.2 = a.2) ∧
      ∀ t, ts.getLast? = some t → cfg.window ≤ t - t0 → final.2 = v := by
  induction ts with
  | nil => exact fun _ _ hne => absurd rfl hne
  | cons t ts ih =>
    rintro ⟨st, b⟩ hstored - final
    have hfeed : dpinFeed cfg (st, b) (v, t) =
        ({ lastRaw := v, lastChange := t0 }, if cfg.window ≤ t - t0 then v else b) := dpinFeed_eq (hstored t rfl)
    have hfinal : final = (ts.map (fun t => (v, t))).foldl (dpinFeed cfg)
        ({ lastRaw := v, lastChange := t0 }, if cfg.window ≤ t - t0 then v else b) := by
      rw [← hfeed]; rfl
    have hkeep : t - t0 < cfg.window → (if cfg.window ≤ t - t0 then v else b) = b :=
      fun h => if_neg (BitVec.not_le.2 h)
    cases ts with
    | nil =>
      rw [hfinal]
      refine ⟨rfl, fun h => hkeep (h t List.mem_cons_self), fun t' ht' hw => ?_⟩
      cases ht'
      exact if_pos hw
    | cons t' ts =>
      obtain ⟨hst, hhold, hlast⟩ := ih ({ lastRaw := v, lastChange := t0 }, if cfg.window ≤ t - t0 then v else b)
        (fun _ _ => dpinSampled_same ..) (List.cons_ne_nil _ _)
      rw [hfinal]
      refine ⟨hst, fun h => ?_, fun t'' ht'' hw => hlast t'' (by simpa using ht'') hw⟩
      exact (hhold fun x hx => h x (List.mem_cons_of_mem _ hx)).trans (hkeep (h t List.mem_cons_self))

/-- Settles O37: the first read stores the new value at `t0`, and the later ones leave it so. -/
theorem directPinDebounce : Obligations.DirectPinDebounce := by
  intro cfg st reported v t0 later hst
  have hchange : ∀ t ∈ (t0 :: later).head?, dpinSampled st v t = { lastRaw := v, lastChange := t0 } := by
    intro t ht
    cases ht
    exact dpinSampled_change hst t0
  exact (dpinFeed_foldl cfg v t0 (t0 :: later) (st, reported) hchange (List.cons_ne_nil _ _)).2

/-! ### Button matrix (R116) -/

/-- What one scan whose result is fed back does to one cell of a well-formed matrix: the sizes stay, the cell is stamped
if it is closed, and its input number is reported if the cell is closed or held. -/
theorem matrixFeed_cell {p : Params} {cfg : MatrixCfg} {st : MatrixSt} (prev : InputBitmap) {c : Nat} {n : InputNumber}
    (now : Time) (d : Draws) (hwf : (Source.matrix cfg st).WellFormed p) (hc : cfg.map[c]? = some n) :
    (Source.matrix cfg (matrixFeed cfg (st, prev) (now, d)).1).WellFormed p ∧
      (matrixFeed cfg (st, prev) (now, d)).1.lastActive.getD c 0#64 =
        (if (Draws.levels cfg.map.length d).1[c]? = some cfg.inActive then now else st.lastActive.getD c 0#64) ∧
      ((matrixFeed cfg (st, prev) (now, d)).2.getLsbD n = true ↔
        (Draws.levels cfg.map.length d).1[c]? = some cfg.inActive ∨
          (prev.getLsbD n = true ∧ now - st.lastActive.getD c 0#64 < cfg.window)) := by
  obtain ⟨hsel, hselMax, hin, hinMax, hmap, hnodup, hstamps, hpins⟩ := hwf
  obtain ⟨stamps, hsource, -, hlen, hstamp, hbits⟩ := readMatrix_spec cfg st prev now d hmap hstamps
  have hlt : c < cfg.map.length := (List.getElem?_eq_some_iff.1 hc).1
  have hst : (matrixFeed cfg (st, prev) (now, d)).1 = { lastActive := stamps } := by simp only [matrixFeed, hsource]
  rw [hst, hmap]
  refine ⟨⟨hsel, hselMax, hin, hinMax, hmap, hnodup, hlen, hpins⟩, ?_, (hbits n).trans ⟨?_, fun h => ?_⟩⟩
  · rw [List.getD_eq_getElem?_getD, hstamp c (hmap ▸ hlt), Option.getD_some]
  · rintro ⟨c', -, hc', h⟩
    obtain rfl : c = c' := (List.getElem?_inj hlt hnodup).1 (hc.trans hc'.symm)
    exact h
  · exact ⟨c, hmap ▸ hlt, hc, h⟩

/-- A cell stamped `ta` and open from then on stays reported exactly as long as it was and every scan is inside the
window. -/
theorem matrixFeed_foldl_open {p : Params} {cfg : MatrixCfg} {c : Nat} {n : InputNumber} {ta : Time}
    (hc : cfg.map[c]? = some n) (later : List (Time × Draws)) : ∀ a : MatrixSt × InputBitmap,
    (Source.matrix cfg a.1).WellFormed p → a.1.lastActive.getD c 0#64 = ta →
    (∀ scan ∈ later, (Draws.levels cfg.map.length scan.2).1[c]? ≠ some cfg.inActive) →
    ((later.foldl (matrixFeed cfg) a).2.getLsbD n = true ↔
      a.2.getLsbD n = true ∧ ∀ scan ∈ later, scan.1 - ta < cfg.window) := by
  induction later with
  | nil => intro a _ _ _; simp
  | cons scan later ih =>
    intro a hwf hta hopen
    obtain ⟨hwf', hstamp, hbit⟩ := matrixFeed_cell a.2 scan.1 scan.2 hwf hc
    have hscan : (Draws.levels cfg.map.length scan.2).1[c]? ≠ some cfg.inActive := hopen scan List.mem_cons_self
    rw [if_neg hscan, hta] at hstamp
    rw [List.foldl_cons, ih _ hwf' hstamp fun x hx => hopen x (List.mem_cons_of_mem _ hx), List.forall_mem_cons,
      ← and_assoc]
    refine and_congr_left fun _ => hbit.trans ?_
    rw [hta, or_iff_right hscan]

/-- Settles O38: the first scan stamps and reports the cell, and `matrixFeed_foldl_open` is about the later ones. -/
theorem matrixReleaseHold : Obligations.MatrixReleaseHold := by
  intro p cfg st prev c n ta d later hwf hc hclosed hopen first final
  obtain ⟨hwf', hstamp, hbit⟩ := matrixFeed_cell prev ta d hwf hc
  rw [if_pos hclosed] at hstamp
  have hfirst : first.2.getLsbD n = true := hbit.2 (.inl hclosed)
  have hfinal : final.2.getLsbD n = true ↔ first.2.getLsbD n = true ∧ ∀ scan ∈ later, scan.1 - ta < cfg.window :=
    matrixFeed_foldl_open hc later first hwf' hstamp hopen
  refine ⟨hfirst, fun h => hfinal.2 ⟨hfirst, h⟩, fun ⟨scan, hscan, hw⟩ => ?_⟩
  rw [← Bool.not_eq_true, hfinal]
  exact fun ⟨_, h⟩ => BitVec.not_le.2 (h scan hscan) hw

end Sys2Proof.Machine
end

section
/-! PROOFS. The rotary encoder (41_rotary_encoder.md): the queue as a first-in first-out list (R157 to R159), the
decoders in either encoding (R153 to R156), ENC_EDGE and the two reads of a detent (R160 to R164). -/

namespace Sys2Proof.Machine

/-! ### The queue as a list (R157 to R159) -/

/-- The list of queued detents depends on the slots and the two indices only. -/
theorem entries_congr {st st' : EncoderSt} (hslots : st'.slots = st.slots) (hhead : st'.head = st.head)
    (htail : st'.tail = st.tail) : st'.entries = st.entries := by
  rw [EncoderSt.entries, EncoderSt.entries, hslots, hhead, htail]

/-- Nothing is queued exactly when the indices are equal. -/
theorem entries_eq_nil_iff (st : EncoderSt) : st.entries = [] ↔ st.head = st.tail := by
  rw [← List.length_eq_zero_iff, entries_length]
  constructor
  · intro h; bv_omega
  · intro h; simp [h]

/-- The queue is full exactly when 63 detents are queued. -/
theorem full_iff (st : EncoderSt) : st.tail + 1#6 = st.head ↔ st.entries.length = 63 := by
  rw [entries_length]
  constructor <;> intro h <;> bv_omega

/-- At most 63 detents are queued. -/
theorem entries_length_le (st : EncoderSt) : st.entries.length ≤ 63 := by
  rw [entries_length]
  exact Nat.le_of_lt_succ (st.tail - st.head).isLt

/-- A push into a queue that is not full appends the detent. -/
theorem entries_push_room {d : Dir} {st : EncoderSt} (h : st.tail + 1#6 ≠ st.head) :
    (push d st).entries = st.entries ++ [d] := by
  have hsucc : (st.tail + 1#6 - st.head).toNat = (st.tail - st.head).toNat + 1 := by bv_omega
  have hlast : st.head + BitVec.ofNat 6 (st.tail - st.head).toNat = st.tail := by
    rw [BitVec.ofNat_toNat, BitVec.setWidth_eq]; bv_omega
  rw [push_room h, EncoderSt.entries, hsucc, List.range_succ, List.map_append, EncoderSt.entries]
  congr 1
  · refine List.map_congr_left fun k hk => ?_
    have hbelow : k < (st.tail - st.head).toNat := List.mem_range.1 hk
    have hne : st.head + BitVec.ofNat 6 k ≠ st.tail := by bv_omega
    rw [slotAt_slotWrite, if_neg hne]
  · simp only [List.map_cons, List.map_nil, slotAt_slotWrite, if_pos hlast]

/-- A pop of a queue that is not empty gives and removes the oldest detent. -/
theorem entries_pop {st : EncoderSt} (h : st.head ≠ st.tail) :
    st.entries = slotAt st.slots st.head :: { st with head := st.head + 1#6 }.entries := by
  have hsucc : (st.tail - st.head).toNat = (st.tail - (st.head + 1#6)).toNat + 1 := by bv_omega
  rw [EncoderSt.entries, hsucc, List.range_succ_eq_map, List.map_cons, List.map_map, EncoderSt.entries]
  congr 1
  · simp
  · refine List.map_congr_left fun k _ => ?_
    have hindex : st.head + BitVec.ofNat 6 (k + 1) = st.head + 1#6 + BitVec.ofNat 6 k := by
      rw [BitVec.add_assoc, ← BitVec.ofNat_add, Nat.add_comm]
    simp only [Function.comp, Nat.succ_eq_add_one, hindex]

/-- Settles O42: Push appends by `entries_push_room`, Pop removes by `entries_pop`. -/
theorem queueRefinesABoundedFifo : Obligations.QueueRefinesABoundedFifo := by
  intro d st
  refine ⟨entries_length_le st, entries_eq_nil_iff st, fun h => entries_push_room ?_, fun h => push_full ?_, entries_pop⟩
  · rw [Ne, full_iff]; omega
  · rwa [full_iff]

/-! ### The two reads of a detent (R160, R161) -/

/-- A queue with a first detent is not empty, and its slot at `head` holds that detent. -/
theorem head_of_entries {st : EncoderSt} {d : Dir} {rest : List Dir} (h : st.entries = d :: rest) :
    st.head ≠ st.tail ∧ slotAt st.slots st.head = d ∧ { st with head := st.head + 1#6 }.entries = rest := by
  have hne : st.head ≠ st.tail := by
    rw [Ne, ← entries_eq_nil_iff, h]
    exact List.cons_ne_nil _ _
  obtain ⟨hd, hrest⟩ := List.cons.inj ((entries_pop hne).symm.trans h)
  exact ⟨hne, hd, hrest⟩

/-- The first read of a queued detent. -/
theorem readEncoder_of_entries {cfg : EncoderCfg} {st : EncoderSt} {d : Dir} {rest : List Dir}
    (hp : st.pending = false) (h : st.entries = d :: rest) :
    (readEncoder cfg st).1 = pressBit cfg d ∧ (readEncoder cfg st).2.pending = true ∧
      (readEncoder cfg st).2.entries = rest := by
  obtain ⟨hne, hd, hrest⟩ := head_of_entries h
  rw [readEncoder_press ⟨hp, hne⟩, hd]
  exact ⟨rfl, rfl, (entries_congr rfl rfl rfl).trans hrest⟩

/-- The read after it releases: it gives 0 and leaves the queue. -/
theorem readEncoder_of_pending {cfg : EncoderCfg} {st : EncoderSt} (hp : st.pending = true) :
    (readEncoder cfg st).1 = 0#64 ∧ (readEncoder cfg st).2.pending = false ∧
      (readEncoder cfg st).2.entries = st.entries := by
  rw [readEncoder_release (by simp [hp])]
  exact ⟨rfl, rfl, entries_congr rfl rfl rfl⟩

/-- Settles O44: the first read presses, the second releases. -/
theorem pressThenRelease : Obligations.PressThenRelease := by
  intro cfg st d rest hp h first second
  obtain ⟨hbit, hpending, hentries⟩ := readEncoder_of_entries (cfg := cfg) hp h
  obtain ⟨hzero, hreleased, hkept⟩ := readEncoder_of_pending (cfg := cfg) hpending
  refine ⟨?_, hpending, hentries, hzero, hreleased, hkept.trans hentries⟩
  rw [hbit]
  cases d <;> rfl

/-- Settles O46: the read and Push depend on the queued detents, and on nothing else of the slots. -/
theorem unwrittenSlotsAreNeverObserved : Obligations.UnwrittenSlotsAreNeverObserved := by
  intro cfg st slots d st' h
  have hread : (readEncoder cfg st').1 = (readEncoder cfg st).1 ∧
      (readEncoder cfg st').2.entries = (readEncoder cfg st).2.entries ∧
      (readEncoder cfg st').2.pending = (readEncoder cfg st).2.pending := by
    by_cases hpress : st.pending = false ∧ st.head ≠ st.tail
    · obtain ⟨e, rest, hst⟩ := List.exists_cons_of_ne_nil (mt (entries_eq_nil_iff st).1 hpress.2)
      obtain ⟨hbit, hpending, hentries⟩ := readEncoder_of_entries (cfg := cfg) hpress.1 hst
      obtain ⟨hbit', hpending', hentries'⟩ :=
        readEncoder_of_entries (cfg := cfg) (st := st') hpress.1 (h.trans hst)
      exact ⟨hbit'.trans hbit.symm, hentries'.trans hentries.symm, hpending'.trans hpending.symm⟩
    · rw [readEncoder_release hpress, readEncoder_release (st := st') hpress]
      exact ⟨rfl, (entries_congr rfl rfl rfl).trans (h.trans (entries_congr rfl rfl rfl)), rfl⟩
  refine ⟨hread.1, hread.2.1, hread.2.2, ?_⟩
  by_cases hfull : st.tail + 1#6 = st.head
  · rw [push_full hfull, push_full (st := st') hfull, h]
  · rw [entries_push_room hfull, entries_push_room (st := st') hfull, h]

/-! ### The decoders (R154, R155) -/

/-- A pass in the standard encoding. -/
theorem decodeSample_standard {cfg : EncoderCfg} (h : cfg.alternate = false) (p : Params) (ab : BitVec 2)
    (st : EncoderSt) : decodeSample p cfg ab st = decodeStd p ab st := by
  simp [decodeSample, h]

/-- A pass in the alternate encoding. -/
theorem decodeSample_alternate {cfg : EncoderCfg} (h : cfg.alternate = true) (p : Params) (ab : BitVec 2)
    (st : EncoderSt) : decodeSample p cfg ab st = decodeAlt p ab st := by
  simp [decodeSample, h]

/-- The standard decoder, with the shifts written as the kept bits above the new ones. -/
theorem decodeStd_eq (p : Params) (ab : BitVec 2) (st : EncoderSt) :
    decodeStd p ab st =
      let code : BitVec 4 := st.code.extractLsb' 0 2 ++ ab
      let seq : BitVec 8 := st.seq.extractLsb' 0 4 ++ code
      if validCode p code = false then { st with code := code }
      else if seq = p.detentCw then push .cw { st with code := code, seq := seq }
      else if seq = p.detentCcw then push .ccw { st with code := code, seq := seq }
      else { st with code := code, seq := seq } := by
  simp only [decodeStd, code_shift, seq_shift]
  cases validCode p (st.code.extractLsb' 0 2 ++ ab) <;> rfl

/-- With distinct emitting keys, a key emits what its entry says. -/
theorem altEmits_eq_some {p : Params} {key : BitVec 8} {d : Dir} (hw : AltWellFormed p) (h : (key, d) ∈ p.altEmit) :
    altEmits p key = some d := by
  obtain ⟨-, -, hnodup, -⟩ := hw
  obtain ⟨e, he⟩ := Option.isSome_iff_exists.1
    (List.find?_isSome.2 ⟨(key, d), h, beq_self_eq_true key⟩ : (p.altEmit.find? fun e => e.1 == key).isSome = true)
  have hkey : e.1 = key := by simpa using List.find?_some he
  have hsame : e = (key, d) := List.inj_on_of_nodup_map hnodup (List.mem_of_find?_eq_some he) h hkey
  simp [altEmits, he, hsame]

/-- A key without an entry emits nothing. -/
theorem altEmits_eq_none {p : Params} {key : BitVec 8} (h : ∀ d, (key, d) ∉ p.altEmit) : altEmits p key = none := by
  rw [altEmits, Option.map_eq_none_iff, List.find?_eq_none]
  intro e he hkey
  exact h e.2 (eq_of_beq hkey ▸ he)

/-- The alternate decoder on a valid key that emits. -/
theorem decodeAlt_emits {p : Params} {ab : BitVec 2} {st : EncoderSt} {d : Dir} (hw : AltWellFormed p)
    (hvalid : st.alt ++ (st.alt.extractLsb' 0 2 ++ ab) ∈ p.altValid)
    (hemit : (st.alt ++ (st.alt.extractLsb' 0 2 ++ ab), d) ∈ p.altEmit) :
    decodeAlt p ab st = { push d st with alt := st.alt.extractLsb' 0 2 ++ ab } := by
  simp only [decodeAlt, code_shift, if_pos hvalid, altEmits_eq_some hw hemit]

/-- The alternate decoder on a key that is not valid or emits nothing. -/
theorem decodeAlt_silent {p : Params} {ab : BitVec 2} {st : EncoderSt}
    (h : st.alt ++ (st.alt.extractLsb' 0 2 ++ ab) ∉ p.altValid ∨
      ∀ d, (st.alt ++ (st.alt.extractLsb' 0 2 ++ ab), d) ∉ p.altEmit) :
    decodeAlt p ab st = { st with alt := st.alt.extractLsb' 0 2 ++ ab } := by
  simp only [decodeAlt, code_shift]
  split
  · rw [altEmits_eq_none (h.resolve_left (not_not.2 ‹_›))]
  · rfl

/-- A full queue comes through a decode pass of either encoding as it was. -/
theorem decodeSample_full {p : Params} {cfg : EncoderCfg} {ab : BitVec 2} {st : EncoderSt}
    (h : st.tail + 1#6 = st.head) :
    (decodeSample p cfg ab st).slots = st.slots ∧ (decodeSample p cfg ab st).tail = st.tail := by
  unfold decodeSample
  split
  · unfold decodeAlt
    dsimp only
    split
    · split
      · rw [push_full h]; exact ⟨rfl, rfl⟩
      · exact ⟨rfl, rfl⟩
    · exact ⟨rfl, rfl⟩
  · rw [decodeStd_eq]
    dsimp only
    rw [push_full (by exact h), push_full (by exact h)]
    split
    · exact ⟨rfl, rfl⟩
    · split
      · exact ⟨rfl, rfl⟩
      · split <;> exact ⟨rfl, rfl⟩

/-! ### ENC_EDGE (R153) -/

/-- In its handler's turn, with its interrupt enabled, ENC_EDGE completes after one decode pass. -/
theorem exec_encEdge {u : UnitIx} {s : State} {cfg : EncoderCfg} {st : EncoderSt} (h : EdgeTurn u s)
    (hx : s.src[u.toNat]? = some (.encoder cfg st)) (hq : st.irqEnabled = true) :
    exec (.encEdge u) s = .next
      { s with
        src := s.src.set u.toNat (.encoder cfg (decodeSample s.params cfg (sample s.draws).1 st))
        draws := (sample s.draws).2
        lastNow := s.ports.now, result := .none, outcome := .completed } :=
  (exec_of_checksPass (checksPass_edge h hx hq) _).2 ⟨cfg, st, hx, rfl⟩

/-- Settles O39: one pass of the standard decoder over the sampled levels. -/
theorem encEdgeDecodesStandard : Obligations.EncEdgeDecodesStandard := by
  intro u s cfg st h hx hq halt a b code seq st'
  refine ⟨decode_opcode_unit (.encEdge u), ?_⟩
  rw [exec_encEdge h hx hq, decodeSample_standard halt, decodeStd_eq]
  rfl

/-- Settles O40: one pass of the alternate decoder over the sampled levels. -/
theorem encEdgeDecodesAlternate : Obligations.EncEdgeDecodesAlternate := by
  intro u s cfg st h hx hq halt hw a b nxt key after
  rw [exec_encEdge h hx hq, decodeSample_alternate halt]
  refine ⟨fun dir hvalid hemit => ?_, fun hsilent => ?_⟩
  · rw [decodeAlt_emits (ab := (sample s.draws).1) hw hvalid hemit]; rfl
  · rw [decodeAlt_silent (ab := (sample s.draws).1) hsilent]; rfl

/-- Settles O43: the one decode pass of a full queue. -/
theorem fullQueueDropsTheNewDetent : Obligations.FullQueueDropsTheNewDetent := by
  intro u s cfg st h hx hq hfull
  obtain ⟨hhead, hpending, -⟩ := decodeSample_frame s.params cfg (sample s.draws).1 st
  obtain ⟨hslots, htail⟩ := decodeSample_full (p := s.params) (cfg := cfg) (ab := (sample s.draws).1) hfull
  exact ⟨_, _, exec_encEdge h hx hq, rfl, rfl, hhead, htail, hslots, hpending, entries_congr hslots hhead htail,
    (full_iff st).1 hfull⟩

/-- Settles O48: each handler draws its own two levels and writes its own slot. -/
theorem edgesOfDifferentUnitsCommute : Obligations.EdgesOfDifferentUnitsCommute := by
  intro u v s cu cv su sv a b c d pins huv hphase hnow hu hv hqu hqv at_ drawn
  have hne : u.toNat ≠ v.toNat := fun e => huv (BitVec.eq_of_toNat_eq e)
  refine ⟨_, _, _, _, exec_encEdge ⟨hphase, rfl, hnow⟩ hu hqu,
    exec_encEdge (cfg := cv) (st := sv) ⟨hphase, rfl, BitVec.le_refl _⟩ ?_ hqv,
    exec_encEdge ⟨hphase, rfl, hnow⟩ hv hqv,
    exec_encEdge (cfg := cu) (st := su) ⟨hphase, rfl, BitVec.le_refl _⟩ ?_ hqu, ?_, rfl, rfl⟩
  · exact (List.getElem?_set_ne hne).trans hv
  · exact (List.getElem?_set_ne hne.symm).trans hu
  · exact List.set_comm _ _ hne

/-- Whether every encoder of a source table is in its place in another one, with the producer's side of its queue, its
decoder and its interrupt enable as they were. -/
def KeepsProducerSides (l l' : List Source) : Prop :=
  ∀ (k : Nat) (cfg : EncoderCfg) (st : EncoderSt), l[k]? = some (.encoder cfg st) →
    ∃ st', l'[k]? = some (.encoder cfg st') ∧ st'.code = st.code ∧ st'.seq = st.seq ∧ st'.alt = st.alt ∧
      st'.slots = st.slots ∧ st'.tail = st.tail ∧ st'.irqEnabled = st.irqEnabled

/-- A table keeps its own. -/
theorem KeepsProducerSides.refl (l : List Source) : KeepsProducerSides l l :=
  fun _ _ st hk => ⟨st, hk, rfl, rfl, rfl, rfl, rfl, rfl⟩

/-- A source added at the end leaves the others in their places. -/
theorem KeepsProducerSides.append (l : List Source) (x : Source) : KeepsProducerSides l (l ++ [x]) :=
  fun _ _ st hk => ⟨st, by rw [List.getElem?_append_left (List.getElem?_eq_some_iff.1 hk).1, hk],
    rfl, rfl, rfl, rfl, rfl, rfl⟩

/-- A read of a source keeps them, its own if it is an encoder's. -/
theorem KeepsProducerSides.read {l : List Source} {u : Nat} {x : Source} (hx : l[u]? = some x) (prev : InputBitmap)
    (now : Time) (d : Draws) : KeepsProducerSides l (l.set u (readSource x prev now d).source) := by
  intro k cfg st hk
  by_cases hku : u = k
  · subst hku
    cases hx.symm.trans hk
    exact ⟨_, List.getElem?_set_self (List.getElem?_eq_some_iff.1 hk).1, readEncoder_frame cfg st⟩
  · exact ⟨st, (List.getElem?_set_ne hku).trans hk, rfl, rfl, rfl, rfl, rfl, rfl⟩

/-- Every operation but ENC_EDGE keeps them. -/
theorem Written.keepsProducerSides {i : Instr} {s t : State} (h : Written i s t) (hi : rowOf i ≠ .edge) :
    KeepsProducerSides s.src t.src := by
  cases h with
  | created x es d hrow hphase hroom hwf hes => exact .append s.src x
  | read u x hi hx => exact .read hx _ _ _
  | chainBegun u hi hphase =>
    rcases chainAdvance_reads s.chainBegin s with ⟨hsrc, -⟩ | ⟨x, hx, hsrc, -⟩
    · rw [hsrc]; exact .refl _
    · rw [hsrc]; exact .read hx _ _ _
  | decoded u cfg st hedge hx => exact absurd (hedge ▸ rfl) hi
  | started hrow hphase | queried r hrow => exact .refl _
  | configured a x hrow ha hfree hwf | calibrated a x st r d hrow hx hbounds hwidens => simpa using .refl s.src

/-- Settles O47: the producer's side of the queue is written by the decode pass, the consumer's by the reads. -/
theorem queueSidesHaveOneWriter : Obligations.QueueSidesHaveOneWriter := by
  refine ⟨fun u s t h hdone => ?_, fun i s t k cfg st hi h hk => ?_⟩
  · rcases exec_next h with ⟨-, cfg, st, hx, rfl⟩ | ⟨w, rfl⟩ | ⟨-, -, rfl⟩
    · obtain ⟨hhead, hpending, hirq⟩ := decodeSample_frame s.params cfg (sample s.draws).1 st
      exact ⟨cfg, st, _, hx, rfl, hhead, hpending, hirq, rfl, rfl, rfl⟩
    · cases hdone
    · cases hdone
  · rcases exec_written h with ⟨w, rfl⟩ | ⟨e, -, rfl⟩ | ⟨-, hw⟩
    · exact KeepsProducerSides.refl s.src k cfg st hk
    · exact KeepsProducerSides.refl s.src k cfg st hk
    · exact hw.keepsProducerSides hi k cfg st hk

/-! ### The default standard tables (R152, R154, R162, R163) -/

/-- The default tables of the standard encoding. -/
structure DefaultTables (p : Params) : Prop where
  valid : p.valid = grayValid
  cw : p.detentCw = 0x17#8
  ccw : p.detentCcw = 0x2B#8

/-- VALID is the Gray-code table. -/
theorem DefaultTables.validCode_eq {p : Params} (h : DefaultTables p) (code : BitVec 4) :
    validCode p code = grayValid[code.toNat]'(code.isLt) := by
  simp only [validCode, h.valid]

/-- A sample that completes no detent sequence only moves the decoder on, `seq` if the code is valid. -/
theorem decodeStd_quiet {p : Params} {ab : BitVec 2} {st : EncoderSt} {code : BitVec 4} {seq : BitVec 8}
    (h : DefaultTables p) (hcode : st.code.extractLsb' 0 2 ++ ab = code) (hseq : st.seq.extractLsb' 0 4 ++ code = seq)
    (hcw : seq ≠ 0x17#8) (hccw : seq ≠ 0x2B#8) :
    decodeStd p ab st =
      { st with code := code, seq := if grayValid[code.toNat]'(code.isLt) then seq else st.seq } := by
  subst hcode hseq
  rw [decodeStd_eq, h.cw, h.ccw]
  dsimp only
  rw [h.validCode_eq, if_neg hcw, if_neg hccw]
  cases grayValid[(st.code.extractLsb' 0 2 ++ ab).toNat]'(BitVec.isLt _) <;> rfl

/-- The same where the code is valid. -/
theorem decodeStd_quiet_valid {p : Params} {ab : BitVec 2} {st : EncoderSt} {code : BitVec 4} {seq : BitVec 8}
    (h : DefaultTables p) (hcode : st.code.extractLsb' 0 2 ++ ab = code) (hseq : st.seq.extractLsb' 0 4 ++ code = seq)
    (hvalid : grayValid[code.toNat]'(code.isLt) = true) (hquiet : seq ≠ 0x17#8 ∧ seq ≠ 0x2B#8) :
    decodeStd p ab st = { st with code := code, seq := seq } := by
  rw [decodeStd_quiet h hcode hseq hquiet.1 hquiet.2, if_pos hvalid]

/-- Settles O21: a first sample's sequence has a zero upper code, and no detent sequence has. -/
theorem primingPushesNothingByDefault : Obligations.PrimingPushesNothingByDefault := by
  intro p cfg slots ab halt hvalid hcw hccw
  have hseq : (0#8).extractLsb' 0 4 ++ ((0#4).extractLsb' 0 2 ++ ab) ≠ 0x17#8 ∧
      (0#8).extractLsb' 0 4 ++ ((0#4).extractLsb' 0 2 ++ ab) ≠ 0x2B#8 := by
    revert ab; decide
  have hquiet := decodeStd_quiet (ab := ab) (st := newEncoderSt slots) (code := (0#4).extractLsb' 0 2 ++ ab)
    (seq := (0#8).extractLsb' 0 4 ++ ((0#4).extractLsb' 0 2 ++ ab)) ⟨hvalid, hcw, hccw⟩ rfl rfl hseq.1 hseq.2
  rw [primedEncoderSt, decodeSample_standard halt, hquiet]
  exact ⟨rfl, rfl, rfl, rfl, rfl⟩

/-- From rest at `11`, three samples `a`, `b`, `c` whose codes are valid and that complete no detent sequence leave the
last two codes in `seq`; the fourth sample meets the queue as it was. -/
theorem decodeAll_four {p : Params} {cfg : EncoderCfg} {st : EncoderSt} {a b c : BitVec 2} (d : BitVec 2)
    (h : DefaultTables p) (halt : cfg.alternate = false) (hrest : st.code.extractLsb' 0 2 = 0b11#2)
    (hvalid : ∀ code ∈ [0b11#2 ++ a, a ++ b, b ++ c], grayValid[code.toNat]'(code.isLt) = true)
    (hfirst : ∀ q : BitVec 4, q ++ (0b11#2 ++ a) ≠ 0x17#8 ∧ q ++ (0b11#2 ++ a) ≠ 0x2B#8)
    (hquiet : ∀ seq ∈ [(0b11#2 ++ a) ++ (a ++ b), (a ++ b) ++ (b ++ c)], seq ≠ 0x17#8 ∧ seq ≠ 0x2B#8) :
    decodeAll p cfg [a, b, c, d] st =
      decodeStd p d { st with code := b ++ c, seq := (a ++ b) ++ (b ++ c) } := by
  obtain ⟨hva, hvb, hvc, -⟩ := by simpa only [List.forall_mem_cons] using hvalid
  obtain ⟨hqb, hqc, -⟩ := by simpa only [List.forall_mem_cons] using hquiet
  have hlow {w v : Nat} (x : BitVec w) (y : BitVec v) : (x ++ y).extractLsb' 0 v = y :=
    BitVec.extractLsb'_append_eq_right
  have h1 := decodeStd_quiet_valid (st := st) h (by rw [hrest]) rfl hva (hfirst _)
  have h2 := decodeStd_quiet_valid
    (st := { st with code := 0b11#2 ++ a, seq := st.seq.extractLsb' 0 4 ++ (0b11#2 ++ a) })
    h (by rw [hlow]) (by rw [hlow]) hvb hqb
  have h3 := decodeStd_quiet_valid (st := { st with code := a ++ b, seq := (0b11#2 ++ a) ++ (a ++ b) })
    h (by rw [hlow]) (by rw [hlow]) hvc hqc
  simp only [decodeAll, List.foldl_cons, List.foldl_nil, decodeSample_standard halt]
  rw [h1, h2, h3]

/-- A decode pass over any samples leaves a pending release pending. -/
theorem decodeAll_pending (p : Params) (cfg : EncoderCfg) (samples : List (BitVec 2)) (st : EncoderSt) :
    (decodeAll p cfg samples st).pending = st.pending := by
  induction samples generalizing st with
  | nil => rfl
  | cons ab samples ih => exact (ih _).trans (decodeSample_frame p cfg ab st).2.1

/-- A detent pushed into an empty queue is all that is queued. -/
theorem entries_push_of_empty {d : Dir} {st : EncoderSt} (h : st.head = st.tail) : (push d st).entries = [d] := by
  have hnil : st.entries = [] := (entries_eq_nil_iff st).2 h
  rw [entries_push_room (by rw [Ne, full_iff, hnil]; simp), hnil, List.nil_append]

/-- The samples of a clockwise detent queue one CW detent. -/
theorem decodeAll_clockwise {p : Params} {cfg : EncoderCfg} {st : EncoderSt} (h : DefaultTables p)
    (halt : cfg.alternate = false) (hrest : st.code.extractLsb' 0 2 = 0b11#2) (hempty : st.head = st.tail) :
    (decodeAll p cfg [0b10#2, 0b00#2, 0b01#2, 0b11#2] st).entries = [.cw] := by
  rw [decodeAll_four _ h halt hrest (by decide) (by decide) (by decide), decodeStd_eq]
  dsimp only
  rw [h.validCode_eq, h.cw, if_neg (by decide), if_pos (by decide)]
  exact entries_push_of_empty hempty

/-- The mirrored samples queue one CCW detent. -/
theorem decodeAll_counterclockwise {p : Params} {cfg : EncoderCfg} {st : EncoderSt} (h : DefaultTables p)
    (halt : cfg.alternate = false) (hrest : st.code.extractLsb' 0 2 = 0b11#2) (hempty : st.head = st.tail) :
    (decodeAll p cfg [0b01#2, 0b00#2, 0b10#2, 0b11#2] st).entries = [.ccw] := by
  rw [decodeAll_four _ h halt hrest (by decide) (by decide) (by decide), decodeStd_eq]
  dsimp only
  rw [h.validCode_eq, h.cw, h.ccw, if_neg (by decide), if_neg (by decide), if_pos (by decide)]
  exact entries_push_of_empty hempty

/-- Settles O45: either way round one detent is queued, and two reads press and release it. -/
theorem oneDetentQueuesOneEvent : Obligations.OneDetentQueuesOneEvent := by
  intro p cfg st halt hvalid hcw hccw hempty hp hrest turned mirrored
  have htables : DefaultTables p := ⟨hvalid, hcw, hccw⟩
  have hturned : turned.entries = [.cw] := decodeAll_clockwise htables halt hrest hempty
  have hmirrored : mirrored.entries = [.ccw] := decodeAll_counterclockwise htables halt hrest hempty
  obtain ⟨hbit, hpending, -⟩ := readEncoder_of_entries (cfg := cfg) ((decodeAll_pending ..).trans hp) hturned
  obtain ⟨hbit', hpending', -⟩ := readEncoder_of_entries (cfg := cfg) ((decodeAll_pending ..).trans hp) hmirrored
  exact ⟨hturned, hmirrored, hbit, (readEncoder_of_pending hpending).1, hbit', (readEncoder_of_pending hpending').1⟩

end Sys2Proof.Machine
end

section
/-! PROOFS. The analog axis (42_analog_axis.md R200 to R212): the map of a sample against its widened bounds, the three
operations that write bounds, and how the bounds move. -/

namespace Sys2Proof.Machine

/-! ### The map (R203, R206) -/

/-- Bounds widened by a sample contain it. -/
theorem widen_mem (st : AxisSt) (raw : Nat) : (st.widen raw).min ≤ raw ∧ raw ≤ (st.widen raw).max := by
  unfold AxisSt.widen
  constructor
  · dsimp only; split <;> omega
  · dsimp only; split <;> omega

/-- A sample inside the bounds is mapped unclamped. -/
theorem axisMap_of_mem {raw lo hi : Nat} (hlo : lo ≤ raw) (hhi : raw ≤ hi) (inverted : Bool) :
    axisMap raw lo hi inverted =
      if inverted then 254 - (if lo < hi then (raw - lo) * 254 / (hi - lo) else 0)
      else if lo < hi then (raw - lo) * 254 / (hi - lo) else 0 := by
  have hclamp : clamp raw lo hi = raw := by
    unfold clamp
    rw [if_neg (not_lt.2 hlo), if_neg (not_lt.2 hhi)]
  simp only [axisMap, axisMax, hclamp, gt_iff_lt]

/-- A value clamped to a range with a lower end below its upper end does not exceed the upper end. -/
theorem clamp_le {v lo hi : Nat} (h : lo ≤ hi) : clamp v lo hi ≤ hi := by
  unfold clamp
  split
  · exact h
  · split <;> omega

/-- The map before inversion stays in `0..254`. -/
theorem axisMap_plain_le (raw lo hi : Nat) : axisMap raw lo hi false ≤ 254 := by
  simp only [axisMap, axisMax, Bool.false_eq_true, if_false]
  split
  · rename_i hlt
    have hwidth : clamp raw lo hi - lo ≤ hi - lo := Nat.sub_le_sub_right (clamp_le (Nat.le_of_lt hlt)) lo
    exact Nat.div_le_of_le_mul (Nat.mul_le_mul_right 254 hwidth)
  · exact Nat.zero_le _

/-- Inversion mirrors the map. -/
theorem axisMap_inverted (raw lo hi : Nat) : axisMap raw lo hi true = 254 - axisMap raw lo hi false := by
  simp [axisMap, axisMax]

/-- The map stays in `0..254`, inverted or not. -/
theorem axisMap_le (raw lo hi : Nat) (inverted : Bool) : axisMap raw lo hi inverted ≤ 254 := by
  cases inverted with
  | false => exact axisMap_plain_le raw lo hi
  | true => rw [axisMap_inverted]; exact Nat.sub_le _ _

/-- Settles O53: AX_READ's value is one of the map's. -/
theorem axisValuesStayInRange : Obligations.AxisValuesStayInRange := by
  refine ⟨fun u s t v f h hv => ?_, fun raw lo hi => ⟨axisMap_plain_le raw lo hi, axisMap_inverted raw lo hi⟩⟩
  have hle : v ≤ 254 := by
    rcases exec_next h with ⟨-, x, -, rfl⟩ | ⟨w, rfl⟩ | ⟨-, -, rfl⟩
    · cases hv
      exact axisMap_le ..
    · cases hv
    · cases hv
  exact ⟨hle, by omega⟩

/-! ### The operations that write bounds (R204, R208, R210) -/

/-- The state after an axis is written and the operation completes, its two axis fields left open. -/
theorem complete_setAxis_eq (s : State) (r : Result) (d : Draws) (a : Nat) (x : Axis) :
    complete r { s.setAxis a x with draws := d } =
      { s with
        axisLeft := (s.setAxis a x).axisLeft, axisRight := (s.setAxis a x).axisRight
        draws := d, lastNow := s.ports.now, result := r, outcome := .completed } := by
  simp [complete]

/-- The same where nothing is drawn. -/
theorem complete_setAxis_plain_eq (s : State) (r : Result) (a : Nat) (x : Axis) :
    complete r (s.setAxis a x) =
      { s with
        axisLeft := (s.setAxis a x).axisLeft, axisRight := (s.setAxis a x).axisRight
        lastNow := s.ports.now, result := r, outcome := .completed } := by
  simp [complete]

/-- Settles O49: the sample lies inside the widened bounds, so the map does not clamp it. -/
theorem axReadCalibratesAndMaps : Obligations.AxReadCalibratesAndMaps := by
  intro u s x h hx raw lo hi v
  have hlt : u.toNat < 2 := s.axisAt_lt u.toNat x hx
  have hpass : ChecksPass (.axRead u) s := checksPass_live rfl h ⟨hlt, x, hx⟩
  have hmem : lo ≤ raw ∧ raw ≤ hi := widen_mem x.st raw
  have hmap : axisMap raw (x.st.widen raw).min (x.st.widen raw).max x.cfg.inverted =
      if x.cfg.inverted then 254 - v else v := axisMap_of_mem hmem.1 hmem.2 x.cfg.inverted
  have hflag : autocalibrated raw x.st.min x.st.max = decide (raw < x.st.min ∨ x.st.max < raw) := by
    simp [autocalibrated]
  have hexec := (exec_of_checksPass hpass _).2 ⟨x, hx, rfl⟩
  refine ⟨decode_opcode_unit (.axRead u), Draws.analogRead_le .., _, hexec, ?_, fun a => ?_⟩
  · rw [complete_setAxis_eq, hflag, hmap]
  · exact axisAt_complete_setAxis s _ _ u.toNat a _ hlt

/-- Settles O50: the rule writes the sentinels. -/
theorem axResetCalRestoresTheSentinels : Obligations.AxResetCalRestoresTheSentinels := by
  intro u s x h hx
  have hlt : u.toNat < 2 := s.axisAt_lt u.toNat x hx
  have hpass : ChecksPass (.axResetCal u) s := checksPass_live rfl h ⟨hlt, x, hx⟩
  refine ⟨decode_opcode_unit (.axResetCal u), _, (exec_of_checksPass hpass _).2 ⟨x, hx, rfl⟩,
    complete_setAxis_plain_eq .., fun a => ?_⟩
  exact s.axisAt_setAxis u.toNat a _ hlt

/-- Settles O51: clamping to `0..RAW_MAX` is the minimum with RAW_MAX. -/
theorem axSetCalClampsTheBounds : Obligations.AxSetCalClampsTheBounds := by
  intro u s x h hx
  have hlt : u.toNat < 2 := s.axisAt_lt u.toNat x hx
  have hpass : ChecksPass (.axSetCal u) s := checksPass_setCal rfl h ⟨hlt, x, hx⟩
  refine ⟨decode_opcode_unit (.axSetCal u), _, (exec_of_checksPass hpass _).2 ⟨x, hx, rfl⟩,
    complete_setAxis_plain_eq .., fun a => ?_⟩
  rw [← clamp_zero, ← clamp_zero]
  exact s.axisAt_setAxis u.toNat a _ hlt

/-! ### How bounds move (R205) -/

/-- Whether every configured axis of a state is configured the same in another one, with bounds at least as wide. -/
def KeepsBounds (s t : State) : Prop :=
  ∀ a x, s.axisAt a = some x → ∃ y, t.axisAt a = some y ∧ y.cfg = x.cfg ∧ y.st.min ≤ x.st.min ∧ x.st.max ≤ y.st.max

/-- Equal axes have the same bounds. -/
theorem KeepsBounds.of_eq {s t : State} (h : ∀ a, t.axisAt a = s.axisAt a) : KeepsBounds s t :=
  fun a x hx => ⟨x, (h a).trans hx, rfl, le_rfl, le_rfl⟩

/-- An axis written that was not configured, or to the same configuration and wider bounds. -/
theorem KeepsBounds.of_setAxis {s t : State} {b : Nat} {y : Axis}
    (ht : ∀ a, t.axisAt a = if a = b then some y else s.axisAt a)
    (hy : ∀ x, s.axisAt b = some x → y.cfg = x.cfg ∧ y.st.min ≤ x.st.min ∧ x.st.max ≤ y.st.max) : KeepsBounds s t := by
  intro a x hx
  by_cases hab : a = b
  · subst hab
    exact ⟨y, (ht a).trans (if_pos rfl), hy x hx⟩
  · exact ⟨x, ((ht a).trans (if_neg hab)).trans hx, rfl, le_rfl, le_rfl⟩

/-- Every operation but AX_RESET_CAL and AX_SET_CAL keeps or widens bounds. -/
theorem Written.keepsBounds {i : Instr} {s t : State} (h : Written i s t) (hreset : ∀ u, i ≠ .axResetCal u)
    (hset : ∀ u, i ≠ .axSetCal u) : KeepsBounds s t := by
  cases h with
  | configured a x hrow ha hfree hwf =>
    exact .of_setAxis (fun b => s.axisAt_setAxis a b x ha) fun y hy => nomatch hfree.symm.trans hy
  | chainBegun u hi hphase =>
    obtain ⟨-, -, -, hl, hr, -⟩ := chainAdvance_frame s.chainBegin s
    exact .of_eq (axisAt_congr hl hr)
  | calibrated a x st r d hrow hx hbounds hwidens =>
    obtain ⟨u, hu⟩ | ⟨u, hu⟩ | hwider := hwidens
    · exact absurd hu (hreset u)
    · exact absurd hu (hset u)
    · refine .of_setAxis (fun b => axisAt_complete_setAxis s r d a b _ (s.axisAt_lt a x hx)) fun y hy => ?_
      cases hx.symm.trans hy
      exact ⟨rfl, hwider⟩
  | created x es d hrow hphase hroom hwf hes | started hrow hphase | read u x hi hx | queried r hrow
  | decoded u cfg st hi hx => exact .of_eq fun _ => rfl

/-- Settles O54: AX_READ's widened bounds contain the sample, and of the other operations only the two that write a
given range may narrow them. -/
theorem boundsWidenMonotonically : Obligations.BoundsWidenMonotonically := by
  refine ⟨fun u s t h hdone => ?_, fun i s t a x hreset hset h hx => ?_⟩
  · rcases exec_next h with ⟨-, x, hx, rfl⟩ | ⟨w, rfl⟩ | ⟨-, -, rfl⟩
    · refine ⟨{ x with st := x.st.widen (s.draws.analogRead s.params.rawMax).1 }, ?_, widen_mem ..⟩
      rw [axisAt_complete_setAxis s _ _ _ _ _ (s.axisAt_lt _ x hx), if_pos rfl]
    · cases hdone
    · cases hdone
  · rcases exec_written h with ⟨w, rfl⟩ | ⟨e, -, rfl⟩ | ⟨-, hw⟩
    · exact KeepsBounds.of_eq (fun _ => rfl) a x hx
    · exact KeepsBounds.of_eq (fun _ => rfl) a x hx
    · exact hw.keepsBounds hreset hset a x hx

end Sys2Proof.Machine
end

section
/-! PROOFS. Registration and START (43_configuration.md R230 to R245): each CFG operation as the validation of its
record, the first error of a complete record, and the records that are refused. -/

namespace Sys2Proof.Machine

/-! ### The rule that runs (R230) -/

/-- In SETUP's turn, with the next slot as unit, CFG_DPIN registers what its record validates to. -/
theorem exec_cfgDpin {u : UnitIx} {s : State} (h : ConfigTurn s) (hu : UnitLegal (.cfgDpin u) s) :
    exec (.cfgDpin u) s =
      registered (validateDpin s.params s.ports.record) (fun cfg s => s.addSource (newDpin cfg)) s :=
  checked_pass (checksPass_config rfl h hu)

/-- CFG_MATRIX registers what its record validates to in the same turn. -/
theorem exec_cfgMatrix {u : UnitIx} {s : State} (h : ConfigTurn s) (hu : UnitLegal (.cfgMatrix u) s) :
    exec (.cfgMatrix u) s = registered (validateMatrix s.params s.ports.record)
      (fun cfg s => (s.addSource (newMatrix cfg)).record (matrixIdleEvents cfg)) s :=
  checked_pass (checksPass_config rfl h hu)

/-- CFG_SHIFTREG registers what its record validates to in the same turn. -/
theorem exec_cfgShiftreg {u : UnitIx} {s : State} (h : ConfigTurn s) (hu : UnitLegal (.cfgShiftreg u) s) :
    exec (.cfgShiftreg u) s = registered (validateShiftReg s.params s.ports.record)
      (fun cfg s => (s.addSource (.shiftReg cfg)).record (shiftRegIdleEvents cfg)) s :=
  checked_pass (checksPass_config rfl h hu)

/-- CFG_ENCODER registers what its record validates to in the same turn. -/
theorem exec_cfgEncoder {u : UnitIx} {s : State} (h : ConfigTurn s) (hu : UnitLegal (.cfgEncoder u) s) :
    exec (.cfgEncoder u) s = registered (validateEncoder s.params s.ports.record) createEncoder s :=
  checked_pass (checksPass_config rfl h hu)

/-- CFG_EXTSRC registers what its record validates to in the same turn. -/
theorem exec_cfgExtsrc {u : UnitIx} {s : State} (h : ConfigTurn s) (hu : UnitLegal (.cfgExtsrc u) s) :
    exec (.cfgExtsrc u) s = registered (validateExt s.params s.ports.record)
      (fun cfg s => s.addSource (.opaqueExt cfg (Config.extInit cfg.fn))) s :=
  checked_pass (checksPass_config rfl h hu)

/-- CFG_AXIS does so with an unconfigured axis as unit. -/
theorem exec_cfgAxis {u : UnitIx} {s : State} (h : ConfigTurn s) (hu : UnitLegal (.cfgAxis u) s) :
    exec (.cfgAxis u) s = registered (validateAxis s.params s.ports.record)
      (fun cfg s => s.setAxis u.toNat { cfg := cfg, st := sentinels s.params }) s :=
  checked_pass (checksPass_config rfl h hu)

/-! ### Complete records: the first error, or the created unit (R235 to R241) -/

/-- Settles O17: `validateDpin_eq` in its two cases. -/
theorem cfgDpinRegistersOrRaises : Obligations.CfgDpinRegistersOrRaises := by
  intro u s pin input active window h hunit hroom hpin hinput hactive hwindow hvalid
  refine ⟨decode_opcode_unit (.cfgDpin u), ?_⟩
  rw [exec_cfgDpin h ⟨hunit, hroom⟩, validateDpin_eq hpin hinput hactive hwindow hvalid]
  split <;> rfl

/-- Every selector starts at its inactive level, as the spec writes it. -/
theorem matrixIdleEvents_eq (cfg : MatrixCfg) :
    matrixIdleEvents cfg = cfg.selPins.map (fun p => .write p (1#1 - cfg.selActive)) := by
  rw [← level_not]
  rfl

/-- Settles O18: `validateMatrix_eq` in its five cases. -/
theorem cfgMatrixRegistersOrRaises : Obligations.CfgMatrixRegistersOrRaises := by
  intro u s selPins inPins map selActive inActive window settle h hunit hroom hsel hin hmap hselActive hinActive hwindow
    hsettle hvalid raised
  refine ⟨decode_opcode_unit (.cfgMatrix u), ?_⟩
  rw [exec_cfgMatrix h ⟨hunit, hroom⟩,
    validateMatrix_eq hsel hin hmap hselActive hinActive hwindow hsettle hvalid]
  simp only [matrixIdleEvents_eq]
  split_ifs <;> rfl

/-- The load and clock pins start at their inactive levels, as the spec writes them. -/
theorem shiftRegIdleEvents_eq (cfg : ShiftRegCfg) :
    shiftRegIdleEvents cfg =
      [.write cfg.loadPin (1#1 - cfg.loadActive), .write cfg.clkPin (1#1 - cfg.clkActive)] := by
  rw [← level_not, ← level_not]
  rfl

/-- Settles O19: `validateShiftReg_eq` in its four cases. -/
theorem cfgShiftregRegistersOrRaises : Obligations.CfgShiftregRegistersOrRaises := by
  intro u s loadPin clkPin dataPin n map loadActive clkActive dataActive pulse h hunit hroom hload hclk hdata hn hmap
    hloadActive hclkActive hdataActive hpulse hvalid raised
  refine ⟨decode_opcode_unit (.cfgShiftreg u), ?_⟩
  rw [exec_cfgShiftreg h ⟨hunit, hroom⟩,
    validateShiftReg_eq hload hclk hdata hn hmap hloadActive hclkActive hdataActive hpulse hvalid]
  simp only [shiftRegIdleEvents_eq]
  split_ifs <;> rfl

/-- Settles O20: `validateEncoder_eq` in its four cases; an absent `ccw` is `cw + 1`. -/
theorem cfgEncoderRegistersOrRaises : Obligations.CfgEncoderRegistersOrRaises := by
  intro u s clkPin dtPin cw ccw alternate h hunit hroom hclk hdt hcw hccw halt hw hclkValid hdtValid raised ccw' cfg
    created a b
  have hdefault : ccw.getD (cw + 1) = ccw' := by cases ccw <;> rfl
  refine ⟨decode_opcode_unit (.cfgEncoder u), ?_⟩
  rw [exec_cfgEncoder h ⟨hunit, hroom⟩, validateEncoder_eq hclk hdt hcw hccw halt hw hclkValid hdtValid, hdefault]
  split_ifs <;> rfl

/-- Settles O22: the record's `fn` names a function. -/
theorem cfgExtsrcRegisters : Obligations.CfgExtsrcRegisters := by
  intro u s mask fn h hunit hroom hmask hfn hlt
  refine ⟨decode_opcode_unit (.cfgExtsrc u), ?_⟩
  rw [exec_cfgExtsrc h ⟨hunit, hroom⟩, validateExt_eq hmask hfn, if_pos hlt]
  rfl

/-- Settles O23: the two axes by their unit. -/
theorem cfgAxisConfigures : Obligations.CfgAxisConfigures := by
  intro u s channel inverted h hchannel hinverted hvalid x
  refine ⟨decode_opcode_unit (.cfgAxis u), ?_, ?_⟩
  · rintro rfl hfree
    rw [exec_cfgAxis (u := 0#8) h ⟨by decide, hfree⟩, validateAxis_eq hchannel hinverted hvalid]
    rfl
  · rintro rfl hfree
    rw [exec_cfgAxis (u := 1#8) h ⟨by decide, hfree⟩, validateAxis_eq hchannel hinverted hvalid]
    rfl

/-! ### Refused records (R234) -/

/-- A record whose validation refuses is refused. -/
theorem registered_refuse {α : Type} {v : Validated α} {create : α → State → State} {s : State} {w : RefuseReason}
    (h : v = .error (.refuse w)) : registered v create s = .next (refuse w s) := by
  rw [h]
  rfl

/-- The pins are validated first: a bad one decides. -/
theorem badPin_first {α : Type} {p : Params} {pins : List PinNumber} (rest : Unit → Validated α)
    (h : ∃ x ∈ pins, pinAllowed p.pins x = false) : (pinsValid p pins >>= rest) = .error (.refuse .badPin) := by
  rw [pinsValid_bad h, error_bind]

/-- The fields are validated next: a missing or mistyped one decides. -/
theorem badParam_next {α β : Type} {p : Params} {pins : List PinNumber} {fields : Option β} (rest : β → Validated α)
    (h : ∀ x ∈ pins, pinAllowed p.pins x = true) (hf : fields = none) :
    (pinsValid p pins >>= fun _ => fieldsPresent fields >>= rest) = .error (.refuse .badParam) := by
  rw [pinsValid_good h, ok_bind, hf]
  rfl

/-- An encoder record with good pins that is incomplete, or asks for the alternate encoding without well-formed tables,
fails its fields' validation. -/
theorem validateEncoder_badParam {p : Params} {r : Record}
    (hpins : ∀ x ∈ (r.num? .clkPin).toList ++ (r.num? .dtPin).toList, pinAllowed p.pins x = true)
    (h : encoderRecord r = none ∨ (r.alternate? = some true ∧ ¬AltWellFormed p)) :
    validateEncoder p r = .error (.refuse .badParam) := by
  rcases h with hnone | ⟨halt, hw⟩
  · exact badParam_next _ hpins hnone
  · rcases encoderRecord_alternate halt with hnone | ⟨c, hc, hcalt⟩
    · exact badParam_next _ hpins hnone
    · have htables : (!c.alternate || decide (AltWellFormed p)) = false := by simp [hcalt, hw]
      unfold validateEncoder
      rw [pinsValid_good hpins, hc, ok_bind]
      simp only [fieldsPresent, present, ok_bind, htables, demand_false, error_bind]

/-- An opaque source's record that is incomplete, or names no function, fails its validation. -/
theorem validateExt_badParam {p : Params} {r : Record}
    (h : r.word? .mask = none ∨ r.num? .fn = none ∨ ∃ fn, r.num? .fn = some fn ∧ p.extFns ≤ fn) :
    validateExt p r = .error (.refuse .badParam) := by
  have hmissing (hr : extRecord r = none) : validateExt p r = .error (.refuse .badParam) := by
    unfold validateExt
    rw [hr]
    rfl
  rcases h with hmask | hfn | ⟨fn, hfn, hge⟩
  · exact hmissing (extRecord_none (.inl hmask))
  · exact hmissing (extRecord_none (.inr hfn))
  · cases hmask : r.word? .mask with
    | none => exact hmissing (extRecord_none (.inl hmask))
    | some mask => rw [validateExt_eq hmask hfn, if_neg (not_lt.2 hge)]

/-- Settles O24: for every kind the pins are validated before the fields, and the fields before what they hold. -/
theorem unmodelledRecordsAreRefused : Obligations.UnmodelledRecordsAreRefused := by
  intro u s h refusedFor r bad good matrixPins shiftPins encoderPins
  refine ⟨fun hunit hroom => ?_, fun hlt hfree => ?_⟩
  · have hu : u.toNat = s.src.length ∧ s.src.length < s.params.maxSources := ⟨hunit, hroom⟩
    rw [exec_cfgDpin h hu, exec_cfgMatrix h hu, exec_cfgShiftreg h hu, exec_cfgEncoder h hu, exec_cfgExtsrc h hu]
    refine ⟨fun hbad => ?_, fun hgood hf => ?_, fun hbad => ?_, fun hgood hf => ?_, fun hbad => ?_, fun hgood hf => ?_,
      fun hbad => ?_, fun hgood hf => ?_, fun hf => ?_⟩
    · exact registered_refuse (badPin_first _ hbad)
    · exact registered_refuse (badParam_next _ hgood (dpinRecord_none hf))
    · exact registered_refuse (badPin_first _ hbad)
    · exact registered_refuse (badParam_next _ hgood (matrixRecord_none hf))
    · exact registered_refuse (badPin_first _ hbad)
    · exact registered_refuse (badParam_next _ hgood (shiftRegRecord_none hf))
    · exact registered_refuse (badPin_first _ hbad)
    · refine registered_refuse (validateEncoder_badParam hgood ?_)
      obtain hf | hf | hf | hf | hf | ⟨halt, hw⟩ := hf
      · exact .inl (encoderRecord_none (.inl hf))
      · exact .inl (encoderRecord_none (.inr (.inl hf)))
      · exact .inl (encoderRecord_none (.inr (.inr (.inl hf))))
      · exact .inl (encoderRecord_none (.inr (.inr (.inr (.inl (ccw_mistyped hf))))))
      · exact .inl (encoderRecord_none (.inr (.inr (.inr (.inr (alternate_mistyped hf))))))
      · exact .inr ⟨alternate_of_bool halt, hw⟩
    · exact registered_refuse (validateExt_badParam hf)
  · rw [exec_cfgAxis h ⟨hlt, hfree⟩]
    refine ⟨fun hbad => registered_refuse (badPin_first _ hbad), fun hgood hf => registered_refuse ?_⟩
    rw [validateAxis, pinsValid_good hgood, ok_bind, axisRecord_none hf]
    rfl

/-! ### START (R245) -/

/-- Settles O25: START's own turn, and the phase column that bars a second one. -/
theorem startBeginsRunning : Obligations.StartBeginsRunning := by
  intro s
  refine ⟨decode_opcode_unit (.start 0#8), fun h => ?_, fun hp ha => ?_⟩
  · exact (exec_of_checksPass (checksPass_start h) _).2 rfl
  · have hsteps : AgentSteps s := ⟨by simp [hp], by simp [ha]⟩
    exact exec_phaseObjection (i := .start 0#8) (o := .refuse .badPhase) hsteps ha (by simp [phaseObjection, rowOf, hp])

end Sys2Proof.Machine
end
